-- ==== Sys2Proof/Word.lean ====
section
/-! DEFINITION. Bytes, words, the two ADC devices and pairs indexed by them (R17, R20). -/

namespace Sys2Proof

/-- A byte is 8 bits (R17). -/
abbrev Byte := BitVec 8

/-- A word is 32 bits (R17). -/
abbrev Word := BitVec 32

/-- The two ADC devices A and B (R20); bit 0 of ADC_REQUEST and ADC_READ names one of them (R112). -/
inductive Dev where
  | a
  | b
deriving DecidableEq, Repr, Inhabited

/-- The other device. -/
def Dev.other : Dev → Dev
  | .a => .b
  | .b => .a

/-- One value for each ADC, as in `s.pend[A]`, `s.pend[B]` (R35). -/
structure PerAdc (α : Type) where
  a : α
  b : α
deriving DecidableEq, Repr

/-- `p[dev]`. -/
def PerAdc.get {α : Type} (p : PerAdc α) : Dev → α
  | .a => p.a
  | .b => p.b

/-- `p[dev] <- v`. -/
def PerAdc.set {α : Type} (p : PerAdc α) (d : Dev) (v : α) : PerAdc α :=
  match d with
  | .a => ⟨v, p.b⟩
  | .b => ⟨p.a, v⟩

/-- The same value for both ADCs. -/
def PerAdc.both {α : Type} (v : α) : PerAdc α := ⟨v, v⟩

end Sys2Proof
end

