-- ==== Sys2Proof/Syntax.lean ====
section
/-! DEFINITION. The instructions: one constructor for each row of spec/opcode_table.json. The block executes no
code (R31); its instructions are the words written to CMD and the bytes it emits on the ADC link (R1). -/

namespace Sys2Proof

/-- The nine commands (R111), every other command word (R114), and the three wire bytes (R115 to R117).
A wire byte does not carry its device: chip-select does (R80), so the device is an operand beside the byte. -/
inductive Instr where
  | nop
  | initAdc
  | chainClear
  | chainAdvance (b : Bool)
  | startScan
  | faultClear
  | adcRequest (d : Dev)
  | adcRead (d : Dev)
  | handshakeStart
  | illegal (w : Word)
  | adcConv (d : Dev) (cccc : BitVec 4)
  | adcSetup (d : Dev) (x : BitVec 6)
  | adcNull (d : Dev)
deriving DecidableEq, Repr

end Sys2Proof
end

