-- ==== Sys2Proof/WellFormed.lean ====
section
/-! DEFINITION. Which instructions exist: every constructor does, but `illegal w` only for a word that is no
command (R114). The command rows are written from the match and mask columns of R111. -/

namespace Sys2Proof

/-- One command row of R111: a word is that command when its bits under `mask` are `bits`. -/
structure CmdRow where
  mask : Word
  bits : Word
deriving DecidableEq, Repr

/-- The word is one of the row's words. -/
def CmdRow.matches (r : CmdRow) (w : Word) : Bool := w &&& r.mask == r.bits

/-- The nine command rows of R111, in the table's order. -/
def cmdRows : List CmdRow :=
  [⟨0xFFFFFFFF, 0x00000000⟩, ⟨0xFFFFFFFF, 0x00000010⟩, ⟨0xFFFFFFFF, 0x00000020⟩,
   ⟨0xFFFFFFFE, 0x00000030⟩, ⟨0xFFFFFFFF, 0x00000040⟩, ⟨0xFFFFFFFF, 0x00000050⟩,
   ⟨0xFFFFFFFE, 0x00000060⟩, ⟨0xFFFFFFFE, 0x00000070⟩, ⟨0xFFFFFFFF, 0x00000080⟩]

/-- The word is some command's word. -/
def isCommandWord (w : Word) : Bool := cmdRows.any (·.matches w)

/-- An instruction of the opcode table. -/
def Instr.WellFormed : Instr → Bool
  | .nop => true
  | .initAdc => true
  | .chainClear => true
  | .chainAdvance _ => true
  | .startScan => true
  | .faultClear => true
  | .adcRequest _ => true
  | .adcRead _ => true
  | .handshakeStart => true
  | .illegal w => !isCommandWord w
  | .adcConv _ _ => true
  | .adcSetup _ _ => true
  | .adcNull _ => true

end Sys2Proof
end

