-- ==== Sys2Proof/Decode.lean ====
section
/-! DEFINITION. The decoder of command words (R113) and of wire bytes (R115 to R117), total and rejecting by
name, and the encoder beside them. -/

namespace Sys2Proof

/-- An instruction as bits: a word at CMD, or a byte on the link of one device (30_encoding.md). -/
inductive Encoded where
  | cmd (w : Word)
  | wire (d : Dev) (byte : Byte)
deriving DecidableEq, Repr

/-- Why bits are no instruction: a byte of no row of the opcode table, which the block never sends (R119). Such are also
the bytes of R115's format `1CCCC0DD` with DD other than 00 (DESIGN CHOICE, log 21). Command words are never refused
(R113). -/
inductive DecodeError where
  | notAWireByte (byte : Byte)
deriving DecidableEq, Repr

/-- The device a one-bit operand names: 0 = A, 1 = B (R112). -/
def devOfBit (bit : Bool) : Dev := if bit then .b else .a

/-- The operand bit of a device (R112). -/
def Dev.bit : Dev → Bool
  | .a => false
  | .b => true

/-- `Decode(w)` (R113), with the Illegal words as `illegal w`. -/
def decodeCmd (w : Word) : Instr :=
  let op := w.extractLsb' 4 4
  let arg := w.extractLsb' 0 4
  if w.extractLsb' 8 24 ≠ 0 then .illegal w
  else if op = 0x0 then (if arg = 0 then .nop else .illegal w)
  else if op = 0x1 then (if arg = 0 then .initAdc else .illegal w)
  else if op = 0x2 then (if arg = 0 then .chainClear else .illegal w)
  else if op = 0x3 then (if arg.extractLsb' 1 3 = 0 then .chainAdvance (arg.getLsbD 0) else .illegal w)
  else if op = 0x4 then (if arg = 0 then .startScan else .illegal w)
  else if op = 0x5 then (if arg = 0 then .faultClear else .illegal w)
  else if op = 0x6 then (if arg.extractLsb' 1 3 = 0 then .adcRequest (devOfBit (arg.getLsbD 0)) else .illegal w)
  else if op = 0x7 then (if arg.extractLsb' 1 3 = 0 then .adcRead (devOfBit (arg.getLsbD 0)) else .illegal w)
  else if op = 0x8 then (if arg = 0 then .handshakeStart else .illegal w)
  else .illegal w

/-- A byte on the link of device `d`: `1CCCC000` (R115), `01XXXXXX` (R116) or the null byte (R117). The fields CCCC
and X are read as they stand, also with values this build's block never sends, which are CCCC other than
CHANNELS_PER_ADC - 1 and X other than SETUP_LOW6 (DESIGN CHOICE, log 19). A byte of R115's format `1CCCC0DD` with DD other
than 00, as 0x81, is refused with those of no format: the opcode table's row fixes bits 2..0 at 000, and the spec does not
say what becomes of it (DESIGN CHOICE, log 21). -/
def decodeWire (d : Dev) (byte : Byte) : Except DecodeError Instr :=
  if byte.getLsbD 7 ∧ byte.extractLsb' 0 3 = 0 then .ok (.adcConv d (byte.extractLsb' 3 4))
  else if byte.extractLsb' 6 2 = 0b01 then .ok (.adcSetup d (byte.extractLsb' 0 6))
  else if byte = 0 then .ok (.adcNull d)
  else .error (.notAWireByte byte)

/-- The decoder, total on every word and every byte. -/
def decode : Encoded → Except DecodeError Instr
  | .cmd w => .ok (decodeCmd w)
  | .wire d byte => decodeWire d byte

/-- The conversion-request byte with the given CCCC field, bits 2..0 zero (R115). -/
def convByte (cccc : BitVec 4) : Byte := 0b1#1 ++ cccc ++ 0b000#3

/-- The setup byte with the given low six bits (R116). -/
def setupByte (x : BitVec 6) : Byte := 0b01#2 ++ x

/-- The read filler byte (R117). -/
def nullByte : Byte := 0x00

/-- A command word with operation `op` and the one-bit operand `bit` (R110, R112). -/
def cmdWord (op : BitVec 4) (bit : Bool) : Word := 0#24 ++ op ++ 0#3 ++ BitVec.ofBool bit

/-- The bits of an instruction, from the same tables as the decoder. -/
def encode : Instr → Encoded
  | .nop => .cmd (cmdWord 0x0 false)
  | .initAdc => .cmd (cmdWord 0x1 false)
  | .chainClear => .cmd (cmdWord 0x2 false)
  | .chainAdvance b => .cmd (cmdWord 0x3 b)
  | .startScan => .cmd (cmdWord 0x4 false)
  | .faultClear => .cmd (cmdWord 0x5 false)
  | .adcRequest d => .cmd (cmdWord 0x6 d.bit)
  | .adcRead d => .cmd (cmdWord 0x7 d.bit)
  | .handshakeStart => .cmd (cmdWord 0x8 false)
  | .illegal w => .cmd w
  | .adcConv d cccc => .wire d (convByte cccc)
  | .adcSetup d x => .wire d (setupByte x)
  | .adcNull d => .wire d nullByte

/-- The instruction read from a table row's bits: 32 bits are a command word, 8 bits are a byte on the link of
device A (a wire byte does not say its device; log 9). -/
def decodeTableWord (nbits w : Nat) : Option Instr :=
  if nbits = 32 then some (decodeCmd (BitVec.ofNat 32 w))
  else if nbits = 8 then (decodeWire .a (BitVec.ofNat 8 w)).toOption
  else none

/-- The word of a command instruction; the wire rows have none. -/
def Instr.cmdWord? (i : Instr) : Option Word :=
  match encode i with
  | .cmd w => some w
  | .wire _ _ => none

end Sys2Proof
end

