-- ==== Sys2Proof/Machine/Params.lean ====
section
/-! DEFINITION. The parameters of a build (R6 to R11): plain data whose accessors give only values inside the
ranges the spec allows, so that no premise about ranges is needed anywhere. DESIGN CHOICE, log 2, log 4. -/

namespace Sys2Proof.Machine

/-- The parameters of 00_scope.md. COL_HEIGHT and CHANNELS_PER_ADC are held as the last
index, as the 6-bit column index (R34) and the 4-bit CCCC field (R142) hold them. -/
structure Params where
  /-- COL_HEIGHT - 1 (R6). -/
  lastCol : BitVec 6
  /-- CHANNELS_PER_ADC - 1, the CCCC field of the request byte (R7, R115). -/
  lastChan : BitVec 4
  /-- Q_CAP, raised to 2 * COL_HEIGHT where it is smaller (R10). -/
  qCapRaw : BitVec 16
  /-- SETUP_LOW6 (R116). -/
  setupLow6 : BitVec 6
  /-- TIMEOUT_RESET, 0 standing for 1 because it must be nonzero (R45). -/
  timeoutRaw : Word
  /-- CLR_POL_RESET (R44). -/
  clrPolReset : Bool
  /-- BASE, the bus address of register offset 0 (R81, I9). -/
  base : Nat
  /-- TICK_PERIOD in units of the platform's choice, 0 standing for 1 because time passes between ticks (R321, I11). -/
  tickPeriodRaw : Nat
  /-- T_SR_PULSE in units of the platform's choice, 0 standing for 1 because it is "not zero-duration" (R176, I14). -/
  srPulseRaw : Nat
  /-- CS_ACTIVE_LOW: an asserted chip-select is electrically low (R57, I15). -/
  csActiveLow : Bool
deriving DecidableEq, Repr

/-- COL_HEIGHT, 1 to 64 (R6). -/
def Params.colHeight (p : Params) : Nat := p.lastCol.toNat + 1

/-- CHANNELS_PER_ADC, 1 to 16 (R7). -/
def Params.channels (p : Params) : Nat := p.lastChan.toNat + 1

/-- ROW_WIDTH (R7). -/
def Params.rowWidth (p : Params) : Nat := 2 * p.channels

/-- ADC_RESPONSE_LENGTH (R8). -/
def Params.responseLength (p : Params) : Nat := 2 * p.channels

/-- FRAME_BYTES (R9). -/
def Params.frameBytes (p : Params) : Nat := p.colHeight * p.rowWidth

/-- Q_CAP, 2 * COL_HEIGHT to 65535 (R10). -/
def Params.qCap (p : Params) : Nat := max (2 * p.colHeight) p.qCapRaw.toNat

/-- TIMEOUT_RESET, never 0 (R45). -/
def Params.timeoutReset (p : Params) : Word := if p.timeoutRaw = 0 then 1 else p.timeoutRaw

/-- TICK_PERIOD, never 0 (R11, R321). -/
def Params.tickPeriod (p : Params) : Nat := max 1 p.tickPeriodRaw

/-- T_SR_PULSE, the least width of a shift-clock pulse, never 0 (R11, R176). -/
def Params.srPulse (p : Params) : Nat := max 1 p.srPulseRaw

/-- The bus address of a register offset (R81). The block decodes only the offset. -/
def Params.busAddress (p : Params) (off : BitVec 13) : Nat := p.base + off.toNat

/-- The TIMEOUT value for a timeout of `t`, `ceil(t / TICK_PERIOD)` (R321). -/
def Params.ticksFor (p : Params) (t : Nat) : Nat := (t + p.tickPeriod - 1) / p.tickPeriod

/-- The electrical level of a chip-select line, `true` = high (R57). -/
def Params.csLevel (p : Params) (asserted : Bool) : Bool := asserted ^^ p.csActiveLow

/-- PARAM: COL_HEIGHT in bits 7..0, CHANNELS_PER_ADC in 15..8, Q_CAP in 31..16 (R52). -/
def Params.word (p : Params) : Word :=
  BitVec.ofNat 16 p.qCap ++ BitVec.ofNat 8 p.channels ++ BitVec.ofNat 8 p.colHeight

end Sys2Proof.Machine
end

