-- ==== Sys2Proof/Machine/Turn.lean ====
section
/-! DEFINITION. The steps of the agents, as data (R13): a turn says which agent moves next and what it does.
The lines of R123 are turns. -/

namespace Sys2Proof.Machine

/-- The two bus masters (R13); no rule tells them apart (R320). -/
inductive MasterId where
  | ctrl
  | cons
deriving DecidableEq, Repr, Inhabited

/-- What a bus access does: MemRead or MemWrite (R19). -/
inductive BusOp where
  | read
  | write (v : Word)
deriving DecidableEq, Repr, Inhabited

/-- One bus access: a 13-bit byte offset from BASE (R81), the width in bytes (only 4 is legal, R82), and the operation. -/
structure BusAccess where
  off : BitVec 13
  bytes : Nat
  op : BusOp
deriving DecidableEq, Repr, Inhabited

/-- The steps of the block's own sequencer SEQ (R13). -/
inductive SeqStep where
  | issue
  | service (d : Dev)
  | handoff
  | hsSend
  | hsCheck
deriving DecidableEq, Repr, Inhabited

/-- One turn of one agent (R12, R13). -/
inductive Turn where
  /-- Master `m` issues the access behind those it still waits on, then tries its oldest one. -/
  | access (m : MasterId) (acc : BusAccess)
  /-- Master `m` tries its oldest waiting access again (R24). -/
  | retry (m : MasterId)
  /-- SEQ takes the step if it is enabled. -/
  | seq (k : SeqStep)
  /-- EOC_DRIVE(dev, level), `true` = high (R151). -/
  | eocDrive (d : Dev) (level : Bool)
  /-- The line `adc d returns [..]` of R123: the bytes ADC d will answer at its next read transaction. -/
  | adcReturns (d : Dev) (bytes : List Byte)
  /-- TICK (R209). -/
  | tick
  /-- PINS drives LINK_READY (R13). -/
  | linkReady (level : Bool)
  /-- PINS drives SR_OUT (R13). -/
  | srOut (level : Bool)
  /-- RESET (R340). -/
  | reset
deriving DecidableEq, Repr, Inhabited

end Sys2Proof.Machine
end

