-- ==== Sys2Proof/Config.lean ====
section
/-! DEFINITION. What a build fixes and what the environment draws: constants with no body, so that no proof can
see their values (93_implementation_defined.md I1 to I15). -/

namespace Sys2Proof

/-- SETUP_LOW6, an OPEN parameter (R116, I12). -/
opaque Config.setupLow6 : BitVec 6

/-- TIMEOUT_RESET, an OPEN parameter; `Params.timeoutReset` keeps it nonzero (R45, I10). -/
opaque Config.timeoutRaw : Word

/-- CLR_POL_RESET, an OPEN parameter (R44, I13). -/
opaque Config.clrPolReset : Bool

/-- BASE, an OPEN parameter (R81, I9). -/
opaque Config.base : Nat

/-- TICK_PERIOD, an OPEN parameter; no step reads it (R321, I11). -/
opaque Config.tickPeriodRaw : Nat

/-- T_SR_PULSE, an OPEN parameter; no step reads it (R176, I14). -/
opaque Config.srPulseRaw : Nat

/-- CS_ACTIVE_LOW, an OPEN parameter; no step reads it (R57, I15). -/
opaque Config.csActiveLow : Bool

/-- The EOC levels the ADCs drive right after RESET: inputs, any value (R37, I6; log 5). -/
opaque Config.eocAtReset : Dev → Bool

/-- The level of LINK_READY right after RESET: an input, any value (R60, I6; log 5). -/
opaque Config.linkReadyAtReset : Bool

/-- The level of SR_OUT right after RESET: an input, any value (R60, I6; log 5). -/
opaque Config.srOutAtReset : Bool

/-- The byte an ADC answers where nothing was placed for it, by the number of the draw (R20, I3, I4; log 7). -/
opaque Config.adcByte : Dev → Nat → Byte

/-- Byte `k` of the row buffer after the `n`-th RESET until it is written (R342, I1; log 6). -/
opaque Config.rowbufByte : Nat → Nat → Byte

/-- Byte `k` of the frame after the `n`-th RESET until it is written (R342, I1; log 6). -/
opaque Config.frameByte : Nat → Nat → Byte

/-- Byte `k` of the consumer latch after the `n`-th RESET until a pop (R342, I1; log 6). -/
opaque Config.qoutByte : Nat → Nat → Byte

/-- The turn taken where the schedule names none, by the number of the draw: any agent, any step (R12, I8; log 1). -/
opaque Config.freeTurn : Nat → Machine.Turn

/-- The reference geometry (COL_HEIGHT 56, CHANNELS_PER_ADC 14, Q_CAP 112: R6, R7, R10) with the OPEN parameters. -/
def Config.params : Machine.Params where
  lastCol := 55
  lastChan := 13
  qCapRaw := 112
  setupLow6 := Config.setupLow6
  timeoutRaw := Config.timeoutRaw
  clrPolReset := Config.clrPolReset
  base := Config.base
  tickPeriodRaw := Config.tickPeriodRaw
  srPulseRaw := Config.srPulseRaw
  csActiveLow := Config.csActiveLow

end Sys2Proof
end

