-- ==== Sys2Proof/Machine/State.lean ====
section
/-! DEFINITION. The state of the block as plain data, its value after reset, and the reasons a step can stop. -/

namespace Sys2Proof.Machine

/-- Bytes by index, indexes strictly rising; an index that is not listed has no value (log 6). -/
abbrev Memory := List Host.Cell

/-- The canonical form of a memory: indexes strictly rising. Every byte may be listed, because an unlisted index
has no value that an entry could repeat. -/
def Memory.wf : Memory → Bool
  | [] => true
  | [_] => true
  | c :: c' :: m => decide (c.1 < c'.1) && Memory.wf (c' :: m)

/-- `s.state` (R32). -/
inductive ScanState where
  | idle
  | scanning
  | done
  | fault
deriving DecidableEq, Repr

/-- `s.phase` (R33). -/
inductive Phase where
  | issue
  | wait
  | handoff
deriving DecidableEq, Repr

/-- `s.hs_state` (R55). -/
inductive HsState where
  | idle
  | send
  | wait
  | done
deriving DecidableEq, Repr

/-- The four writable bits of CONFIG (R44); the reserved bits have no storage. -/
structure Cfg where
  /-- MODE: false FRAME, true QUEUE. -/
  mode : Bool
  /-- EOC_MODE: false LEVEL, true EDGE. -/
  eocMode : Bool
  /-- WIRING: false DUAL, true SHARED. -/
  wiring : Bool
  /-- CLR_POL: false clear line asserted high, true asserted low. -/
  clrPol : Bool
deriving DecidableEq, Repr

/-- One entry of the inter-core queue: a copied payload and its tag (R42, R120). -/
structure Entry where
  payload : List Byte
  tag : Word
deriving DecidableEq, Repr

/-- One channel of the mailbox (R53). -/
structure Mailbox where
  valid : Bool
  data : Word
deriving DecidableEq, Repr

/-- An event of `s.hist` (R58). -/
inductive Event where
  | xfer (d : Dev) (tx rx : List Byte)
  | clr
  | shift (b : Bool)
deriving DecidableEq, Repr

/-- The link a data byte travels on: the device's own with WIRING = DUAL, one for both with SHARED (R140). -/
inductive Lane where
  | own (d : Dev)
  | shared
deriving DecidableEq, Repr

/-- What the block drives on its output pins (R57, R176), in order. The MODEL's own record (log 10). -/
inductive PinEvent where
  /-- CS[dev] becomes asserted (`true`) or deasserted. -/
  | cs (d : Dev) (asserted : Bool)
  /-- One byte on the data-out of a link. -/
  | data (lane : Lane) (byte : Byte)
  /-- The chain's clear line is driven to a level. -/
  | clear (level : Bool)
  /-- A bit is presented on the chain's serial input. -/
  | serialIn (b : Bool)
  /-- One pulse of the chain's shift clock. -/
  | clockPulse
deriving DecidableEq, Repr

/-- A bus master as the block meets it. The MODEL's own (log 8). -/
structure BusMaster where
  /-- Accesses issued and not completed yet, the oldest first. -/
  waiting : List BusAccess
  /-- The values its reads returned, in order. -/
  returned : List Word
deriving DecidableEq, Repr

/-- Every piece of state the spec gives the block (R32 to R58), its parameters, and the environment's data.
INVENTORY.md lists each field with its rule. -/
structure State where
  /-- The parameters of the build; no step writes them (log 2). -/
  params : Params
  state : ScanState
  phase : Phase
  col : BitVec 6
  pend : PerAdc Bool
  edge : PerAdc Bool
  /-- Input levels of EOC[A], EOC[B], `true` = high (R37). -/
  eoc : PerAdc Bool
  cnt : PerAdc Word
  /-- `s.chain`, COL_HEIGHT bits held in 64 (R39; log 13). -/
  chain : BitVec 64
  rowbuf : Memory
  frame : Memory
  q : List Entry
  qout : Memory
  /-- ERR bits 7..0; bits 31..8 are never set (R43). -/
  err : BitVec 8
  config : Cfg
  timeout : Word
  /-- The FAULT register (R49). -/
  faultReg : Word
  hsVec : Word
  hsSp : Word
  hsEntry : Word
  hsState : HsState
  hsIdx : BitVec 2
  mbTx : Mailbox
  mbRx : Mailbox
  /-- CS[A], CS[B], `true` = asserted (R57). -/
  cs : PerAdc Bool
  /-- Input level of LINK_READY (R57). -/
  linkReady : Bool
  /-- Input level of SR_OUT (R173). -/
  srOut : Bool
  hist : List Event
  /-- MODEL's own: the output pins driven since the last RESET (log 10). -/
  pins : List PinEvent
  /-- MODEL's own: the acquisition core as a bus master (log 8). -/
  ctrl : BusMaster
  /-- MODEL's own: the transmission core as a bus master (log 8). -/
  cons : BusMaster
  /-- MODEL's own: what each ADC answers at its next read transactions (log 7). -/
  answers : PerAdc (List (List Byte))
  /-- MODEL's own: which agents move next (log 1). -/
  turns : List Turn
  /-- MODEL's own: a link byte placed from outside, for the wire rows of the opcode table (log 9). -/
  linkPort : Option (Dev × Byte)
  /-- MODEL's own: how many RESET steps were taken (log 6). -/
  epoch : Nat
  /-- MODEL's own: how many free values were drawn (log 7). -/
  draws : Nat
deriving DecidableEq, Repr

/-- Why the machine stops with a fault: there is no such reason. Errors are sticky bits, scan faults are a state and
stalls are waits (R300, R16), so no step of the block is a machine fault (log 16). -/
inductive Fault where
deriving DecidableEq, Repr

/-- Why a step is refused. -/
inductive Refusal where
  /-- Raised by an arm of `exec` whose instruction has no meaning yet; none is left. Safe. -/
  | notModelled (mnemonic : String)
  /-- Raised by `step` where `linkPort` holds a byte of no row of the opcode table: of none of the three formats (R115 to
  R117, R119), or of R115's format `1CCCC0DD` with DD other than 00, which the block never sends (DESIGN CHOICE, log 21).
  No step puts a byte there, so no run from reset meets it. Safe. -/
  | notAWireByte (byte : Byte)
deriving DecidableEq, Repr

/-- The machine right after RESET with the reference geometry (R60, R340). -/
def State.reset : State where
  params := Config.params
  state := .idle
  phase := .issue
  col := 0
  pend := ⟨false, false⟩
  edge := ⟨false, false⟩
  eoc := ⟨Config.eocAtReset .a, Config.eocAtReset .b⟩
  cnt := ⟨0, 0⟩
  chain := 0
  rowbuf := []
  frame := []
  q := []
  qout := []
  err := 0
  config := ⟨true, true, false, Config.params.clrPolReset⟩
  timeout := Config.params.timeoutReset
  faultReg := 0
  hsVec := 0
  hsSp := 0
  hsEntry := 0
  hsState := .idle
  hsIdx := 0
  mbTx := ⟨false, 0⟩
  mbRx := ⟨false, 0⟩
  cs := ⟨false, false⟩
  linkReady := Config.linkReadyAtReset
  srOut := Config.srOutAtReset
  hist := []
  pins := [.clear (!Config.params.clrPolReset), .clear Config.params.clrPolReset]
  ctrl := ⟨[], []⟩
  cons := ⟨[], []⟩
  answers := ⟨[], []⟩
  turns := []
  linkPort := none
  epoch := 0
  draws := 0

end Sys2Proof.Machine
end

