-- ==== Sys2Proof/Machine/Flags.lean ====
section
/-! DEFINITION. Every flag: the ERR bits (R43), the CONFIG bits (R44) and the computed bits of STATUS (R46). -/

namespace Sys2Proof.Machine

/-- The error bits of ERR (R43); their codes are their bit numbers (R301). -/
inductive ErrBit where
  | illegalCmd
  | stateReject
  | multiHot
  | spuriousEoc
  | mbDrop
  | timeoutA
  | timeoutB
  | badAccess
deriving DecidableEq, Repr

/-- The bit of ERR an error sets (R43, R301). -/
def ErrBit.mask : ErrBit → BitVec 8
  | .illegalCmd => 0x01
  | .stateReject => 0x02
  | .multiHot => 0x04
  | .spuriousEoc => 0x08
  | .mbDrop => 0x10
  | .timeoutA => 0x20
  | .timeoutB => 0x40
  | .badAccess => 0x80

/-- `ERR.e <- 1`: the bit is sticky, the others stay (R43). As the last act of a refused step this is
`raise CmdError(e)`, applied to the state the step started from (R22). -/
def State.setErr (s : State) (e : ErrBit) : State := { s with err := s.err ||| e.mask }

/-- The TIMEOUT error bit of an ADC (R43). -/
def timeoutBit : Dev → ErrBit
  | .a => .timeoutA
  | .b => .timeoutB

/-- A bus write of ERR: write 1 to clear, bits 31..8 ignored (R275). -/
def State.clearErr (s : State) (v : Word) : State := { s with err := s.err &&& ~~~(v.setWidth 8) }

/-- ERR as the bus reads it: bits 31..8 read 0 (R43). -/
def State.errWord (s : State) : Word := s.err.setWidth 32

/-- CONFIG as the bus reads it: bits 31..4 read 0 (R44). -/
def Cfg.word (c : Cfg) : Word :=
  0#28 ++ BitVec.ofBool c.clrPol ++ BitVec.ofBool c.wiring ++ BitVec.ofBool c.eocMode ++ BitVec.ofBool c.mode

/-- The CONFIG a bus write leaves: bits 31..4 ignored (R276, R86). -/
def Cfg.ofWord (v : Word) : Cfg := ⟨v.getLsbD 0, v.getLsbD 1, v.getLsbD 2, v.getLsbD 3⟩

/-- The code of `s.state` (R32). -/
def ScanState.code : ScanState → BitVec 2
  | .idle => 0
  | .scanning => 1
  | .done => 2
  | .fault => 3

/-- The code of `s.phase` (R33). -/
def Phase.code : Phase → BitVec 2
  | .issue => 0
  | .wait => 1
  | .handoff => 2

/-- The code of `s.hs_state` (R55). -/
def HsState.code : HsState → BitVec 2
  | .idle => 0
  | .send => 1
  | .wait => 2
  | .done => 3

/-- STATUS.SCAN_ACTIVE (R46, R99). -/
def State.scanActive (s : State) : Bool := s.state == .scanning

/-- STATUS.Q_EMPTY (R46). -/
def State.qEmpty (s : State) : Bool := s.q.length == 0

/-- STATUS.Q_FULL (R46). -/
def State.qFull (s : State) : Bool := s.q.length == s.params.qCap

/-- STATUS.HANDOFF_STALL (R46, R204). -/
def State.handoffStall (s : State) : Bool :=
  s.state == .scanning && s.phase == .handoff && s.config.mode && s.qFull

/-- STATUS, every bit computed at the read, the fields of R46 from bit 31 down to bit 0. -/
def State.statusWord (s : State) : Word :=
  0#10 ++ BitVec.ofBool s.edge.b ++ BitVec.ofBool s.edge.a ++ BitVec.ofBool s.linkReady ++ BitVec.ofBool s.srOut ++
    BitVec.ofBool s.mbRx.valid ++ BitVec.ofBool s.mbTx.valid ++ s.hsIdx ++ s.hsState.code ++
    BitVec.ofBool s.handoffStall ++ BitVec.ofBool s.qFull ++ BitVec.ofBool s.qEmpty ++ BitVec.ofBool s.eoc.b ++
    BitVec.ofBool s.eoc.a ++ BitVec.ofBool s.pend.b ++ BitVec.ofBool s.pend.a ++ s.phase.code ++
    BitVec.ofBool s.scanActive ++ s.state.code

end Sys2Proof.Machine
end

