-- ==== Sys2Proof/Machine/Ops.lean ====
section
/-! DEFINITION. The shared operations: memory, the link (R20), the column chain (R21, R170), entering and leaving
the FAULT state (R306, R271), and RESET (R340). -/

namespace Sys2Proof.Machine

/-! ## Memory -/

/-- The byte at an index, if one was written. -/
def Memory.find : Memory → Nat → Option Byte
  | [], _ => none
  | c :: m, k => if c.1 = k then some c.2 else Memory.find m k

/-- `m[k] <- v`, kept in the canonical form. -/
def Memory.put : Memory → Nat → Byte → Memory
  | [], k, v => [(k, v)]
  | c :: m, k, v =>
    if k < c.1 then (k, v) :: c :: m
    else if k = c.1 then (k, v) :: m
    else c :: Memory.put m k v

/-- `m[base + j] <- bytes[j]` for every j. -/
def Memory.putBytes : Memory → Nat → List Byte → Memory
  | m, _, [] => m
  | m, base, v :: vs => Memory.putBytes (m.put base v) (base + 1) vs

/-- `s.rowbuf[k]`: the byte written last, or the value drawn at RESET (R40, R342). -/
def State.rowbufAt (s : State) (k : Nat) : Byte := (s.rowbuf.find k).getD (Config.rowbufByte s.epoch k)

/-- `s.frame[k]` (R41, R342). -/
def State.frameAt (s : State) (k : Nat) : Byte := (s.frame.find k).getD (Config.frameByte s.epoch k)

/-- `s.qout[k]` (R54, R342). -/
def State.qoutAt (s : State) (k : Nat) : Byte := (s.qout.find k).getD (Config.qoutByte s.epoch k)

/-- A copy of the row buffer's ROW_WIDTH bytes (R97). -/
def State.rowBytes (s : State) : List Byte := (List.range s.params.rowWidth).map s.rowbufAt

/-! ## The link -/

/-- The link device `d` is on: its own with WIRING = DUAL, the shared one with SHARED (R140). -/
def State.lane (s : State) (d : Dev) : Lane := if s.config.wiring then .shared else .own d

/-- What a transaction drives: CS asserted, the bytes in list order, CS deasserted (R20, R91). -/
def State.framePins (s : State) (d : Dev) (tx : List Byte) : List PinEvent :=
  [.cs d true] ++ tx.map (.data (s.lane d)) ++ [.cs d false]

/-- The bytes ADC `d` answers: those placed for this transaction, else a draw (R20, I3, I4; log 7). -/
def State.answerBytes (s : State) (d : Dev) (placed : List Byte) (n : Nat) : List Byte :=
  (List.range n).map fun i => placed.getD i (Config.adcByte d (s.draws + i))

/-- `LinkXfer(d, tx)`: assert CS, send the bytes, receive one for each, deassert CS, append the event (R20).
`placed` are the bytes the environment has ready for it. The result is the new state and `rx`. -/
def State.linkXfer (s : State) (d : Dev) (tx placed : List Byte) : State × List Byte :=
  let rx := s.answerBytes d placed tx.length
  ({ s with
    cs := (s.cs.set d true).set d false
    pins := s.pins ++ s.framePins d tx
    hist := s.hist ++ [.xfer d tx rx]
    draws := s.draws + tx.length }, rx)

/-! ## The column chain -/

/-- `trunc_COL_HEIGHT(v)` (R170). -/
def truncCols (p : Params) (v : BitVec 64) : BitVec 64 := (v.setWidth p.colHeight).setWidth 64

/-- The asserted level of the clear line: high with CLR_POL = 0, low with CLR_POL = 1 (R176). -/
def Cfg.clearAsserted (c : Cfg) : Bool := !c.clrPol

/-- The chain's outputs become `chain`, the event is recorded and the pins are driven (R21). -/
def State.driveChain (s : State) (chain : BitVec 64) (e : Event) (ps : List PinEvent) : State :=
  { s with chain := chain, hist := s.hist ++ [e], pins := s.pins ++ ps }

/-- `ChainClear()`: the clear line to its asserted level and back, every output 0 (R21, R170, R176). -/
def State.chainClear (s : State) : State :=
  s.driveChain 0 .clr [.clear s.config.clearAsserted, .clear (!s.config.clearAsserted)]

/-- `ChainShift(b)`: b on the serial input, one clock pulse, stage i takes stage i-1 (R21, R170, R176). -/
def State.chainShift (s : State) (b : Bool) : State :=
  s.driveChain (truncCols s.params ((s.chain <<< 1) ||| (BitVec.ofBool b).setWidth 64)) (.shift b)
    [.serialIn b, .clockPulse]

/-! ## Entering and leaving FAULT -/

/-- The cause codes of a scan fault (R302). -/
def timeoutCause : Dev → BitVec 4
  | .a => 1
  | .b => 2

/-- FAULT as a scan fault records it: CAUSE, FCOL, FPEND_A, FPEND_B, other bits 0 (R49, R306). -/
def State.faultWord (s : State) (cause : BitVec 4) : Word :=
  0#14 ++ BitVec.ofBool s.pend.b ++ BitVec.ofBool s.pend.a ++ 0#2 ++ s.col ++ 0#4 ++ cause

/-- `raise ScanFault(cause)`: record, enter FAULT, drop the pending flags, edges and counters; ERR keeps what the
step set before (R306). -/
def State.scanFault (s : State) (cause : BitVec 4) : State :=
  { s with
    faultReg := s.faultWord cause
    state := .fault
    phase := .issue
    pend := .both false
    edge := .both false
    cnt := .both 0 }

/-- The way out of FAULT that keeps the block running (R271, R308): ERR, the chain and the data stores stay. -/
def State.leaveFault (s : State) : State :=
  { s with faultReg := 0, col := 0, phase := .issue, state := .idle }

/-! ## RESET -/

/-- RESET (R340): CONFIG, then the clear pulse with CLR_POL_RESET, then every other piece of the block's state as
R60 says, the history emptied. The inputs keep their levels, the masters what they wait on, and the unwritten
bytes are drawn anew (R342). -/
def State.resetStep (s : State) : State :=
  let c : Cfg := ⟨true, true, false, s.params.clrPolReset⟩
  { s with
    state := .idle
    phase := .issue
    col := 0
    pend := .both false
    edge := .both false
    cnt := .both 0
    chain := 0
    rowbuf := []
    frame := []
    q := []
    qout := []
    err := 0
    config := c
    timeout := s.params.timeoutReset
    faultReg := 0
    hsVec := 0
    hsSp := 0
    hsEntry := 0
    hsState := .idle
    hsIdx := 0
    mbTx := ⟨false, 0⟩
    mbRx := ⟨false, 0⟩
    cs := .both false
    hist := []
    pins := [.clear c.clearAsserted, .clear (!c.clearAsserted)]
    epoch := s.epoch + 1 }

/-! ## The bus masters -/

/-- The bus master `m`. -/
def State.master (s : State) : MasterId → BusMaster
  | .ctrl => s.ctrl
  | .cons => s.cons

/-- Replace the bus master `m`. -/
def State.setMaster (s : State) (m : MasterId) (v : BusMaster) : State :=
  match m with
  | .ctrl => { s with ctrl := v }
  | .cons => { s with cons := v }

/-- The accesses `m` waits on become `w`. -/
def State.setWaiting (s : State) (m : MasterId) (w : List BusAccess) : State :=
  s.setMaster m { s.master m with waiting := w }

/-- A read of `m` returned `v`. -/
def State.pushReturned (s : State) (m : MasterId) (v : Word) : State :=
  s.setMaster m { s.master m with returned := (s.master m).returned ++ [v] }

end Sys2Proof.Machine
end

