-- ==== Sys2Proof/Machine/Operands.lean ====
section
/-! DEFINITION. What a bus access names: the register map (R59), the legality of an access (R82, R84) and the
packing of the data windows (R83). The commands' own operands are fields of the word (Decode.lean, R112). -/

namespace Sys2Proof.Machine

/-- A register of the map of R59, or word `k` of a window. -/
inductive Reg where
  | cmd
  | status
  | err
  | config
  | timeout
  | col
  | chain0
  | chain1
  | fault
  | qcount
  | hsVec
  | hsSp
  | hsEntry
  | param
  | mbTx
  | mbRx
  | qtag
  | rowbuf (k : Nat)
  | qout (k : Nat)
  | frame (k : Nat)
deriving DecidableEq, Repr

/-- The single registers of R59 at their offsets. -/
def regTable : List (Nat × Reg) :=
  [(0x000, .cmd), (0x004, .status), (0x008, .err), (0x00C, .config), (0x010, .timeout), (0x014, .col),
   (0x018, .chain0), (0x01C, .chain1), (0x020, .fault), (0x024, .qcount), (0x028, .hsVec), (0x02C, .hsSp),
   (0x030, .hsEntry), (0x034, .param), (0x038, .mbTx), (0x03C, .mbRx), (0x040, .qtag)]

/-- The number of words of a window over `len` bytes, `ceil(len / 4)` (R54, R56). -/
def windowWords (len : Nat) : Nat := (len + 3) / 4

/-- The window word an aligned offset names (R54, R56): ROWBUF at 0x080, QOUT at 0x0C0, FRAME at 0x1000. -/
def windowAt (p : Params) (off : Nat) : Option Reg :=
  if 0x080 ≤ off ∧ off < 0x080 + 4 * windowWords p.rowWidth then some (.rowbuf ((off - 0x080) / 4))
  else if 0x0C0 ≤ off ∧ off < 0x0C0 + 4 * windowWords p.rowWidth then some (.qout ((off - 0x0C0) / 4))
  else if 0x1000 ≤ off ∧ off < 0x1000 + 4 * windowWords p.frameBytes then some (.frame ((off - 0x1000) / 4))
  else none

/-- What an aligned offset names; none where it is unmapped (R59). -/
def regAt (p : Params) (off : Nat) : Option Reg :=
  match regTable.lookup off with
  | some r => some r
  | none => windowAt p off

/-- The register an access names; none where its width is not 32 bits, its offset is not a multiple of 4, or the
offset is unmapped (R82, R84). -/
def BusAccess.target (p : Params) (acc : BusAccess) : Option Reg :=
  if acc.bytes = 4 ∧ acc.off.toNat % 4 = 0 then regAt p acc.off.toNat else none

/-- The byte offset of a register from BASE (R59). -/
def Reg.offset : Reg → BitVec 13
  | .cmd => 0x000
  | .status => 0x004
  | .err => 0x008
  | .config => 0x00C
  | .timeout => 0x010
  | .col => 0x014
  | .chain0 => 0x018
  | .chain1 => 0x01C
  | .fault => 0x020
  | .qcount => 0x024
  | .hsVec => 0x028
  | .hsSp => 0x02C
  | .hsEntry => 0x030
  | .param => 0x034
  | .mbTx => 0x038
  | .mbRx => 0x03C
  | .qtag => 0x040
  | .rowbuf k => BitVec.ofNat 13 (0x080 + 4 * k)
  | .qout k => BitVec.ofNat 13 (0x0C0 + 4 * k)
  | .frame k => BitVec.ofNat 13 (0x1000 + 4 * k)

/-- Byte `j` of an array of `len` bytes as a window shows it: 0 at or past the end (R83). -/
def windowByte (arr : Nat → Byte) (len j : Nat) : Byte := if j < len then arr j else 0

/-- `WindowRead(arr, len, k)`: little-endian (R83). -/
def windowRead (arr : Nat → Byte) (len k : Nat) : Word :=
  windowByte arr len (4 * k + 3) ++ windowByte arr len (4 * k + 2) ++ windowByte arr len (4 * k + 1) ++
    windowByte arr len (4 * k)

end Sys2Proof.Machine
end

