-- ==== Sys2Proof/Machine/Adc.lean ====
section
/-! DEFINITION. The ADC channel driver (40_adc_driver.md): request and read-back transactions, EOC edges, the
commands INIT_ADC, ADC_REQUEST and ADC_READ, and the three wire bytes as transactions of their own (R119). -/

namespace Sys2Proof.Machine

/-- STATE in IDLE or DONE, the states that accept most commands (R273, R207). -/
def State.idleOrDone (s : State) : Bool := s.state == .idle || s.state == .done

/-- `ReqByte(N)` (R141). -/
def reqByte (n : Nat) : Byte := BitVec.ofNat 8 (0b1000_0000 ||| ((n - 1) <<< 3))

/-- `Deint(hi, lo)`: the low nibble of hi above the high nibble of lo (R25, R145; C1). -/
def deint (hi lo : Byte) : Byte := (hi <<< 4) ||| (lo >>> 4)

/-- The samples of a response: sample j from the received bytes 2j and 2j+1 (R143, R144). -/
def deintAll : List Byte → List Byte
  | hi :: lo :: rest => deint hi lo :: deintAll rest
  | _ => []

/-- `RequestConversion(d)`; the received byte is discarded (R141). -/
def State.requestConversion (s : State) (d : Dev) : State := (s.linkXfer d [reqByte s.params.channels] []).1

/-- The read transaction of R143: ADC_RESPONSE_LENGTH null bytes, answered by what the environment placed for it. -/
def State.readTransaction (s : State) (d : Dev) : State × List Byte :=
  let r := s.linkXfer d (List.replicate s.params.responseLength nullByte) ((s.answers.get d).headD [])
  ({ r.1 with answers := r.1.answers.set d (r.1.answers.get d).tail }, r.2)

/-- The first byte of the row buffer half of an ADC (R146). -/
def halfBase (p : Params) (d : Dev) : Nat :=
  match d with
  | .a => 0
  | .b => p.channels

/-- `WriteHalf(d, smp)` (R146). -/
def State.writeHalf (s : State) (d : Dev) (smp : List Byte) : State :=
  { s with rowbuf := s.rowbuf.putBytes (halfBase s.params d) smp }

/-- `WriteHalf(d, ReadConversion(d))` (R143, R146). -/
def State.readIntoHalf (s : State) (d : Dev) : State :=
  let r := s.readTransaction d
  r.1.writeHalf d (deintAll r.2)

/-- The setup transaction of one ADC, skipped silently while the link is not ready (R147). -/
def State.setupDev (s : State) (d : Dev) : State :=
  if s.linkReady then (s.linkXfer d [setupByte s.params.setupLow6] []).1 else s

/-- `FallingEdge(d)` (R152). -/
def State.fallingEdge (s : State) (d : Dev) : State :=
  if s.state = .scanning then
    if s.pend.get d then
      if s.config.eocMode then { s with edge := s.edge.set d true } else s
    else s.setErr .spuriousEoc
  else s

/-- `EOC_DRIVE(d, level)` (R151). -/
def State.eocDrive (s : State) (d : Dev) (level : Bool) : State :=
  let t := { s with eoc := s.eoc.set d level }
  if s.eoc.get d ∧ !level then t.fallingEdge d else t

/-- INIT_ADC: the setup byte to A, then to B (R147). -/
def execInitAdc (s : State) : Host.Outcome State Fault Refusal :=
  .next (if s.idleOrDone then (s.setupDev .a).setupDev .b else s.setErr .stateReject)

/-- ADC_REQUEST d (R148). -/
def execAdcRequest (d : Dev) (s : State) : Host.Outcome State Fault Refusal :=
  .next (if s.idleOrDone then s.requestConversion d else s.setErr .stateReject)

/-- ADC_READ d (R149). -/
def execAdcRead (d : Dev) (s : State) : Host.Outcome State Fault Refusal :=
  .next (if s.idleOrDone then s.readIntoHalf d else s.setErr .stateReject)

/-- ADC_CONV: the request transaction with this byte; the received byte is discarded (R115, R119, R141). The block
itself sends only CCCC = CHANNELS_PER_ADC - 1; a byte placed from outside with another CCCC runs as a transaction too
(DESIGN CHOICE, log 19). -/
def execAdcConv (d : Dev) (cccc : BitVec 4) (s : State) : Host.Outcome State Fault Refusal :=
  .next (s.linkXfer d [convByte cccc] []).1

/-- ADC_SETUP: the setup transaction with this byte; the received byte is discarded (R116, R119, R147). The block
itself sends only X = SETUP_LOW6; a byte placed from outside with another X runs as a transaction too (DESIGN CHOICE,
log 19). -/
def execAdcSetup (d : Dev) (x : BitVec 6) (s : State) : Host.Outcome State Fault Refusal :=
  .next (s.linkXfer d [setupByte x] []).1

/-- ADC_NULL: the read transaction, one null byte for every byte received (R117, R119, R143). What becomes of the
response is the caller's (R149, R201). -/
def execAdcNull (d : Dev) (s : State) : Host.Outcome State Fault Refusal := .next (s.readTransaction d).1

end Sys2Proof.Machine
end

