-- ==== Sys2Proof/Machine/Chain.lean ====
section
/-! DEFINITION. The commands of the column shift chain (41_column_shift.md). -/

namespace Sys2Proof.Machine

/-- CHAIN_CLEAR: refused only during a scan (R171). -/
def execChainClear (s : State) : Host.Outcome State Fault Refusal :=
  .next (if s.state = .scanning then s.setErr .stateReject else s.chainClear)

/-- CHAIN_ADVANCE b: STATE_REJECT, then MULTI_HOT, then the shift (R172, R280). -/
def execChainAdvance (b : Bool) (s : State) : Host.Outcome State Fault Refusal :=
  .next
    (if !s.idleOrDone then s.setErr .stateReject
     else if b ∧ s.chain ≠ 0 then s.setErr .multiHot
     else s.chainShift b)

end Sys2Proof.Machine
end

