-- ==== Sys2Proof/Machine/Transport.lean ====
section
/-! DEFINITION. The row queue, the consumer latch, the mailbox and the core-launch handshake (43_transport.md). -/

namespace Sys2Proof.Machine

/-- `Tag(col)`: the row number, bit 8 set for the last row of a frame (R120, R231). -/
def rowTag (p : Params) (col : BitVec 6) : Word :=
  col.setWidth 32 ||| (if col = p.lastCol then 0x00000100 else 0)

/-- `Push(row, tag)`, a copy of the row (R231, R97). -/
def State.push (s : State) (row : List Byte) (tag : Word) : State := { s with q := s.q ++ [⟨row, tag⟩] }

/-- A QTAG read: pop the head, copy its payload into the latch, return its tag; stalls on an empty queue (R233, R234). -/
def State.popRow (s : State) : Option (Word × State) :=
  match s.q with
  | [] => none
  | e :: rest => some (e.tag, { s with q := rest, qout := Memory.putBytes [] 0 e.payload })

/-- An MB_TX read: empty the channel, return its word; stalls on an empty channel (R239). -/
def State.takeMbTx (s : State) : Option (Word × State) :=
  if s.mbTx.valid then some (s.mbTx.data, { s with mbTx := { s.mbTx with valid := false } }) else none

/-- An MB_RX write: accepted only in HS_WAIT and into an empty channel (R240). -/
def State.putMbRx (s : State) (v : Word) : State :=
  if s.hsState = .wait ∧ !s.mbRx.valid then { s with mbRx := ⟨true, v⟩ } else s.setErr .mbDrop

/-- `hs_seq[hs_idx]` (R51); none for index HS_LEN = 3, where there is no word (log 11). -/
def State.hsWord (s : State) : Option Word :=
  if s.hsIdx = 0 then some s.hsVec
  else if s.hsIdx = 1 then some s.hsSp
  else if s.hsIdx = 2 then some s.hsEntry
  else none

/-- HS_SEND; none where the step is not enabled (R242). -/
def State.hsSend (s : State) : Option State :=
  if s.hsState = .send ∧ !s.mbTx.valid then
    s.hsWord.map fun w => { s with mbTx := ⟨true, w⟩, hsState := .wait }
  else none

/-- The handshake after an echo: advance on the word sent, HS_DONE after the last, else send again (R243). -/
def State.hsEcho (s : State) (sent : Word) : State :=
  let t := { s with mbRx := { s.mbRx with valid := false } }
  if s.mbRx.data = sent then
    { t with hsIdx := t.hsIdx + 1, hsState := if t.hsIdx + 1 = 3 then .done else .send }
  else { t with hsState := .send }

/-- HS_CHECK; none where the step is not enabled (R243). -/
def State.hsCheck (s : State) : Option State :=
  if s.hsState = .wait ∧ s.mbRx.valid then s.hsWord.map s.hsEcho else none

/-- HANDSHAKE_START: once, from HS_IDLE, in any scan state (R241). -/
def execHandshakeStart (s : State) : Host.Outcome State Fault Refusal :=
  .next (if s.hsState = .idle then { s with hsIdx := 0, hsState := .send } else s.setErr .stateReject)

end Sys2Proof.Machine
end

