-- ==== Sys2Proof/Machine/Scan.lean ====
section
/-! DEFINITION. The scan engine: START_SCAN, the sequencer's scan steps and TICK (42_scan_engine.md). -/

namespace Sys2Proof.Machine

/-- `Cond(d)`, the completion condition (R190). -/
def State.cond (s : State) (d : Dev) : Bool :=
  s.pend.get d && (if s.config.eocMode then s.edge.get d else !s.eoc.get d)

/-- START_SCAN: clear, seed, reset the scan cursor, SCANNING (R191). -/
def execStartScan (s : State) : Host.Outcome State Fault Refusal :=
  .next
    (if s.idleOrDone then
      { s.chainClear.chainShift true with
        col := 0
        pend := .both false
        edge := .both false
        cnt := .both 0
        phase := .issue
        state := .scanning }
     else s.setErr .stateReject)

/-- ISSUE; none where the step is not enabled (R200). -/
def State.issue (s : State) : Option State :=
  if s.state = .scanning ∧ s.phase = .issue then
    some
      { (State.requestConversion { s with edge := .both false } .a).requestConversion .b with
        pend := .both true
        cnt := .both 0
        phase := .wait }
  else none

/-- The flags of ADC `d` after its read-back, and the join: HANDOFF when both flags are clear (R201). -/
def State.served (s : State) (d : Dev) : State :=
  let pend := s.pend.set d false
  { s with
    pend := pend
    edge := s.edge.set d false
    cnt := s.cnt.set d 0
    phase := if !pend.a ∧ !pend.b then .handoff else s.phase }

/-- SERVICE(d) is enabled: d is complete, and for B, A is not (R201, R202). -/
def State.serviceReady (s : State) (d : Dev) : Bool :=
  s.state == .scanning && s.phase == .wait && s.cond d && (d == .a || !s.cond .a)

/-- SERVICE(d); none where the step is not enabled (R201). -/
def State.service (s : State) (d : Dev) : Option State :=
  if s.serviceReady d then some ((s.readIntoHalf d).served d) else none

/-- The row goes to the frame or, as a copy, onto the queue (R203). -/
def State.deliver (s : State) : State :=
  if s.config.mode then s.push s.rowBytes (rowTag s.params s.col)
  else { s with frame := s.frame.putBytes (s.col.toNat * s.params.rowWidth) s.rowBytes }

/-- `Finish()` (R205). -/
def State.finish (s : State) : State := { s with state := .done, phase := .issue }

/-- `Advance()`: the chain is shifted before the next requests (R206). -/
def State.advance (s : State) : State := { s.chainShift false with col := s.col + 1, phase := .issue }

/-- HANDOFF is enabled: in QUEUE mode only while the queue has room (R203, R204). -/
def State.handoffReady (s : State) : Bool :=
  s.state == .scanning && s.phase == .handoff && (!s.config.mode || decide (s.q.length < s.params.qCap))

/-- HANDOFF; none where the step is not enabled (R203). -/
def State.handoff (s : State) : Option State :=
  if s.handoffReady then
    some (if s.col = s.params.lastCol then s.deliver.finish else s.deliver.advance)
  else none

/-- One counted tick, saturating (R38, R209). -/
def satSucc (c : Word) : Word := BitVec.ofNat 32 (min (c.toNat + 1) 0xFFFFFFFF)

/-- ADC `d` is pending and not complete, so a tick counts for it (R209). -/
def State.unanswered (s : State) (d : Dev) : Bool := s.pend.get d && !s.cond d

/-- The counter of ADC `d` at a tick (R209). -/
def State.countTick (s : State) (d : Dev) : State :=
  if s.unanswered d then { s with cnt := s.cnt.set d (satSucc (s.cnt.get d)) } else s

/-- ADC `d` has timed out (R209). -/
def State.timedOut (s : State) (d : Dev) : Bool := s.unanswered d && decide (s.timeout ≤ s.cnt.get d)

/-- The error bit of a timed-out ADC (R209). -/
def State.flagTimeout (s : State) (d : Dev) (hit : Bool) : State := if hit then s.setErr (timeoutBit d) else s

/-- The timeout check after counting: both bits may be set, the cause is A's where A timed out (R209, R312). -/
def State.checkTimeout (s : State) : State :=
  let ta := s.timedOut .a
  let tb := s.timedOut .b
  let t := (s.flagTimeout .a ta).flagTimeout .b tb
  if ta then t.scanFault (timeoutCause .a)
  else if tb then t.scanFault (timeoutCause .b)
  else t

/-- TICK (R209). -/
def State.tick (s : State) : State :=
  if s.state = .scanning ∧ s.phase = .wait then
    let t := (s.countTick .a).countTick .b
    if t.timeout ≠ 0 then t.checkTimeout else t
  else s

end Sys2Proof.Machine
end

