-- ==== Sys2Proof/Machine/Control.lean ====
section
/-! DEFINITION. The control port (44_control.md): NOP, FAULT_CLEAR, the Illegal words, the acceptance table and the
plain registers' reads and writes. -/

namespace Sys2Proof.Machine

/-- NOP (R270). -/
def execNop (s : State) : Host.Outcome State Fault Refusal := .next s

/-- FAULT_CLEAR: the return from FAULT (R271). -/
def execFaultClear (s : State) : Host.Outcome State Fault Refusal :=
  .next (if s.state = .fault then s.leaveFault else s.setErr .stateReject)

/-- A word that is no command: ILLEGAL_CMD and nothing else, whatever the word (R114). -/
def execIllegal (_w : Word) (s : State) : Host.Outcome State Fault Refusal := .next (s.setErr .illegalCmd)

/-- The entry of a row of R273 for the current STATE, the columns IDLE, SCANNING, DONE, FAULT. -/
def State.byState (s : State) (idle scanning done fault : Bool) : Bool :=
  match s.state with
  | .idle => idle
  | .scanning => scanning
  | .done => done
  | .fault => fault

/-- The acceptance table of R273. Words that are no command and wire bytes are not in it: no state rejects them. -/
def accepted (i : Instr) (s : State) : Bool :=
  match i with
  | .nop => s.byState true true true true
  | .initAdc => s.byState true false true false
  | .chainClear => s.byState true false true true
  | .chainAdvance _ => s.byState true false true false
  | .startScan => s.byState true false true false
  | .faultClear => s.byState false false false true
  | .adcRequest _ => s.byState true false true false
  | .adcRead _ => s.byState true false true false
  | .handshakeStart => s.byState true true true true && s.hsState == .idle
  | .illegal _ => true
  | .adcConv _ _ => true
  | .adcSetup _ _ => true
  | .adcNull _ => true

/-- A CONFIG write (R276). -/
def State.writeConfig (s : State) (v : Word) : State :=
  if s.state = .scanning then s.setErr .stateReject else { s with config := Cfg.ofWord v }

/-- A TIMEOUT write (R276). -/
def State.writeTimeout (s : State) (v : Word) : State :=
  if s.state = .scanning then s.setErr .stateReject else { s with timeout := v }

/-- The handshake words may be written: no handshake is running (R277). -/
def State.hsWritable (s : State) : Bool := s.hsState == .idle || s.hsState == .done

/-- An HS_VEC write (R277). -/
def State.writeHsVec (s : State) (v : Word) : State :=
  if s.hsWritable then { s with hsVec := v } else s.setErr .stateReject

/-- An HS_SP write (R277). -/
def State.writeHsSp (s : State) (v : Word) : State :=
  if s.hsWritable then { s with hsSp := v } else s.setErr .stateReject

/-- An HS_ENTRY write (R277). -/
def State.writeHsEntry (s : State) (v : Word) : State :=
  if s.hsWritable then { s with hsEntry := v } else s.setErr .stateReject

/-- The value of a register read that changes nothing (R279); CMD and MB_RX read 0 (R85). QTAG and MB_TX, whose
reads have effects, are read by `State.popRow` and `State.takeMbTx`. -/
def State.readReg (s : State) (r : Reg) : Word :=
  match r with
  | .cmd => 0
  | .status => s.statusWord
  | .err => s.errWord
  | .config => s.config.word
  | .timeout => s.timeout
  | .col => s.col.setWidth 32
  | .chain0 => (truncCols s.params s.chain).extractLsb' 0 32
  | .chain1 => (truncCols s.params s.chain).extractLsb' 32 32
  | .fault => s.faultReg
  | .qcount => BitVec.setWidth 32 (BitVec.ofNat 16 s.q.length)
  | .hsVec => s.hsVec
  | .hsSp => s.hsSp
  | .hsEntry => s.hsEntry
  | .param => s.params.word
  | .mbTx => 0
  | .mbRx => 0
  | .qtag => 0
  | .rowbuf k => windowRead s.rowbufAt s.params.rowWidth k
  | .qout k => windowRead s.qoutAt s.params.rowWidth k
  | .frame k => windowRead s.frameAt s.params.frameBytes k

end Sys2Proof.Machine
end

