-- ==== Sys2Proof/Machine/Dispatch.lean ====
section
/-! DEFINITION. One arm per constructor of Instr (R272: a CMD write runs one command in one step). -/

namespace Sys2Proof.Machine

def exec (i : Instr) (s : State) : Host.Outcome State Fault Refusal :=
  match i with
  | .nop => Sys2Proof.Machine.execNop s
  | .initAdc => Sys2Proof.Machine.execInitAdc s
  | .chainClear => Sys2Proof.Machine.execChainClear s
  | .chainAdvance b => Sys2Proof.Machine.execChainAdvance b s
  | .startScan => Sys2Proof.Machine.execStartScan s
  | .faultClear => Sys2Proof.Machine.execFaultClear s
  | .adcRequest d => Sys2Proof.Machine.execAdcRequest d s
  | .adcRead d => Sys2Proof.Machine.execAdcRead d s
  | .handshakeStart => Sys2Proof.Machine.execHandshakeStart s
  | .illegal w => Sys2Proof.Machine.execIllegal w s
  | .adcConv d cccc => Sys2Proof.Machine.execAdcConv d cccc s
  | .adcSetup d x => Sys2Proof.Machine.execAdcSetup d x s
  | .adcNull d => Sys2Proof.Machine.execAdcNull d s

end Sys2Proof.Machine
end

