-- ==== Sys2Proof/Machine/Bus.lean ====
section
/-! DEFINITION. Bus accesses: reads, writes, bad accesses and stalls (20_memory.md, 44_control.md). -/

namespace Sys2Proof.Machine

/-- A read: the value and the state after it, none where it stalls. A bad read sets BAD_ACCESS and returns 0 (R84);
QTAG and MB_TX reads have effects and stall while empty (R87); every other read changes nothing (R279). -/
def State.busRead (s : State) (acc : BusAccess) : Option (Word × State) :=
  match acc.target s.params with
  | none => some (0, s.setErr .badAccess)
  | some .qtag => s.popRow
  | some .mbTx => s.takeMbTx
  | some r => some (s.readReg r, s)

/-- A write to a register: CMD runs a command (R272), the read-only ones are a bad access (R84, R278). -/
def State.writeReg (s : State) (r : Reg) (v : Word) : Host.Outcome State Fault Refusal :=
  match r with
  | .cmd => exec (decodeCmd v) s
  | .err => .next (s.clearErr v)
  | .config => .next (s.writeConfig v)
  | .timeout => .next (s.writeTimeout v)
  | .hsVec => .next (s.writeHsVec v)
  | .hsSp => .next (s.writeHsSp v)
  | .hsEntry => .next (s.writeHsEntry v)
  | .mbRx => .next (s.putMbRx v)
  | .status | .col | .chain0 | .chain1 | .fault | .qcount | .param | .mbTx | .qtag | .rowbuf _ | .qout _ | .frame _ =>
    .next (s.setErr .badAccess)

/-- A write: a bad one is checked before anything else and reports only BAD_ACCESS (R84, R280). -/
def State.busWrite (s : State) (acc : BusAccess) (v : Word) : Host.Outcome State Fault Refusal :=
  match acc.target s.params with
  | none => .next (s.setErr .badAccess)
  | some r => s.writeReg r v

/-- A bus access by master `m`; none where it stalls. A read's value goes to the master. -/
def State.access (s : State) (m : MasterId) (acc : BusAccess) : Option (Host.Outcome State Fault Refusal) :=
  match acc.op with
  | .read => (s.busRead acc).map fun r => .next (r.2.pushReturned m r.1)
  | .write v => some (s.busWrite acc v)

end Sys2Proof.Machine
end

