-- ==== Sys2Proof/Machine/Agents.lean ====
section
/-! DEFINITION. One turn of each agent (R12, R13), and the transaction of a wire byte placed from outside. -/

namespace Sys2Proof.Machine

/-- The master's oldest waiting access: it completes, or it stalls and stays the oldest (R24, R234, R239; log 8).
A master that waits on nothing takes no step. -/
def State.runMaster (s : State) (m : MasterId) : Host.Outcome State Fault Refusal :=
  match (s.master m).waiting with
  | [] => .next s
  | acc :: rest => ((s.setWaiting m rest).access m acc).getD (.next s)

/-- A new access of master `m`, behind those it waits on. -/
def State.issueAccess (s : State) (m : MasterId) (acc : BusAccess) : State :=
  s.setWaiting m ((s.master m).waiting ++ [acc])

/-- A step of SEQ; none where it is not enabled (R13). -/
def State.seqStep (s : State) (k : SeqStep) : Option State :=
  match k with
  | .issue => s.issue
  | .service d => s.service d
  | .handoff => s.handoff
  | .hsSend => s.hsSend
  | .hsCheck => s.hsCheck

/-- The bytes ADC `d` will answer at its next read transaction, behind those placed before (R123). -/
def State.placeAnswer (s : State) (d : Dev) (bytes : List Byte) : State :=
  { s with answers := s.answers.set d (s.answers.get d ++ [bytes]) }

/-- One turn of one agent; a step that is not enabled writes nothing (R24). -/
def State.takeTurn (s : State) (t : Turn) : Host.Outcome State Fault Refusal :=
  match t with
  | .access m acc => (s.issueAccess m acc).runMaster m
  | .retry m => s.runMaster m
  | .seq k => .next ((s.seqStep k).getD s)
  | .eocDrive d level => .next (s.eocDrive d level)
  | .adcReturns d bytes => .next (s.placeAnswer d bytes)
  | .tick => .next s.tick
  | .linkReady level => .next { s with linkReady := level }
  | .srOut level => .next { s with srOut := level }
  | .reset => .next s.resetStep

/-- The turn that is next, and the state it is taken in: the schedule's first, else a free one (R12, I8; log 1). -/
def State.nextTurn (s : State) : Turn × State :=
  match s.turns with
  | t :: ts => (t, { s with turns := ts })
  | [] => (Config.freeTurn s.draws, { s with draws := s.draws + 1 })

/-- The transaction of a wire byte placed on the link of device `d` from outside (log 9). -/
def State.runWire (s : State) (d : Dev) (byte : Byte) : Host.Outcome State Fault Refusal :=
  match decodeWire d byte with
  | .ok i => exec i s
  | .error (.notAWireByte b) => .refused (.notAWireByte b)

/-- One step of the whole machine: a wire byte placed from outside first, else one agent's turn. -/
def State.machineStep (s : State) : Host.Outcome State Fault Refusal :=
  match s.linkPort with
  | some (d, byte) => State.runWire { s with linkPort := none } d byte
  | none => s.nextTurn.2.takeTurn s.nextTurn.1

/-- A write of a command word to CMD (R110). -/
def cmdAccess (w : Word) : BusAccess := ⟨Reg.cmd.offset, 4, .write w⟩

/-- Place a command word so that the next step is CTRL writing it to CMD. -/
def State.withCmdWord (s : State) (w : Word) : State :=
  { s.setWaiting .ctrl (cmdAccess w :: s.ctrl.waiting) with linkPort := none, turns := .retry .ctrl :: s.turns }

/-- Place a wire byte so that the next step is its transaction with device A. -/
def State.withWireByte (s : State) (byte : Byte) : State := { s with linkPort := some (.a, byte) }

end Sys2Proof.Machine
end

