-- ==== Sys2Proof/Machine/Step.lean ====
section
/-! DEFINITION. The step, and where an instruction is placed so that the next step runs it. -/

namespace Sys2Proof.Machine

/-- One step: one turn of one agent (R12). -/
def step (s : State) : Host.Outcome State Fault Refusal := s.machineStep

/-- `s` with the instruction of these bits placed where the next step takes it from: 32 bits are a word CTRL
writes to CMD, 8 bits are a byte on the link of device A (log 9, log 18). -/
def State.withFetchWord (s : State) (nbits w : Nat) : State :=
  if nbits = 8 then s.withWireByte (BitVec.ofNat 8 w) else s.withCmdWord (BitVec.ofNat 32 w)

end Sys2Proof.Machine
end

