-- ==== Sys2Proof/Machine/Lines.lean ====
section
/-! DEFINITION. The lines of a program (R123) and the pseudo-instructions (R124) as turns of the schedule. The lines
`eoc`, `adc returns`, `tick` and `seq` are constructors of `Turn` already. -/

namespace Sys2Proof.Machine

/-- `cmd NAME`: CTRL writes the command's word to CMD; a wire byte is no line (R123). -/
def cmdLine (i : Instr) : List Turn :=
  match encode i with
  | .cmd w => [.access .ctrl (cmdAccess w)]
  | .wire _ _ => []

/-- `wr NAME, v`, or `cons: wr NAME, v` (R123). -/
def wrLine (m : MasterId) (r : Reg) (v : Word) : Turn := .access m ⟨r.offset, 4, .write v⟩

/-- `rd NAME`, or `cons: rd NAME` (R123). -/
def rdLine (m : MasterId) (r : Reg) : Turn := .access m ⟨r.offset, 4, .read⟩

/-- `poll NAME.FIELD == v` with `n` reads: how often the spin reads is the master's own affair (R124). -/
def pollLines (m : MasterId) (r : Reg) (n : Nat) : List Turn := List.replicate n (rdLine m r)

/-- `clear_errors` (R124). -/
def clearErrorsLines : List Turn := [wrLine .ctrl .err 0x000000FF]

/-- `seed` (R124). -/
def seedLines : List Turn := cmdLine .chainClear ++ cmdLine (.chainAdvance true)

/-- `scan_blocking` with `n` reads of STATUS (R124). -/
def scanBlockingLines (n : Nat) : List Turn := cmdLine .startScan ++ pollLines .ctrl .status n

/-- `pop_row`: QTAG, then every word of QOUT (R124). -/
def popRowLines (p : Params) : List Turn :=
  rdLine .cons .qtag :: (List.range (windowWords p.rowWidth)).map fun k => rdLine .cons (.qout k)

end Sys2Proof.Machine
end

