-- ==== Sys2Proof/Safety.lean ====
section
/-! DEFINITION. What holds in every state a run can reach, and the events of a run that claims speak about. -/

namespace Sys2Proof.Machine

/-! ## The invariants of the block -/

/-- The scan cursor: outside SCANNING the phase is ISSUE, the column exists, DONE holds the last column, IDLE the
first (R33, R34). -/
def State.CursorOk (s : State) : Prop :=
  (s.state ≠ .scanning → s.phase = .issue) ∧ s.col.toNat ≤ s.params.lastCol.toNat ∧
    (s.state = .done → s.col = s.params.lastCol) ∧ (s.state = .idle → s.col = 0)

/-- WAIT means that some ADC is pending (R33); an ADC that is not pending has no latched edge and no count; an edge
is latched only in EDGE mode (R152, R200, R201, R306). -/
def State.PendOk (s : State) : Prop :=
  (s.phase = .wait ↔ (s.pend.a = true ∨ s.pend.b = true)) ∧
    ∀ d, (s.pend.get d = false → s.edge.get d = false ∧ s.cnt.get d = 0) ∧
      (s.edge.get d = true → s.config.eocMode = true)

/-- With a timeout set, no counter has reached it: the tick that reaches it faults the scan (R209). -/
def State.TimeoutOk (s : State) : Prop := s.timeout ≠ 0 → ∀ d, s.cnt.get d < s.timeout

/-- At most one column is selected (R174), and during a scan it is the cursor's (R191, R206). -/
def State.ChainOk (s : State) : Prop :=
  (s.chain = 0 ∨ ∃ k, k < s.params.colHeight ∧ s.chain = 1#64 <<< k) ∧
    (s.state = .scanning → s.chain = 1#64 <<< s.col.toNat)

/-- The FAULT word of a cause, column and pending flags (R49). -/
def faultWordOf (cause : BitVec 4) (col : BitVec 6) (pa pb : Bool) : Word :=
  0#14 ++ BitVec.ofBool pb ++ BitVec.ofBool pa ++ 0#2 ++ col ++ 0#4 ++ cause

/-- FAULT reads 0 outside the FAULT state; in it, it records a timeout of an ADC that was pending, at the column the
cursor still holds (R34, R49, R302, R306, R308). -/
def State.FaultOk (s : State) : Prop :=
  (s.state ≠ .fault → s.faultReg = 0) ∧
    (s.state = .fault →
      (∃ pb, s.faultReg = faultWordOf 1 s.col true pb) ∨ ∃ pa, s.faultReg = faultWordOf 2 s.col pa true)

/-- The handshake: the index names a word while one is being sent, is 3 exactly when all were acknowledged, and an
echo is held only while one is awaited (R55, R240, R244). -/
def State.HandshakeOk (s : State) : Prop :=
  (s.hsState = .idle → s.hsIdx = 0) ∧ (s.hsState = .send ∨ s.hsState = .wait → s.hsIdx.toNat < 3) ∧
    (s.hsState = .done → s.hsIdx = 3) ∧ (s.mbRx.valid = true → s.hsState = .wait)

/-- The queue: never more than Q_CAP entries, each a whole row under the tag of an existing column (R42, R120). -/
def State.QueueOk (s : State) : Prop :=
  s.q.length ≤ s.params.qCap ∧
    ∀ e ∈ s.q, e.payload.length = s.params.rowWidth ∧
      ∃ c : BitVec 6, c.toNat ≤ s.params.lastCol.toNat ∧ e.tag = rowTag s.params c

/-- Every index of the memory is below `n`. -/
def Memory.below (n : Nat) (m : Memory) : Prop := ∀ c ∈ m, c.1 < n

/-- The data stores keep their canonical form and their size (R40, R41, R54). -/
def State.StoresOk (s : State) : Prop :=
  (s.rowbuf.wf = true ∧ s.frame.wf = true ∧ s.qout.wf = true) ∧
    s.rowbuf.below s.params.rowWidth ∧ s.frame.below s.params.frameBytes ∧ s.qout.below s.params.rowWidth

/-- Chip-selects after a sequence of pin events, none if both were ever asserted at once (R140). -/
def chipSelects : List PinEvent → PerAdc Bool → Option (PerAdc Bool)
  | [], now => some now
  | .cs d v :: ps, now =>
    let next := now.set d v
    if next.a ∧ next.b then none else chipSelects ps next
  | .data _ _ :: ps, now => chipSelects ps now
  | .clear _ :: ps, now => chipSelects ps now
  | .serialIn _ :: ps, now => chipSelects ps now
  | .clockPulse :: ps, now => chipSelects ps now

/-- Both chip-selects are deasserted between steps (R57), and since RESET they were never asserted at once (R140). -/
def State.SelectOk (s : State) : Prop :=
  s.cs = .both false ∧ chipSelects s.pins (.both false) = some s.cs

/-- What holds in every state that steps reach from reset. -/
structure State.Inv (s : State) : Prop where
  cursor : s.CursorOk
  pend : s.PendOk
  timeout : s.TimeoutOk
  chain : s.ChainOk
  fault : s.FaultOk
  handshake : s.HandshakeOk
  queue : s.QueueOk
  stores : s.StoresOk
  select : s.SelectOk

/-! ## The event history -/

/-- The request transaction of device `d` (R141). -/
def requestEvent (p : Params) (d : Dev) (rx : List Byte) : Event := .xfer d [reqByte p.channels] rx

/-- The read transaction of device `d` (R143). -/
def readEvent (p : Params) (d : Dev) (rx : List Byte) : Event :=
  .xfer d (List.replicate p.responseLength nullByte) rx

/-- A transaction is a setup, a request or a read transaction, one byte received for each sent (R20, R119). -/
def Event.Legal (p : Params) : Event → Prop
  | .xfer _ tx rx =>
    (tx = [setupByte p.setupLow6] ∨ tx = [reqByte p.channels] ∨ tx = List.replicate p.responseLength nullByte) ∧
      rx.length = tx.length
  | .clr => True
  | .shift _ => True

/-- The events of a column whose two requests and the read of the devices in `reads`, in that order, are made. -/
def ColumnEvents (p : Params) (reads : List Dev) (evs : List Event) : Prop :=
  ∃ ra rb rxs, rxs.length = reads.length ∧
    evs = [requestEvent p .a ra, requestEvent p .b rb] ++ List.zipWith (readEvent p) reads rxs

/-- The events of a column that was handed off and left behind (R206, R210). -/
def FinishedColumn (p : Params) (evs : List Event) : Prop :=
  ∃ evs', (ColumnEvents p [.a, .b] evs' ∨ ColumnEvents p [.b, .a] evs') ∧ evs = evs' ++ [.shift false]

/-- The events of the column a scan is at, as far as its phase and pending flags say (R200, R201). -/
def CurrentColumn (s : State) (evs : List Event) : Prop :=
  match s.phase with
  | .issue => evs = []
  | .wait =>
    if s.pend.a then (if s.pend.b then ColumnEvents s.params [] evs else ColumnEvents s.params [.b] evs)
    else ColumnEvents s.params [.a] evs
  | .handoff => ColumnEvents s.params [.a, .b] evs ∨ ColumnEvents s.params [.b, .a] evs

/-- During a scan the history ends in the seed, one finished column for each column before the cursor's, and the
current column's events: no request of a column precedes a read of the one before it (R95, R210). -/
def State.JoinOrder (s : State) : Prop :=
  s.state = .scanning →
    ∃ (before : List Event) (cols : List (List Event)) (now : List Event), s.hist = before ++ [.clr, .shift true] ++ cols.flatten ++ now ∧
      cols.length = s.col.toNat ∧ (∀ c ∈ cols, FinishedColumn s.params c) ∧ CurrentColumn s now

/-- Half `d` of the row buffer holds the samples of d's last transaction, which was a read (R211). -/
def State.HalfFilled (s : State) (d : Dev) : Prop :=
  ∃ (before : List Event) (rx : List Byte) (since : List Event), s.hist = before ++ [readEvent s.params d rx] ++ since ∧
    (∀ tx r, Event.xfer d tx r ∉ since) ∧
    ∀ j, j < s.params.channels →
      s.rowbufAt (halfBase s.params d + j) = deint (rx.getD (2 * j) 0) (rx.getD (2 * j + 1) 0)

/-- From the requests of a column to its hand-off, each half already read holds the samples of that read: since the
requests are transactions too, it was made after them (R211). -/
def State.RowOk (s : State) : Prop :=
  s.state = .scanning → s.phase ≠ .issue → ∀ d, s.pend.get d = false → s.HalfFilled d

/-! ## What a step does -/

/-- The bus access a turn tries: the oldest one its master waits on after issuing (R24). -/
def State.accessTried (s : State) (t : Turn) : Option BusAccess :=
  match t with
  | .access m acc => ((s.master m).waiting ++ [acc]).head?
  | .retry m => (s.master m).waiting.head?
  | .seq _ => none
  | .eocDrive _ _ => none
  | .adcReturns _ _ => none
  | .tick => none
  | .linkReady _ => none
  | .srOut _ => none
  | .reset => none

/-- The command a turn runs: it writes a word to CMD (R272). -/
def State.commandRun (s : State) (t : Turn) : Option Instr :=
  match s.accessTried t with
  | some acc =>
    match acc.op, acc.target s.params with
    | .write w, some .cmd => some (decodeCmd w)
    | _, _ => none
  | none => none

/-- A SEQ step is enabled (R12, R24). -/
def State.Enabled (s : State) (k : SeqStep) : Prop := (s.seqStep k).isSome

/-- The bus access the next step tries. -/
def State.nextAccess (s : State) : Option BusAccess := s.nextTurn.2.accessTried s.nextTurn.1

/-- The command the next step runs. -/
def State.nextCommand (s : State) : Option Instr := s.nextTurn.2.commandRun s.nextTurn.1

/-- The next step tries to read the register. -/
def State.nextReads (s : State) (r : Reg) : Prop :=
  ∃ acc, s.nextAccess = some acc ∧ acc.op = .read ∧ acc.target s.params = some r

/-- The next step writes `v` to the register. -/
def State.nextWrites (s : State) (r : Reg) (v : Word) : Prop :=
  ∃ acc, s.nextAccess = some acc ∧ acc.op = .write v ∧ acc.target s.params = some r

/-- A 32-bit write at the register's own offset (R59). -/
def State.writeAt (s : State) (r : Reg) (v : Word) : Host.Outcome State Fault Refusal :=
  s.busWrite ⟨r.offset, 4, .write v⟩ v

/-- The turns that take one column through its requests, edges, reads and hand-off, in either EOC mode. -/
def columnTurns : List Turn :=
  [.eocDrive .a true, .eocDrive .b true, .seq .issue, .eocDrive .a false, .eocDrive .b false,
   .seq (.service .a), .seq (.service .b), .seq .handoff]

/-- The count of an ADC after a tick: one more, saturating, while it is pending and not complete (R38, R209). -/
def State.tickCount (s : State) (d : Dev) : Nat :=
  if s.pend.get d = true ∧ s.cond d = false then min ((s.cnt.get d).toNat + 1) 0xFFFFFFFF else (s.cnt.get d).toNat

/-- An ADC times out at a tick: its count reaches a nonzero TIMEOUT while it is pending and not complete (R209). -/
def State.tickTimesOut (s : State) (d : Dev) : Bool :=
  decide (s.timeout ≠ 0 ∧ s.pend.get d = true ∧ s.cond d = false ∧ s.timeout.toNat ≤ s.tickCount d)

/-! ## Runs -/

/-- An infinite run: state `r n` takes turn `u n`. Any sequence of turns is one interleaving of the agents (R12); a
step with the turn `u n` first in `turns` is the same (log 1). -/
def IsRun (r : Nat → State) (u : Nat → Turn) : Prop := ∀ n, (r n).takeTurn (u n) = .next (r (n + 1))

/-- Weak fairness of SEQ and TICK (R15): a SEQ step enabled at every single step from some point on is taken later, and
ticks never end. `FairAtTicks` measures the same in ticks (log 20). -/
def WeaklyFair (r : Nat → State) (u : Nat → Turn) : Prop :=
  (∀ k n, (∀ m, n ≤ m → (r m).Enabled k) → ∃ m, n ≤ m ∧ u m = .seq k) ∧ ∀ n, ∃ m, n ≤ m ∧ u m = .tick

/-- R15's "a SEQ step that stays enabled is eventually taken" with "stays" measured in ticks, since "time enters only
through the TICK step" (R12): a step that every tick from some point on finds enabled is taken. The reading of R15 under
which R357 follows as the spec writes it (DEDUCED, log 20). -/
def FairAtTicks (r : Nat → State) (u : Nat → Turn) : Prop :=
  ∀ k n, (∀ m, n ≤ m → u m = .tick → (r m).Enabled k) → ∃ m, n ≤ m ∧ (r m).Enabled k ∧ u m = .seq k

/-- A fair run of a scan without RESET, from a state of the block's own: the runs R357 speaks of. -/
structure FairScan (r : Nat → State) (u : Nat → Turn) : Prop where
  run : IsRun r u
  fair : WeaklyFair r u
  inv : (r 0).Inv
  scanning : (r 0).state = .scanning
  noReset : ∀ n, u n ≠ .reset

/-- R357's condition on the ADCs: some time after each ISSUE each ADC drives EOC low, with a falling edge in EDGE mode,
while the scan still waits for it, which is what makes it that ISSUE's answer (DEDUCED, log 20). -/
def AdcsAnswerAwaited (r : Nat → State) (u : Nat → Turn) : Prop :=
  ∀ n d, u n = .seq .issue → (r n).Enabled .issue →
    ∃ m, n < m ∧ u m = .eocDrive d false ∧ ((r n).config.eocMode = true → (r m).eoc.get d = true) ∧
      ∀ j, n < j → j ≤ m → (r j).pend.get d = true

/-- R153's assumption on the ADCs as far as LEVEL mode needs it: an EOC line driven low, its result ready, is not driven
high again while that ADC is pending, but by the end of its next request. "Needed for LEVEL mode to be meaningful"
(92_eei_decisions.md D12). -/
def ReadyLinesHold (r : Nat → State) : Prop :=
  ∀ n d, (r n).pend.get d = true → (r n).eoc.get d = false → (r (n + 1)).pend.get d = true →
    (r (n + 1)).eoc.get d = false

/-- Turn `m` answers the ISSUE of turn `n`, in time or not: ADC `d` drives its EOC line low, with a falling edge in EDGE mode (R357). In
LEVEL mode the low level must still be there to be seen, so from then on the line stays low while its ADC is pending:
"keeps it high until the result is ready, and then drives it low" (R153; log 20). -/
def AnswersAt (r : Nat → State) (u : Nat → Turn) (n : Nat) (d : Dev) (m : Nat) : Prop :=
  n < m ∧ u m = .eocDrive d false ∧ ((r n).config.eocMode = true → (r m).eoc.get d = true) ∧
    ((r n).config.eocMode = false →
      ∀ k, m < k → (∀ j, n < j → j ≤ k → (r j).pend.get d = true) → (r k).eoc.get d = false)

/-- Each ADC drives its EOC line low some time after each ISSUE, in time or not (R357). -/
def AdcsAnswer (r : Nat → State) (u : Nat → Turn) : Prop :=
  ∀ n d, u n = .seq .issue → (r n).Enabled .issue → ∃ m, AnswersAt r u n d m

/-- The ticks after turn `n` and before turn `m`. -/
def ticksBetween (u : Nat → Turn) (n m : Nat) : Nat := (List.range m).countP fun j => decide (n < j ∧ u j = .tick)

/-- Each ADC answers each ISSUE before the tick at which it would time out: with TIMEOUT = 0 that is AdcsAnswer, else
fewer than TIMEOUT ticks come first (R209; log 20). -/
def AdcsAnswerInTime (r : Nat → State) (u : Nat → Turn) : Prop :=
  ∀ n d, u n = .seq .issue → (r n).Enabled .issue →
    ∃ m, AnswersAt r u n d m ∧ ((r n).timeout ≠ 0 → ticksBetween u n m < (r n).timeout.toNat)

/-- Whenever the queue stalls a hand-off, it does so no longer at some later time: it was popped (R357). -/
def QueuePopped (r : Nat → State) : Prop := ∀ n, (r n).handoffStall = true → ∃ m, n ≤ m ∧ (r m).handoffStall = false

/-- No EOC line changes for ever while its ADC stays pending: from any time on there is a moment after which it keeps
its level as long as the ADC is pending (log 20). -/
def LinesSettle (r : Nat → State) : Prop :=
  ∀ n d, ∃ m, n ≤ m ∧
    ∀ k, m ≤ k → (∀ j, m ≤ j → j ≤ k → (r j).pend.get d = true) → (r k).eoc.get d = (r m).eoc.get d

/-- The scan waits for ever on ADC `d`, whose EOC line goes low and high again for ever (log 20). -/
def TogglesForEver (r : Nat → State) (d : Dev) : Prop :=
  ∃ n, ∀ m, n ≤ m → (r m).phase = .wait ∧ (r m).pend.get d = true ∧
    (∃ j, m ≤ j ∧ (r j).eoc.get d = false) ∧ ∃ j, m ≤ j ∧ (r j).eoc.get d = true

/-- A SEQ step that is enabled again and again is taken while it is enabled: more than R15 asks (log 20). -/
def StronglyFair (r : Nat → State) (u : Nat → Turn) : Prop :=
  ∀ k n, (∀ m, n ≤ m → ∃ j, m ≤ j ∧ (r j).Enabled k) → ∃ m, n ≤ m ∧ (r m).Enabled k ∧ u m = .seq k

/-- The end of one scan (R16). -/
def ScanEnds (r : Nat → State) : Prop := ∃ n, (r n).state = .done ∨ (r n).state = .fault

/-- From some time on the scan stalls on a full queue that is never popped (R204, R357). -/
def StallsForEver (r : Nat → State) : Prop := ∃ n, ∀ m, n ≤ m → (r m).handoffStall = true

end Sys2Proof.Machine
end

