-- ==== Sys2Proof/Certificates/Slice0/Obligations.lean ====
section
/-! DEFINITION. The statements for the provers, each from the numbered rules its docstring cites. -/

open Sys2Proof Sys2Proof.Machine

/-! ## Encoding -/

/-- Decoding the bits of a well-formed instruction gives it back (R111 to R117). -/
def Obligations.DecodeInvertsEncode : Prop :=
  ∀ i : Instr, i.WellFormed = true → decode (encode i) = .ok i

/-- Every 32-bit word is exactly one well-formed instruction's word: the decoder is total, drops no bit, and no other
well-formed instruction has the word (R111, R113, R114). -/
def Obligations.EncodeInvertsDecode : Prop :=
  ∀ w : Word, ((decodeCmd w).WellFormed = true ∧ encode (decodeCmd w) = .cmd w) ∧
    ∀ i : Instr, i.WellFormed = true → encode i = .cmd w → i = decodeCmd w

/-- A byte on a link is one of the three wire rows, or no instruction has it (R115 to R117, R119). That a byte of R115's
format with DD other than 00 is of the second kind is the model's choice (DESIGN CHOICE, log 21). -/
def Obligations.WireBytesDecodeExactly : Prop :=
  ∀ (d : Dev) (byte : Byte),
    (∃ i : Instr, i.WellFormed = true ∧ decodeWire d byte = .ok i ∧ encode i = .wire d byte) ∨
      (decodeWire d byte = .error (.notAWireByte byte) ∧ ∀ i : Instr, encode i ≠ .wire d byte)

/-- No word is in two command rows (R111). -/
def Obligations.CommandRowsNeverOverlap : Prop :=
  ∀ w : Word, (cmdRows.filter (·.matches w)).length ≤ 1

/-- Words of R111, the Illegal words of 95_test_vectors.md section 2.1 (R114) and three wire bytes (R115, R116, R117),
decoded. -/
def Obligations.TableWordsDecode : Prop :=
  ([0x00000000, 0x00000010, 0x00000020, 0x00000030, 0x00000031, 0x00000040, 0x00000050, 0x00000060, 0x00000061,
    0x00000070, 0x00000071, 0x00000080].map decodeCmd =
    [.nop, .initAdc, .chainClear, .chainAdvance false, .chainAdvance true, .startScan, .faultClear, .adcRequest .a,
     .adcRequest .b, .adcRead .a, .adcRead .b, .handshakeStart]) ∧
  (([0x00000001, 0x00000011, 0x00000032, 0x0000003F, 0x00000041, 0x00000062, 0x00000081, 0x00000090, 0x000000F0,
    0x00000100, 0x80000040].map fun w => decodeCmd w) =
    [0x00000001, 0x00000011, 0x00000032, 0x0000003F, 0x00000041, 0x00000062, 0x00000081, 0x00000090, 0x000000F0,
    0x00000100, 0x80000040].map fun w => .illegal w) ∧
  decodeWire .b 0xE8 = .ok (.adcConv .b 13) ∧ decodeWire .a 0x7F = .ok (.adcSetup .a 0x3F) ∧
  decodeWire .a 0x00 = .ok (.adcNull .a)

/-- The request byte: bit 7 set, CCCC = CHANNELS_PER_ADC - 1, bits 2..0 zero (R115, R141); its values at 1, 14 and 16
channels (R141, R142). Every build has 1 to 16 channels (R7); with 17 the byte would be that of 1 (R142). -/
def Obligations.RequestByteNamesChannels : Prop :=
  (∀ p : Params, 1 ≤ p.channels ∧ p.channels ≤ 16 ∧ (reqByte p.channels).getLsbD 7 = true ∧
    ((reqByte p.channels).extractLsb' 3 4).toNat = p.channels - 1 ∧
    (reqByte p.channels).extractLsb' 0 3 = 0 ∧
    decodeWire .a (reqByte p.channels) = .ok (.adcConv .a p.lastChan)) ∧
  reqByte 1 = 0x80 ∧ reqByte 14 = 0xE8 ∧ reqByte 16 = 0xF8 ∧ reqByte 17 = reqByte 1

/-- A sample is the low 8 bits of (hi << 4) | (lo >> 4), that is the low nibble of hi above the high nibble of lo; the
padding nibbles never reach it (R145). -/
def Obligations.DeintKeepsInnerNibbles : Prop :=
  (∀ hi lo : Byte, deint hi lo = hi.extractLsb' 0 4 ++ lo.extractLsb' 4 4 ∧
    (deint hi lo).toNat = ((hi.toNat <<< 4) ||| (lo.toNat >>> 4)) % 2 ^ 8) ∧
  (∀ (hi lo : Byte) (x y : BitVec 4),
    deint (x ++ hi.extractLsb' 0 4) (lo.extractLsb' 4 4 ++ y) = deint hi lo) ∧
  deint 0x0A 0x50 = 0xA5 ∧ deint 0x3A 0x50 = 0xA5 ∧ deint 0xFF 0xFF = 0xFF ∧ deint 0x12 0x34 = 0x23

/-- Sample j of a response of n channels comes from its bytes 2j and 2j+1 (R144). -/
def Obligations.ResponsePairsMakeSamples : Prop :=
  ∀ (n : Nat) (rx : List Byte), rx.length = 2 * n →
    (deintAll rx).length = n ∧
      ∀ j, j < n → (deintAll rx)[j]? = some (deint (rx.getD (2 * j) 0) (rx.getD (2 * j + 1) 0))

/-! ## A step runs what was placed for it -/

/-- A step whose turn is a bus master's tries the oldest access it waits on, whether the master issues an access now,
behind those it waits on, or tries again. A write is that bus write, and a word written to CMD runs as its decoded
command (R272); a read that completes gives its value to the master; a read that stalls stays the master's oldest
access and nothing else changes (R12, R24, R88; where a stalled access waits is the model's choice, log 8). -/
def Obligations.StepRunsBusAccesses : Prop :=
  ∀ (s : State) (m : MasterId) (acc : BusAccess) (rest : List BusAccess) (ts : List Turn), s.linkPort = none →
    (s.turns = .retry m :: ts ∧ (s.master m).waiting = acc :: rest) ∨
      (∃ new, s.turns = .access m new :: ts ∧ (s.master m).waiting ++ [new] = acc :: rest) →
    (∀ v, acc.op = .write v → step s = (State.setWaiting { s with turns := ts } m rest).busWrite acc v) ∧
    (∀ w, acc = cmdAccess w → step s = exec (decodeCmd w) (State.setWaiting { s with turns := ts } m rest)) ∧
    (acc.op = .read →
      (∀ v t, (State.setWaiting { s with turns := ts } m rest).busRead acc = some (v, t) →
        step s = .next (t.pushReturned m v)) ∧
      ((State.setWaiting { s with turns := ts } m rest).busRead acc = none →
        step s = .next (State.setWaiting { s with turns := ts } m (acc :: rest))))

/-- A step with a byte placed on a device's link runs the wire row of that byte, and refuses a byte that is none
(the model's port for the table's wire rows: DESIGN CHOICE, log 9; which bytes are none: log 21). -/
def Obligations.StepRunsPlacedWireBytes : Prop :=
  ∀ (s : State) (d : Dev) (byte : Byte), s.linkPort = some (d, byte) →
    (∀ i, decodeWire d byte = .ok i → step s = exec i { s with linkPort := none }) ∧
    (∀ e, decodeWire d byte = .error e → step s = .refused (.notAWireByte byte))

/-- `withFetchWord` places a word or a byte so that the next step runs exactly its instruction (model's own
interface: DESIGN CHOICE, log 9, log 18). -/
def Obligations.PlacedBitsRunNext : Prop :=
  ∀ (s : State) (w : Nat), s.linkPort = none →
    (∀ i, decodeTableWord 32 w = some i → step (s.withFetchWord 32 w) = exec i s) ∧
    (∀ i, decodeTableWord 8 w = some i → step (s.withFetchWord 8 w) = exec i s)

/-- Every step of a run answers a next state, and no step changes the parameters of the build. That nothing stops the
machine is the model's choice (DESIGN CHOICE, log 16, after R16 and R300), as is that a turn which is not enabled
answers a next state (log 12, after R24) and that the parameters stand in State (log 2, after R52). -/
def Obligations.MachineNeverStops : Prop :=
  ∀ s : State, s.linkPort = none → ∃ t, step s = .next t ∧ t.linkPort = none ∧ t.params = s.params

/-! ## Commands -/

/-- NOP, the word 0, changes nothing in any state (R270); a word of no command row, written to CMD, sets
ERR.ILLEGAL_CMD and changes nothing else (R114). -/
def Obligations.NopAndIllegalWords : Prop :=
  (decodeCmd 0x00000000 = .nop ∧ decodeCmd 0x00000001 = .illegal 0x00000001) ∧
  (∀ s : State, exec .nop s = .next s) ∧
  (∀ (w : Word) (s : State), exec (.illegal w) s = .next { s with err := s.err ||| 0x01 }) ∧
  (∀ (s : State) (m : MasterId) (w : Word) (ts : List Turn), s.linkPort = none → (s.master m).waiting = [] →
    s.turns = .access m (cmdAccess w) :: ts → isCommandWord w = false →
    step s = .next { s with turns := ts, err := s.err ||| 0x01 })

/-- INIT_ADC in IDLE or DONE: with the link ready, the setup byte to A and then to B; with it not ready, nothing,
and no error. Only the history changes, and the model's own record of the pins and number of draws: for each ADC its
chip-select, the byte on its link, its chip-select again (R20; DESIGN CHOICE, log 10, log 7). In SCANNING and FAULT it
only sets STATE_REJECT (R147). -/
def Obligations.InitAdcSetsUpBothAdcs : Prop :=
  decodeCmd 0x00000010 = .initAdc ∧
  ∀ s : State,
    (s.state = .idle ∨ s.state = .done →
      (s.linkReady = false → exec .initAdc s = .next s) ∧
      (s.linkReady = true → ∃ t ra rb, exec .initAdc s = .next t ∧ ra.length = 1 ∧ rb.length = 1 ∧
        t = { s with
          hist := s.hist ++ [.xfer .a [0x40 ||| s.params.setupLow6.setWidth 8] ra,
            .xfer .b [0x40 ||| s.params.setupLow6.setWidth 8] rb]
          cs := .both false
          pins := s.pins ++
            [.cs .a true, .data (s.lane .a) (0x40 ||| s.params.setupLow6.setWidth 8), .cs .a false, .cs .b true,
              .data (s.lane .b) (0x40 ||| s.params.setupLow6.setWidth 8), .cs .b false]
          draws := s.draws + 2 })) ∧
    (s.state = .scanning ∨ s.state = .fault → exec .initAdc s = .next { s with err := s.err ||| 0x02 })

/-- CHAIN_CLEAR outside SCANNING empties the chain, records Clr and pulses the clear line to the level CLR_POL asks
for and back; nothing else changes. During a scan it only sets STATE_REJECT (R171; the recorded pins are the model's
own, DESIGN CHOICE, log 10). -/
def Obligations.ChainClearEmptiesTheChain : Prop :=
  decodeCmd 0x00000020 = .chainClear ∧
  ∀ s : State,
    (s.state ≠ .scanning → exec .chainClear s = .next
      { s with
        chain := 0
        hist := s.hist ++ [.clr]
        pins := s.pins ++ [.clear (!s.config.clrPol), .clear s.config.clrPol] }) ∧
    (s.state = .scanning → exec .chainClear s = .next { s with err := s.err ||| 0x02 })

/-- CHAIN_ADVANCE b in IDLE or DONE: stage 0 takes b, stage i takes the old stage i-1, what lies at or beyond
COL_HEIGHT is dropped, Shift(b) is recorded, nothing else changes; a 1 into a chain that holds a 1 only sets
MULTI_HOT, and in SCANNING or FAULT only STATE_REJECT is set (R170, R172). -/
def Obligations.ChainAdvanceShiftsOneStage : Prop :=
  (decodeCmd 0x00000030 = .chainAdvance false ∧ decodeCmd 0x00000031 = .chainAdvance true) ∧
  ∀ (s : State) (b : Bool),
    (s.state = .idle ∨ s.state = .done →
      (b = true → s.chain ≠ 0 → exec (.chainAdvance b) s = .next { s with err := s.err ||| 0x04 }) ∧
      (b = false ∨ s.chain = 0 → ∃ t, exec (.chainAdvance b) s = .next t ∧
        t = { s with
          chain := t.chain
          hist := s.hist ++ [.shift b]
          pins := s.pins ++ [.serialIn b, .clockPulse] } ∧
        ∀ i, i < 64 → t.chain.getLsbD i =
          (decide (i < s.params.colHeight) && (if i = 0 then b else s.chain.getLsbD (i - 1))))) ∧
    (s.state = .scanning ∨ s.state = .fault →
      exec (.chainAdvance b) s = .next { s with err := s.err ||| 0x02 })

/-- After the clear, the seed and k zeros the chain selects column k, and nothing from COL_HEIGHT zeros on (R175). -/
def Obligations.SweepSelectsEachColumn : Prop :=
  ∀ (s : State) (k : Nat),
    ((fun u : State => u.chainShift false)^[k] (s.chainClear.chainShift true)).chain =
      if k < s.params.colHeight then 1#64 <<< k else 0

/-- START_SCAN in IDLE or DONE: the chain is cleared and seeded, the scan cursor reset, STATE = SCANNING, PHASE =
ISSUE; the queue, the data stores, the errors and everything else stay. In SCANNING and FAULT it only sets STATE_REJECT
(R191; the recorded pins are the model's own, DESIGN CHOICE, log 10). -/
def Obligations.StartScanSeedsAndResetsCursor : Prop :=
  decodeCmd 0x00000040 = .startScan ∧
  ∀ s : State,
    (s.state = .idle ∨ s.state = .done →
      exec .startScan s = .next
        { s with
          chain := 1
          hist := s.hist ++ [.clr, .shift true]
          pins := s.pins ++ [.clear (!s.config.clrPol), .clear s.config.clrPol, .serialIn true, .clockPulse]
          col := 0
          pend := ⟨false, false⟩
          edge := ⟨false, false⟩
          cnt := ⟨0, 0⟩
          phase := .issue
          state := .scanning }) ∧
    (s.state = .scanning ∨ s.state = .fault → exec .startScan s = .next { s with err := s.err ||| 0x02 })

/-- A command the table of R273 does not accept sets STATE_REJECT and changes nothing else (R274); one it accepts
does not touch that bit. -/
def Obligations.RejectionFollowsTheTable : Prop :=
  (∀ (i : Instr) (s : State), accepted i s = false → exec i s = .next { s with err := s.err ||| 0x02 }) ∧
  (∀ (i : Instr) (s : State), accepted i s = true → ∃ t, exec i s = .next t ∧ t.err.getLsbD 1 = s.err.getLsbD 1) ∧
  (∀ s : State, s.state = .scanning → ∀ i : Instr, i.cmdWord?.isSome = true → accepted i s = true →
    i = .nop ∨ i = .handshakeStart ∨ ∃ w, i = .illegal w)

/-- A command that reports an error changes its one error bit and nothing else (R22, R303). -/
def Obligations.CommandErrorsArePrecise : Prop :=
  ∀ (i : Instr) (s t : State), exec i s = .next t → t.err ≠ s.err →
    t = { s with err := t.err } ∧
      (t.err = s.err ||| 0x01 ∨ t.err = s.err ||| 0x02 ∨ t.err = s.err ||| 0x04)

/-- FAULT_CLEAR in FAULT: FAULT = 0, col = 0, PHASE = ISSUE, STATE = IDLE; ERR, the chain, the data stores, the queue
and everything else stay (R271). Elsewhere it only sets STATE_REJECT. -/
def Obligations.FaultClearReturnsToIdle : Prop :=
  decodeCmd 0x00000050 = .faultClear ∧
  ∀ s : State,
    (s.state = .fault → exec .faultClear s = .next { s with faultReg := 0, col := 0, phase := .issue, state := .idle }) ∧
    (s.state ≠ .fault → exec .faultClear s = .next { s with err := s.err ||| 0x02 })

/-- ADC_REQUEST d in IDLE or DONE: one request transaction with device d, whatever was requested before; the pending
flags, counters, edge latches and everything else stay, but for the model's own record of the pins (chip-select, the
byte on the device's link, chip-select: R20) and number of draws (DESIGN CHOICE, log 10, log 7). In SCANNING and FAULT
it only sets STATE_REJECT (R148). -/
def Obligations.AdcRequestSendsOneByte : Prop :=
  (decodeCmd 0x00000060 = .adcRequest .a ∧ decodeCmd 0x00000061 = .adcRequest .b) ∧
  ∀ (s : State) (d : Dev),
    (s.state = .idle ∨ s.state = .done →
      ∃ t rx, exec (.adcRequest d) s = .next t ∧ rx.length = 1 ∧
        t = { s with
          hist := s.hist ++ [.xfer d [reqByte s.params.channels] rx]
          cs := s.cs.set d false
          pins := s.pins ++ [.cs d true, .data (s.lane d) (reqByte s.params.channels), .cs d false]
          draws := s.draws + 1 }) ∧
    (s.state = .scanning ∨ s.state = .fault → exec (.adcRequest d) s = .next { s with err := s.err ||| 0x02 })

/-- The half of A is bytes 0 on of the row buffer, that of B bytes CHANNELS_PER_ADC on (R90, R146). ADC_READ d in IDLE
or DONE: one read transaction, its samples in half d, the other bytes of the row buffer and everything else unchanged;
what the environment placed for the transaction is what is received (R146, R149; the placed answers, the draws and the
record of the pins are the model's own, DESIGN CHOICE, log 7, log 10). -/
def Obligations.AdcReadFillsItsHalf : Prop :=
  (∀ p : Params, halfBase p .a = 0 ∧ halfBase p .b = p.channels) ∧
  ∀ (s : State) (d : Dev), s.state = .idle ∨ s.state = .done →
    ∃ t rx, exec (.adcRead d) s = .next t ∧ rx.length = 2 * s.params.channels ∧
      (∀ i, i < rx.length → i < ((s.answers.get d).headD []).length → rx[i]? = ((s.answers.get d).headD [])[i]?) ∧
      t = { s with
        rowbuf := t.rowbuf
        hist := s.hist ++ [.xfer d (List.replicate (2 * s.params.channels) 0) rx]
        cs := s.cs.set d false
        pins := s.pins ++ [.cs d true] ++ List.replicate (2 * s.params.channels) (.data (s.lane d) 0) ++ [.cs d false]
        answers := s.answers.set d (s.answers.get d).tail
        draws := t.draws } ∧
      (∀ j, j < s.params.channels →
        t.rowbufAt (halfBase s.params d + j) = deint (rx.getD (2 * j) 0) (rx.getD (2 * j + 1) 0)) ∧
      (∀ k, k < halfBase s.params d ∨ halfBase s.params d + s.params.channels ≤ k → t.rowbufAt k = s.rowbufAt k) ∧
      (∀ k, t.frameAt k = s.frameAt k ∧ t.qoutAt k = s.qoutAt k)

/-- Each wire row is one transaction with its device: the request byte, the setup byte, or ADC_RESPONSE_LENGTH null
bytes; one byte is received for each byte sent, and only the history changes, and the model's own answers, draws and
record of the pins (R20, R119; a wire byte as an instruction of its own is the model's choice, log 9, as are its CCCC
and X where the block sends others, log 19, and the record, log 7, log 10). The pins go chip-select, bytes, chip-select
(R20), the bytes on the device's own link with WIRING = DUAL and on the shared one with SHARED (R140). -/
def Obligations.WireRowsMakeOneTransaction : Prop :=
  ∀ (s : State) (d : Dev),
    ((s.config.wiring = false → s.lane d = .own d) ∧ (s.config.wiring = true → s.lane d = .shared)) ∧
    (∀ cccc : BitVec 4, ∃ t rx, exec (.adcConv d cccc) s = .next t ∧ rx.length = 1 ∧
      t = { s with
        hist := s.hist ++ [.xfer d [convByte cccc] rx]
        cs := s.cs.set d false
        pins := s.pins ++ [.cs d true, .data (s.lane d) (convByte cccc), .cs d false]
        draws := s.draws + 1 }) ∧
    (∀ x : BitVec 6, ∃ t rx, exec (.adcSetup d x) s = .next t ∧ rx.length = 1 ∧
      t = { s with
        hist := s.hist ++ [.xfer d [setupByte x] rx]
        cs := s.cs.set d false
        pins := s.pins ++ [.cs d true, .data (s.lane d) (setupByte x), .cs d false]
        draws := s.draws + 1 }) ∧
    (∃ t rx, exec (.adcNull d) s = .next t ∧ rx.length = 2 * s.params.channels ∧
      t = { s with
        hist := s.hist ++ [.xfer d (List.replicate (2 * s.params.channels) 0) rx]
        cs := s.cs.set d false
        pins := s.pins ++ [.cs d true] ++ List.replicate (2 * s.params.channels) (.data (s.lane d) 0) ++ [.cs d false]
        answers := s.answers.set d (s.answers.get d).tail
        draws := t.draws })

/-- HANDSHAKE_START in HS_IDLE, whatever the scan does: HS_IDX = 0, HS_SEND, nothing else; otherwise STATE_REJECT
only (R241). -/
def Obligations.HandshakeStartBegins : Prop :=
  decodeCmd 0x00000080 = .handshakeStart ∧
  ∀ s : State,
    (s.hsState = .idle → exec .handshakeStart s = .next { s with hsIdx := 0, hsState := .send }) ∧
    (s.hsState ≠ .idle → exec .handshakeStart s = .next { s with err := s.err ||| 0x02 })

/-! ## The scan engine -/

/-- ISSUE in SCANNING and ISSUE: both requests, A first, both pending, edges and counters cleared, PHASE = WAIT, and
the model's own record of the pins and number of draws (DESIGN CHOICE, log 10, log 7); in every other state it is not
enabled and its turn changes nothing (R200; log 12). -/
def Obligations.IssueRequestsBothAdcs : Prop :=
  ∀ s : State,
    (s.state = .scanning → s.phase = .issue → ∃ t ra rb, s.takeTurn (.seq .issue) = .next t ∧
      ra.length = 1 ∧ rb.length = 1 ∧
      t = { s with
        hist := s.hist ++ [.xfer .a [reqByte s.params.channels] ra, .xfer .b [reqByte s.params.channels] rb]
        pend := ⟨true, true⟩
        edge := ⟨false, false⟩
        cnt := ⟨0, 0⟩
        phase := .wait
        cs := .both false
        pins := s.pins ++
          [.cs .a true, .data (s.lane .a) (reqByte s.params.channels), .cs .a false, .cs .b true,
            .data (s.lane .b) (reqByte s.params.channels), .cs .b false]
        draws := s.draws + 2 }) ∧
    (¬ (s.state = .scanning ∧ s.phase = .issue) → ¬ s.Enabled .issue ∧ s.takeTurn (.seq .issue) = .next s)

/-- An ADC is complete when it is pending and, in EDGE mode, its edge is latched, or, in LEVEL mode, its line is low
(R190). SERVICE(d) of a complete ADC (for B, with A not complete): its response goes to its half of the row buffer, its
flag, edge and counter are cleared, PHASE = HANDOFF exactly when the other ADC is not pending; otherwise it is not
enabled and its turn changes nothing (R201, R202; the placed answers, the draws, the record of the pins and the idle
turn are the model's own, DESIGN CHOICE, log 7, log 10, log 12). -/
def Obligations.ServiceReadsAndJoins : Prop :=
  ∀ (s : State) (d : Dev),
    (s.config.eocMode = true → (s.cond d = true ↔ s.pend.get d = true ∧ s.edge.get d = true)) ∧
    (s.config.eocMode = false → (s.cond d = true ↔ s.pend.get d = true ∧ s.eoc.get d = false)) ∧
    (s.state = .scanning → s.phase = .wait → s.cond d = true → (d = .b → s.cond .a = false) →
      ∃ t rx, s.takeTurn (.seq (.service d)) = .next t ∧ rx.length = 2 * s.params.channels ∧
        (∀ i, i < rx.length → i < ((s.answers.get d).headD []).length → rx[i]? = ((s.answers.get d).headD [])[i]?) ∧
        t = { s with
          rowbuf := t.rowbuf
          hist := s.hist ++ [.xfer d (List.replicate (2 * s.params.channels) 0) rx]
          pend := s.pend.set d false
          edge := s.edge.set d false
          cnt := s.cnt.set d 0
          phase := if s.pend.get d.other then .wait else .handoff
          cs := s.cs.set d false
          pins := s.pins ++ [.cs d true] ++ List.replicate (2 * s.params.channels) (.data (s.lane d) 0) ++ [.cs d false]
          answers := s.answers.set d (s.answers.get d).tail
          draws := t.draws } ∧
        (∀ j, j < s.params.channels →
          t.rowbufAt (halfBase s.params d + j) = deint (rx.getD (2 * j) 0) (rx.getD (2 * j + 1) 0)) ∧
        (∀ k, k < halfBase s.params d ∨ halfBase s.params d + s.params.channels ≤ k →
          t.rowbufAt k = s.rowbufAt k)) ∧
    (¬ (s.state = .scanning ∧ s.phase = .wait ∧ s.cond d = true ∧ (d = .b → s.cond .a = false)) →
      ¬ s.Enabled (.service d) ∧ s.takeTurn (.seq (.service d)) = .next s)

/-- HANDOFF in FRAME mode: the row buffer's bytes become row col of the frame, every other byte of the frame stays;
the last column finishes the scan with col and chain kept, any other advances the chain and the column (R203, R205,
R206, R89; the recorded pins of the shift, after R176, are the model's own, DESIGN CHOICE, log 10). -/
def Obligations.HandoffWritesFrameRow : Prop :=
  ∀ s : State, s.state = .scanning → s.phase = .handoff → s.config.mode = false →
    ∃ t, s.takeTurn (.seq .handoff) = .next t ∧
      (∀ j, j < s.params.rowWidth → t.frameAt (s.col.toNat * s.params.rowWidth + j) = s.rowbufAt j) ∧
      (∀ k, k < s.col.toNat * s.params.rowWidth ∨ s.col.toNat * s.params.rowWidth + s.params.rowWidth ≤ k →
        t.frameAt k = s.frameAt k) ∧
      (s.col = s.params.lastCol → t = { s with frame := t.frame, state := .done, phase := .issue }) ∧
      (s.col ≠ s.params.lastCol → t =
        { s with
          frame := t.frame
          chain := (s.chainShift false).chain
          hist := s.hist ++ [.shift false]
          pins := s.pins ++ [.serialIn false, .clockPulse]
          col := s.col + 1
          phase := .issue })

/-- HANDOFF in QUEUE mode with room: a copy of the row buffer joins the end of the queue under its tag, the frame
stays; then as in FRAME mode (R203, R205, R206, R231, R120; the recorded pins of the shift, after R176, are the model's
own, DESIGN CHOICE, log 10). -/
def Obligations.HandoffPushesRowCopy : Prop :=
  ∀ s : State, s.state = .scanning → s.phase = .handoff → s.config.mode = true → s.q.length < s.params.qCap →
    ∃ t row tag, s.takeTurn (.seq .handoff) = .next t ∧ row.length = s.params.rowWidth ∧
      (∀ j, j < s.params.rowWidth → row[j]? = some (s.rowbufAt j)) ∧
      tag.extractLsb' 0 6 = s.col ∧ tag.getLsbD 8 = decide (s.col = s.params.lastCol) ∧
      tag &&& 0xFFFFFEC0 = 0 ∧
      (s.col = s.params.lastCol → t = { s with q := s.q ++ [⟨row, tag⟩], state := .done, phase := .issue }) ∧
      (s.col ≠ s.params.lastCol → t =
        { s with
          q := s.q ++ [⟨row, tag⟩]
          chain := (s.chainShift false).chain
          hist := s.hist ++ [.shift false]
          pins := s.pins ++ [.serialIn false, .clockPulse]
          col := s.col + 1
          phase := .issue })

/-- With QUEUE mode and a full queue HANDOFF is not enabled and its turn changes nothing (R24; that such a turn answers
an unchanged next state is the model's choice, DESIGN CHOICE, log 12): the scan waits in HANDOFF with
STATUS.HANDOFF_STALL = 1, ticks do not count, no request can be sent, and a pop, which leaves the row in the row buffer,
enables it again (R204). -/
def Obligations.FullQueueStallsHandoff : Prop :=
  ∀ s : State, s.state = .scanning → s.phase = .handoff → s.config.mode = true → s.q.length = s.params.qCap →
    ¬ s.Enabled .handoff ∧ s.takeTurn (.seq .handoff) = .next s ∧ s.takeTurn .tick = .next s ∧
      ¬ s.Enabled .issue ∧ s.statusWord.getLsbD 11 = true ∧
      ∃ tag t, s.popRow = some (tag, t) ∧ t.rowbuf = s.rowbuf ∧ t.Enabled .handoff

/-- TICK: counts in SCANNING and WAIT and nowhere else; an ADC that reaches a nonzero TIMEOUT sets its error bit and
the scan enters FAULT with A's cause where A timed out; nothing else changes (R209, R306). -/
def Obligations.TickCountsAndFaults : Prop :=
  ∀ s : State,
    (¬ (s.state = .scanning ∧ s.phase = .wait) → s.takeTurn .tick = .next s) ∧
    (s.state = .scanning → s.phase = .wait →
      (s.tickTimesOut .a = false → s.tickTimesOut .b = false → s.takeTurn .tick = .next
        { s with cnt := ⟨BitVec.ofNat 32 (s.tickCount .a), BitVec.ofNat 32 (s.tickCount .b)⟩ }) ∧
      (∀ d, s.tickTimesOut d = true → (d = .b → s.tickTimesOut .a = false) → s.takeTurn .tick = .next
        { s with
          err := s.err ||| (if s.tickTimesOut .a then 0x20 else 0) ||| (if s.tickTimesOut .b then 0x40 else 0)
          faultReg := faultWordOf (match d with | .a => 1 | .b => 2) s.col s.pend.a s.pend.b
          state := .fault
          phase := .issue
          pend := ⟨false, false⟩
          edge := ⟨false, false⟩
          cnt := ⟨0, 0⟩ }))

/-- The inputs. EOC_DRIVE sets the level; a falling edge latches in EDGE mode for a pending ADC, is reported for one not
pending during a scan, and is otherwise ignored; nothing else changes (R151, R152). PINS sets LINK_READY and SR_OUT to
any level and changes nothing else (R13). -/
def Obligations.InputTurnsSetLevels : Prop :=
  ∀ s : State,
    (∀ (d : Dev) (v : Bool), ∃ t, s.takeTurn (.eocDrive d v) = .next t ∧
      t = { s with
        eoc := s.eoc.set d v
        edge := if s.eoc.get d = true ∧ v = false ∧ s.state = .scanning ∧ s.pend.get d = true ∧ s.config.eocMode = true
          then s.edge.set d true else s.edge
        err := if s.eoc.get d = true ∧ v = false ∧ s.state = .scanning ∧ s.pend.get d = false
          then s.err ||| 0x08 else s.err }) ∧
    (∀ v : Bool, s.takeTurn (.linkReady v) = .next { s with linkReady := v }) ∧
    (∀ v : Bool, s.takeTurn (.srOut v) = .next { s with srOut := v })

/-- In FAULT no SEQ scan step is enabled, and its turn changes nothing (R24; that such a turn answers an unchanged next
state is the model's choice, DESIGN CHOICE, log 12), so the partly assembled row is not delivered; TICK changes nothing
and an EOC edge only the level; a QTAG read still pops; HS_SEND and HS_CHECK are enabled as they would be elsewhere; and
the accepted commands are NOP, CHAIN_CLEAR, FAULT_CLEAR and HANDSHAKE_START (R307). -/
def Obligations.FaultHoldsTheScan : Prop :=
  ∀ s : State, s.state = .fault →
    (∀ k, k = .issue ∨ k = .service .a ∨ k = .service .b ∨ k = .handoff →
      ¬ s.Enabled k ∧ s.takeTurn (.seq k) = .next s) ∧
    s.takeTurn .tick = .next s ∧
    (∀ d v, s.takeTurn (.eocDrive d v) = .next { s with eoc := s.eoc.set d v }) ∧
    (∀ e rest, s.q = e :: rest → ∃ t, s.busRead ⟨0x040, 4, .read⟩ = some (e.tag, t) ∧ t.q = rest) ∧
    (∀ k, k = .hsSend ∨ k = .hsCheck → ∀ st, (s.Enabled k ↔ State.Enabled { s with state := st } k)) ∧
    (∀ w : Word, isCommandWord w = true →
      (accepted (decodeCmd w) s = true ↔ decodeCmd w = .nop ∨ decodeCmd w = .chainClear ∨ decodeCmd w = .faultClear ∨
        (decodeCmd w = .handshakeStart ∧ s.hsState = .idle)))

/-! ## Whole-machine rules of the scan -/

/-- Every step keeps STATE and PHASE, or is one of the rows of the transition table (R208). -/
def Obligations.ScanTransitionsFollowTable : Prop :=
  ∀ s t : State, s.linkPort = none → step s = .next t →
    (t.state = s.state ∧ t.phase = s.phase) ∨
    (s.nextCommand = some .startScan ∧ (s.state = .idle ∨ s.state = .done) ∧
      t.state = .scanning ∧ t.phase = .issue ∧ t.col = 0) ∨
    (s.nextTurn.1 = .seq .issue ∧ s.state = .scanning ∧ s.phase = .issue ∧ t.state = .scanning ∧ t.phase = .wait) ∨
    (∃ d : Dev, s.nextTurn.1 = .seq (.service d) ∧ s.state = .scanning ∧ s.phase = .wait ∧
      s.pend.get d.other = false ∧ t.state = .scanning ∧ t.phase = .handoff) ∨
    (s.nextTurn.1 = .tick ∧ s.state = .scanning ∧ s.phase = .wait ∧ t.state = .fault ∧ t.phase = .issue) ∨
    (s.nextTurn.1 = .seq .handoff ∧ s.state = .scanning ∧ s.phase = .handoff ∧ s.col ≠ s.params.lastCol ∧
      t.state = .scanning ∧ t.phase = .issue ∧ t.col = s.col + 1) ∨
    (s.nextTurn.1 = .seq .handoff ∧ s.state = .scanning ∧ s.phase = .handoff ∧ s.col = s.params.lastCol ∧
      t.state = .done ∧ t.phase = .issue) ∨
    (s.nextCommand = some .faultClear ∧ s.state = .fault ∧ t.state = .idle ∧ t.phase = .issue) ∨
    (s.nextTurn.1 = .reset ∧ t.state = .idle ∧ t.phase = .issue)

/-- An ERR bit that is set stays set over every step but a write of ERR, which clears the bits it names, and RESET
(R43, R275). -/
def Obligations.ErrorBitsAreSticky : Prop :=
  ∀ s t : State, s.linkPort = none → step s = .next t →
    s.err &&& t.err = s.err ∨ (∃ v, s.nextWrites .err v ∧ t.err = s.err &&& ~~~(v.setWidth 8)) ∨
      (s.nextTurn.1 = .reset ∧ t.err = 0)

/-- During a scan no step but RESET changes CONFIG or TIMEOUT: one scan runs under one configuration (R276). -/
def Obligations.OneConfigurationPerScan : Prop :=
  ∀ s t : State, s.linkPort = none → step s = .next t → s.state = .scanning → s.nextTurn.1 ≠ .reset →
    t.config = s.config ∧ t.timeout = s.timeout

/-- A bus access that writes no command to CMD leaves the scan cursor, the pending flags, the row buffer, the frame
and the scan state alone (R98). -/
def Obligations.BusNeverWritesScanState : Prop :=
  ∀ s t : State, s.linkPort = none → step s = .next t → s.nextAccess.isSome = true → s.nextCommand = none →
    t.state = s.state ∧ t.phase = s.phase ∧ t.col = s.col ∧ t.pend = s.pend ∧ t.edge = s.edge ∧ t.cnt = s.cnt ∧
      t.chain = s.chain ∧ (∀ k, t.rowbufAt k = s.rowbufAt k) ∧ (∀ k, t.frameAt k = s.frameAt k) ∧ t.hist = s.hist

/-! ## The queue, the mailbox and the handshake -/

/-- A QTAG read pops the head, returns its tag and copies its payload into the consumer latch; nothing else changes
(R233). -/
def Obligations.QtagReadPopsHead : Prop :=
  ∀ (s : State) (e : Entry) (rest : List Entry), s.q = e :: rest →
    ∃ t, s.busRead ⟨0x040, 4, .read⟩ = some (e.tag, t) ∧ t = { s with q := rest, qout := t.qout } ∧
      ∀ j, j < e.payload.length → e.payload[j]? = some (t.qoutAt j)

/-- A QTAG read of an empty queue and an MB_TX read of an empty channel stall: the access stays the master's oldest
and nothing of the block changes (R234, R239). -/
def Obligations.EmptyChannelsStallReads : Prop :=
  ∀ (s : State) (m : MasterId) (acc : BusAccess) (rest : List BusAccess) (ts : List Turn),
    s.linkPort = none → (s.master m).waiting = acc :: rest → s.turns = .retry m :: ts →
    (acc = ⟨0x040, 4, .read⟩ ∧ s.q = []) ∨ (acc = ⟨0x038, 4, .read⟩ ∧ s.mbTx.valid = false) →
    step s = .next { s with turns := ts }

/-- The queue changes only at its ends: HANDOFF appends the row, a QTAG read takes the head, RESET empties it; so
rows are popped in push order, none lost, none repeated (R96). -/
def Obligations.QueueIsFifo : Prop :=
  ∀ s t : State, s.linkPort = none → step s = .next t →
    t.q = s.q ∨
    (s.nextTurn.1 = .seq .handoff ∧ s.state = .scanning ∧
      t.q = s.q ++ [⟨s.rowBytes, rowTag s.params s.col⟩]) ∨
    (s.nextReads .qtag ∧ ∃ e, s.q = e :: t.q ∧ ∀ j, j < e.payload.length → e.payload[j]? = some (t.qoutAt j)) ∨
    (s.nextTurn.1 = .reset ∧ t.q = [])

/-- An MB_TX read of a full channel empties it and returns its word (R239); an MB_RX write is accepted in HS_WAIT
into an empty channel, and otherwise only sets MB_DROP (R240). -/
def Obligations.MailboxTakesAndDrops : Prop :=
  ∀ s : State,
    (s.mbTx.valid = true →
      s.busRead ⟨0x038, 4, .read⟩ = some (s.mbTx.data, { s with mbTx := ⟨false, s.mbTx.data⟩ })) ∧
    (∀ v : Word, s.hsState = .wait → s.mbRx.valid = false →
      s.busWrite ⟨0x03C, 4, .write v⟩ v = .next { s with mbRx := ⟨true, v⟩ }) ∧
    (∀ v : Word, s.hsState ≠ .wait ∨ s.mbRx.valid = true →
      s.busWrite ⟨0x03C, 4, .write v⟩ v = .next { s with err := s.err ||| 0x10 })

/-- HS_SEND puts the indexed word into MB_TX and waits (R242); HS_CHECK compares the echo, advances on a match, ends
after the third word, and sends again on a mismatch (R243). Outside their guards, HS_DONE among these cases (R244),
neither is enabled, and its turn changes nothing (log 12). The index names a word wherever a run sends or awaits one
(log 11). -/
def Obligations.HandshakeSendsAndChecks : Prop :=
  ∀ s : State,
    (s.hsIdx.toNat < 3 →
      (s.hsState = .send → s.mbTx.valid = false → s.takeTurn (.seq .hsSend) = .next
        { s with
          mbTx := ⟨true, [s.hsVec, s.hsSp, s.hsEntry].getD s.hsIdx.toNat 0⟩
          hsState := .wait }) ∧
      (s.hsState = .wait → s.mbRx.valid = true →
        (s.mbRx.data = [s.hsVec, s.hsSp, s.hsEntry].getD s.hsIdx.toNat 0 → s.takeTurn (.seq .hsCheck) = .next
          { s with
            mbRx := ⟨false, s.mbRx.data⟩
            hsIdx := s.hsIdx + 1
            hsState := if s.hsIdx = 2 then .done else .send }) ∧
        (s.mbRx.data ≠ [s.hsVec, s.hsSp, s.hsEntry].getD s.hsIdx.toNat 0 → s.takeTurn (.seq .hsCheck) = .next
          { s with mbRx := ⟨false, s.mbRx.data⟩, hsState := .send }))) ∧
    (¬ (s.hsState = .send ∧ s.mbTx.valid = false) → ¬ s.Enabled .hsSend ∧ s.takeTurn (.seq .hsSend) = .next s) ∧
    (¬ (s.hsState = .wait ∧ s.mbRx.valid = true) → ¬ s.Enabled .hsCheck ∧ s.takeTurn (.seq .hsCheck) = .next s)

/-- The handshake index moves only by a correct echo, by HANDSHAKE_START and by RESET; HS_DONE is entered only by
the echo of the last word (R244, R246). -/
def Obligations.HandshakeAdvancesOnlyOnEcho : Prop :=
  ∀ s t : State, s.linkPort = none → step s = .next t →
    (t.hsIdx ≠ s.hsIdx →
      (s.nextTurn.1 = .seq .hsCheck ∧ s.hsState = .wait ∧ s.mbRx.valid = true ∧ s.hsWord = some s.mbRx.data ∧
        t.hsIdx = s.hsIdx + 1) ∨
      (s.nextCommand = some .handshakeStart ∧ s.hsState = .idle ∧ t.hsIdx = 0) ∨
      (s.nextTurn.1 = .reset ∧ t.hsIdx = 0)) ∧
    (t.hsState = .done → s.hsState ≠ .done →
      s.nextTurn.1 = .seq .hsCheck ∧ s.hsIdx = 2 ∧ s.hsWord = some s.mbRx.data) ∧
    (s.hsState = .done → t.hsState = .done ∨ s.nextTurn.1 = .reset)

/-- While a handshake runs no step but RESET changes the three words (R277, R241). -/
def Obligations.HandshakeWordsStayFixed : Prop :=
  ∀ s t : State, s.linkPort = none → step s = .next t → s.hsState = .send ∨ s.hsState = .wait →
    s.nextTurn.1 ≠ .reset → t.hsVec = s.hsVec ∧ t.hsSp = s.hsSp ∧ t.hsEntry = s.hsEntry

/-! ## The bus -/

/-- A bad access (wrong width, misaligned, unmapped, or a write to a read-only register or window) sets BAD_ACCESS
and changes nothing else; a bad read returns 0 (R84). -/
def Obligations.BadAccessesOnlySetTheirBit : Prop :=
  ∀ (s : State) (acc : BusAccess),
    (acc.bytes ≠ 4 ∨ acc.off.toNat % 4 ≠ 0 ∨ regAt s.params acc.off.toNat = none →
      s.busRead acc = some (0, { s with err := s.err ||| 0x80 }) ∧
      ∀ v, s.busWrite acc v = .next { s with err := s.err ||| 0x80 }) ∧
    (∀ (r : Reg) (v : Word), acc.target s.params = some r →
      r ≠ .cmd → r ≠ .err → r ≠ .config → r ≠ .timeout → r ≠ .hsVec → r ≠ .hsSp → r ≠ .hsEntry → r ≠ .mbRx →
      s.busWrite acc v = .next { s with err := s.err ||| 0x80 })

/-- The register map: every register stands at its offset, and an aligned offset is unmapped exactly where R59 lists
nothing (R54, R56, R59). -/
def Obligations.RegisterMapIsTheTable : Prop :=
  ∀ p : Params,
    (∀ r : Reg, (∀ k, r = .rowbuf k → 4 * k < p.rowWidth) → (∀ k, r = .qout k → 4 * k < p.rowWidth) →
      (∀ k, r = .frame k → 4 * k < p.frameBytes) → regAt p r.offset.toNat = some r) ∧
    (∀ off : Nat, off % 4 = 0 →
      (regAt p off = none ↔ 0x040 < off ∧ ¬ (0x080 ≤ off ∧ off < 0x080 + 4 * ((p.rowWidth + 3) / 4)) ∧
        ¬ (0x0C0 ≤ off ∧ off < 0x0C0 + 4 * ((p.rowWidth + 3) / 4)) ∧
        ¬ (0x1000 ≤ off ∧ off < 0x1000 + 4 * ((p.frameBytes + 3) / 4))))

/-- A read of a mapped register other than QTAG and MB_TX returns its value and changes nothing, and CMD and MB_RX read
0 (R85, R279). -/
def Obligations.PlainReadsChangeNothing : Prop :=
  ∀ (s : State) (acc : BusAccess) (r : Reg), acc.target s.params = some r → r ≠ .qtag → r ≠ .mbTx →
    s.busRead acc = some (s.readReg r, s) ∧ (r = .cmd ∨ r = .mbRx → s.readReg r = 0)

/-- Every field of STATUS shows its piece of state, and bits 31..22 are 0; after reset it reads 0x00000200 but for the
input bits 7, 8, 18 and 19 (R46). -/
def Obligations.StatusShowsItsFields : Prop :=
  State.reset.statusWord &&& 0xFFF3FE7F = 0x00000200 ∧
  ∀ s : State, s.busRead ⟨0x004, 4, .read⟩ = some (s.statusWord, s) ∧
    s.statusWord.extractLsb' 0 2 = (match s.state with | .idle => 0 | .scanning => 1 | .done => 2 | .fault => 3) ∧
    s.statusWord.getLsbD 2 = decide (s.state = .scanning) ∧
    s.statusWord.extractLsb' 3 2 = (match s.phase with | .issue => 0 | .wait => 1 | .handoff => 2) ∧
    s.statusWord.getLsbD 5 = s.pend.a ∧ s.statusWord.getLsbD 6 = s.pend.b ∧
    s.statusWord.getLsbD 7 = s.eoc.a ∧ s.statusWord.getLsbD 8 = s.eoc.b ∧
    s.statusWord.getLsbD 9 = decide (s.q.length = 0) ∧
    s.statusWord.getLsbD 10 = decide (s.q.length = s.params.qCap) ∧
    s.statusWord.getLsbD 11 = decide (s.state = .scanning ∧ s.phase = .handoff ∧ s.config.mode = true ∧
      s.q.length = s.params.qCap) ∧
    s.statusWord.extractLsb' 12 2 = (match s.hsState with | .idle => 0 | .send => 1 | .wait => 2 | .done => 3) ∧
    s.statusWord.extractLsb' 14 2 = s.hsIdx ∧
    s.statusWord.getLsbD 16 = s.mbTx.valid ∧ s.statusWord.getLsbD 17 = s.mbRx.valid ∧
    s.statusWord.getLsbD 18 = s.srOut ∧ s.statusWord.getLsbD 19 = s.linkReady ∧
    s.statusWord.getLsbD 20 = s.edge.a ∧ s.statusWord.getLsbD 21 = s.edge.b ∧
    s.statusWord.extractLsb' 22 10 = 0

/-- The other read-only and read/write registers as the bus reads them (R43 to R45, R47 to R52). -/
def Obligations.RegistersReadTheirFields : Prop :=
  ∀ s : State,
    (s.readReg .err).extractLsb' 0 8 = s.err ∧ (s.readReg .err).extractLsb' 8 24 = 0 ∧
    ((s.readReg .config).getLsbD 0 = s.config.mode ∧ (s.readReg .config).getLsbD 1 = s.config.eocMode ∧
      (s.readReg .config).getLsbD 2 = s.config.wiring ∧ (s.readReg .config).getLsbD 3 = s.config.clrPol ∧
      (s.readReg .config).extractLsb' 4 28 = 0) ∧
    s.readReg .timeout = s.timeout ∧
    (s.readReg .col).toNat = s.col.toNat ∧
    (∀ i, i < 32 →
      (s.readReg .chain0).getLsbD i = (decide (i < s.params.colHeight) && s.chain.getLsbD i) ∧
      (s.readReg .chain1).getLsbD i = (decide (32 + i < s.params.colHeight) && s.chain.getLsbD (32 + i))) ∧
    s.readReg .fault = s.faultReg ∧
    (s.q.length ≤ s.params.qCap → (s.readReg .qcount).toNat = s.q.length) ∧
    (s.readReg .hsVec = s.hsVec ∧ s.readReg .hsSp = s.hsSp ∧ s.readReg .hsEntry = s.hsEntry) ∧
    (((s.readReg .param).extractLsb' 0 8).toNat = s.params.colHeight ∧
      ((s.readReg .param).extractLsb' 8 8).toNat = s.params.channels ∧
      ((s.readReg .param).extractLsb' 16 16).toNat = s.params.qCap)

/-- Byte i of window word k is byte 4k+i of the array, and 0 at or past its end (R83); the three windows show the
row buffer, the consumer latch and the frame (R54, R56). -/
def Obligations.WindowsPackLittleEndian : Prop :=
  ∀ (s : State) (k i : Nat), i < 4 →
    (s.readReg (.rowbuf k)).extractLsb' (8 * i) 8 =
      (if 4 * k + i < s.params.rowWidth then s.rowbufAt (4 * k + i) else 0) ∧
    (s.readReg (.qout k)).extractLsb' (8 * i) 8 =
      (if 4 * k + i < s.params.rowWidth then s.qoutAt (4 * k + i) else 0) ∧
    (s.readReg (.frame k)).extractLsb' (8 * i) 8 =
      (if 4 * k + i < s.params.frameBytes then s.frameAt (4 * k + i) else 0)

/-- A write of ERR clears where v has a 1, in every state (R275); of CONFIG and TIMEOUT is taken outside SCANNING (R276);
of the HS words is taken unless a handshake runs (R277). Nothing else changes, and a refused write only sets
STATE_REJECT. -/
def Obligations.RegisterWritesObeyTheirGuards : Prop :=
  ∀ (s : State) (v : Word),
    (∃ t, s.writeAt .err v = .next t ∧ t = { s with err := t.err } ∧
      ∀ i, i < 8 → t.err.getLsbD i = (s.err.getLsbD i && !v.getLsbD i)) ∧
    (s.state ≠ .scanning →
      s.writeAt .config v = .next
        { s with config := ⟨v.getLsbD 0, v.getLsbD 1, v.getLsbD 2, v.getLsbD 3⟩ } ∧
      s.writeAt .timeout v = .next { s with timeout := v }) ∧
    (s.state = .scanning → ∀ r, r = .config ∨ r = .timeout →
      s.writeAt r v = .next { s with err := s.err ||| 0x02 }) ∧
    (s.hsState = .idle ∨ s.hsState = .done →
      s.writeAt .hsVec v = .next { s with hsVec := v } ∧ s.writeAt .hsSp v = .next { s with hsSp := v } ∧
      s.writeAt .hsEntry v = .next { s with hsEntry := v }) ∧
    (s.hsState = .send ∨ s.hsState = .wait → ∀ r, r = .hsVec ∨ r = .hsSp ∨ r = .hsEntry →
      s.writeAt r v = .next { s with err := s.err ||| 0x02 })

/-! ## Reset and the invariants -/

/-- RESET gives every piece of the block's state its reset value, pulses the clear line with the polarity
CLR_POL_RESET, and leaves the parameters, the inputs and the masters' waiting accesses (R60, R340; the unwritten bytes
as free values and the recorded pins are the model's own, DESIGN CHOICE, log 6, log 10). -/
def Obligations.ResetStepClearsTheBlock : Prop :=
  ∀ s : State, ∃ t, s.takeTurn .reset = .next t ∧
    (t.state = .idle ∧ t.phase = .issue ∧ t.col = 0 ∧ t.pend = ⟨false, false⟩ ∧ t.edge = ⟨false, false⟩ ∧
      t.cnt = ⟨0, 0⟩ ∧ t.chain = 0 ∧ t.q = [] ∧ t.err = 0 ∧ t.faultReg = 0) ∧
    t.config = ⟨true, true, false, s.params.clrPolReset⟩ ∧ t.timeout = s.params.timeoutReset ∧ t.timeout ≠ 0 ∧
    (t.hsVec = 0 ∧ t.hsSp = 0 ∧ t.hsEntry = 0 ∧ t.hsState = .idle ∧ t.hsIdx = 0 ∧ t.mbTx = ⟨false, 0⟩ ∧
      t.mbRx = ⟨false, 0⟩ ∧ t.cs = ⟨false, false⟩ ∧ t.hist = []) ∧
    (t.params = s.params ∧ t.eoc = s.eoc ∧ t.linkReady = s.linkReady ∧ t.srOut = s.srOut ∧ t.ctrl = s.ctrl ∧
      t.cons = s.cons) ∧
    t.pins = [.clear (!s.params.clrPolReset), .clear s.params.clrPolReset] ∧
    ∀ k, t.rowbufAt k = Config.rowbufByte t.epoch k ∧ t.frameAt k = Config.frameByte t.epoch k ∧
      t.qoutAt k = Config.qoutByte t.epoch k

/-- The state after reset with the reference geometry (log 2): the values R60 gives, CLR_POL and TIMEOUT being the OPEN
parameters CLR_POL_RESET and TIMEOUT_RESET, and PARAM reads 0x00700E38 (R52, R60). -/
def Obligations.ResetStateIsTheSpecs : Prop :=
  (State.reset.state = .idle ∧ State.reset.phase = .issue ∧ State.reset.col = 0 ∧
    State.reset.pend = ⟨false, false⟩ ∧ State.reset.edge = ⟨false, false⟩ ∧ State.reset.cnt = ⟨0, 0⟩ ∧
    State.reset.chain = 0 ∧ State.reset.q = [] ∧ State.reset.hist = []) ∧
  (State.reset.readReg .err = 0 ∧ State.reset.readReg .fault = 0 ∧ State.reset.readReg .col = 0 ∧
    State.reset.readReg .chain0 = 0 ∧ State.reset.readReg .chain1 = 0 ∧ State.reset.readReg .qcount = 0 ∧
    State.reset.readReg .param = 0x00700E38) ∧
  (State.reset.config.mode = true ∧ State.reset.config.eocMode = true ∧ State.reset.config.wiring = false) ∧
  State.reset.config.clrPol = State.reset.params.clrPolReset ∧
  (State.reset.timeout = State.reset.params.timeoutReset ∧ State.reset.timeout ≠ 0) ∧
  (State.reset.hsVec = 0 ∧ State.reset.hsSp = 0 ∧ State.reset.hsEntry = 0 ∧ State.reset.hsState = .idle ∧
    State.reset.hsIdx = 0 ∧ State.reset.mbTx = ⟨false, 0⟩ ∧ State.reset.mbRx = ⟨false, 0⟩ ∧
    State.reset.cs = ⟨false, false⟩)

/-- The invariant of the block holds at reset (R60 and the rules of StepKeepsTheInvariant); its clauses on the data stores'
canonical form and on the chip-selects in the record of the pins are the model's own (DESIGN CHOICE, log 6, log 10). -/
def Obligations.InvariantHoldsAtReset : Prop := State.reset.Inv

/-- Every step keeps the invariant, from any state that has it: the cursor in range, WAIT exactly while an ADC is
pending, no counter past TIMEOUT, at most one column selected and during a scan the cursor's, FAULT recorded only in
FAULT, the handshake index in range and no echo held but an awaited one, the queue within Q_CAP (R33, R34, R42, R49,
R55, R152, R174, R209, R240); the data stores in the model's canonical form (DESIGN CHOICE, log 6), and no two
chip-selects at once (R57, R140), as the model's own record of the pins says it (DESIGN CHOICE, log 10). -/
def Obligations.StepKeepsTheInvariant : Prop :=
  ∀ s t : State, s.Inv → step s = .next t → t.Inv

/-- During a scan the history is the seed, then for each finished column both requests, then one read of each ADC,
then the shift, then what the current phase has made: no request of a column before both reads of the one before
it (R95, R210). -/
def Obligations.HistoryKeepsJoinOrder : Prop :=
  State.reset.JoinOrder ∧
    ∀ s t : State, s.linkPort = none → s.Inv → s.JoinOrder → step s = .next t → t.JoinOrder

/-- No row holds samples of two columns: from the requests of a column on, each half of the row buffer whose ADC was
read holds the samples of that read, the ADC's last transaction (R211, R95). -/
def Obligations.RowsHoldOneColumn : Prop :=
  State.reset.RowOk ∧ ∀ s t : State, s.linkPort = none → s.RowOk → step s = .next t → t.RowOk

/-- Every transaction in the history is a setup, request or read transaction, with one byte received for each sent
(R20, R119). -/
def Obligations.LinkCarriesThreeTransactions : Prop :=
  ∀ s t : State, s.linkPort = none → (∀ e ∈ s.hist, e.Legal s.params) → step s = .next t →
    ∀ e ∈ t.hist, e.Legal t.params

/-- From PHASE = ISSUE at any column, if each column's edges come after its requests and the queue has room in QUEUE
mode, the scan reaches DONE in eight turns for each column left (R207, R208, R356). R357's first claim: in any fair run
without RESET (R15) in which some time after each ISSUE each ADC drives EOC low, with a falling edge in EDGE mode, to the
scan that waits for it, and a full queue is popped, the scan reaches DONE, with any TIMEOUT; in LEVEL mode a ready line
holds, as R153 assumes (DEDUCED, log 20). So it does where the answers come within fewer than TIMEOUT ticks, and with
TIMEOUT = 0 whenever they come; a line driven low only after its ADC timed out is no answer: then a tick faulted the scan
(R209). -/
def Obligations.ScanReachesDone : Prop :=
  (∀ (s : State) (n : Nat) (rest : List Turn), s.linkPort = none → s.state = .scanning → s.phase = .issue →
    s.col.toNat + n = s.params.colHeight → 0 < n →
    (s.config.mode = true → s.q.length + n ≤ s.params.qCap) →
    s.turns = (List.replicate n columnTurns).flatten ++ rest →
    ∃ t, Host.Core.run Sys2Proof.core (8 * n) s = .next t ∧ t.state = .done ∧ t.phase = .issue ∧
      t.col = s.params.lastCol ∧ t.turns = rest ∧ t.err = s.err ∧
      t.q.length = s.q.length + (if s.config.mode then n else 0)) ∧
  (∀ (r : Nat → State) (u : Nat → Turn), FairScan r u → (r 0).phase = .issue → QueuePopped r →
    (AdcsAnswerAwaited r u → (r 0).config.eocMode = true ∨ ReadyLinesHold r → ∃ n, (r n).state = .done) ∧
    (AdcsAnswerInTime r u → ∃ n, (r n).state = .done) ∧
    (AdcsAnswer r u → (r 0).timeout = 0 → ∃ n, (r n).state = .done) ∧
    (AdcsAnswer r u → (∃ n, (r n).state = .done) ∨
      ∃ n d, u n = .tick ∧ (r n).tickTimesOut d = true ∧ (r (n + 1)).state = .fault)) ∧
  ¬ ∀ (r : Nat → State) (u : Nat → Turn), FairScan r u → (r 0).phase = .issue → QueuePopped r → AdcsAnswer r u →
    ∃ n, (r n).state = .done

/-- R357's second claim: with a timeout set and no ADC assumption, a scan of a fair run without RESET ends in DONE or FAULT,
or stalls for ever on a full queue that is never popped, in either EOC mode, where a SEQ step that stays enabled from tick
to tick is taken (R15, the time of R12; DEDUCED, log 20). Where only a step that is enabled at every single step is taken,
it ends or stalls in EDGE mode, in LEVEL mode where the lines settle, as R153 assumes, and in both where SEQ is strongly
fair; and the one run that does neither waits in LEVEL mode on an ADC whose EOC line goes low and high for ever between
two ticks, which such runs can do (R190, R201, R209). -/
def Obligations.FairScanEnds : Prop :=
  (∀ (r : Nat → State) (u : Nat → Turn), FairScan r u → (r 0).timeout ≠ 0 → FairAtTicks r u →
    ScanEnds r ∨ StallsForEver r) ∧
  (∀ (r : Nat → State) (u : Nat → Turn), FairScan r u → (r 0).timeout ≠ 0 →
    (ScanEnds r ∨ StallsForEver r ∨ ((r 0).config.eocMode = false ∧ ∃ d, TogglesForEver r d)) ∧
    ((r 0).config.eocMode = true ∨ LinesSettle r ∨ StronglyFair r u → ScanEnds r ∨ StallsForEver r)) ∧
  ¬ ∀ (r : Nat → State) (u : Nat → Turn), FairScan r u → (r 0).timeout ≠ 0 → ScanEnds r ∨ StallsForEver r
end

