-- ==== Sys2Proof/Laws/Bits.lean ====
section
/-! SUPPORT. Bits of words put together from fields: which part a bit of a concatenation comes from. Used with
`simp (disch := omega) only`, without `Nat.reduceAdd`, which would rewrite the widths; a word such as STATUS is first
stated as the bare concatenation, whose width Lean keeps as a sum. -/

namespace Sys2Proof

/-- A bit below the width of the low part is a bit of the low part. -/
theorem getLsbD_append_low {v w : Nat} (x : BitVec v) (y : BitVec w) {i : Nat} (h : i < w) :
    (x ++ y).getLsbD i = y.getLsbD i := by
  rw [BitVec.getLsbD_append]
  simp [h]

/-- A bit at or above the width of the low part is a bit of the high part. -/
theorem getLsbD_append_high {v w : Nat} (x : BitVec v) (y : BitVec w) {i : Nat} (h : w ≤ i) :
    (x ++ y).getLsbD i = x.getLsbD (i - w) := by
  rw [BitVec.getLsbD_append]
  simp [Nat.not_lt.mpr h]

/-- A field inside the low part is a field of the low part. -/
theorem extract_append_low {v w : Nat} (x : BitVec v) (y : BitVec w) {lo n : Nat} (h : lo + n ≤ w) :
    (x ++ y).extractLsb' lo n = y.extractLsb' lo n := by
  apply BitVec.eq_of_getLsbD_eq
  intro i hi
  rw [BitVec.getLsbD_extractLsb', BitVec.getLsbD_extractLsb', getLsbD_append_low x y (by omega)]

/-- A field inside the high part is a field of the high part. -/
theorem extract_append_high {v w : Nat} (x : BitVec v) (y : BitVec w) {lo n : Nat} (h : w ≤ lo) :
    (x ++ y).extractLsb' lo n = x.extractLsb' (lo - w) n := by
  apply BitVec.eq_of_getLsbD_eq
  intro i hi
  rw [BitVec.getLsbD_extractLsb', BitVec.getLsbD_extractLsb', getLsbD_append_high x y (by omega),
    Nat.sub_add_comm h]

/-- The whole of a field. -/
theorem extract_all {w : Nat} (x : BitVec w) : x.extractLsb' 0 w = x := by
  apply BitVec.eq_of_getLsbD_eq
  intro i hi
  simp [hi]

/-- The one bit of a Boolean. -/
theorem getLsbD_bool (b : Bool) : (BitVec.ofBool b).getLsbD 0 = b := by cases b <;> rfl

end Sys2Proof
end

