-- ==== Sys2Proof/Laws/Memory.lean ====
section
/-! SUPPORT. Pairs indexed by ADC, and memory: read after write, bytes elsewhere unchanged, the canonical form kept. -/

namespace Sys2Proof

variable {α : Type}

@[simp] theorem PerAdc.get_set_self (p : PerAdc α) (d : Dev) (v : α) : (p.set d v).get d = v := by
  cases d <;> rfl

theorem PerAdc.get_set_ne (p : PerAdc α) {d e : Dev} (h : e ≠ d) (v : α) : (p.set d v).get e = p.get e := by
  cases d <;> cases e <;> first | rfl | exact absurd rfl h

@[simp] theorem PerAdc.get_both (v : α) (d : Dev) : (PerAdc.both v).get d = v := by cases d <;> rfl

@[simp] theorem PerAdc.get_a (p : PerAdc α) : p.get .a = p.a := rfl
@[simp] theorem PerAdc.get_b (p : PerAdc α) : p.get .b = p.b := rfl
@[simp] theorem PerAdc.set_a (p : PerAdc α) (v : α) : p.set .a v = ⟨v, p.b⟩ := rfl
@[simp] theorem PerAdc.set_b (p : PerAdc α) (v : α) : p.set .b v = ⟨p.a, v⟩ := rfl
@[simp] theorem PerAdc.both_a (v : α) : (PerAdc.both v).a = v := rfl
@[simp] theorem PerAdc.both_b (v : α) : (PerAdc.both v).b = v := rfl

theorem PerAdc.ext_get {p r : PerAdc α} (h : ∀ d, p.get d = r.get d) : p = r := by
  cases p; cases r
  exact congr (congrArg PerAdc.mk (h .a)) (h .b)

namespace Machine

@[simp] theorem Memory.find_nil (k : Nat) : Memory.find [] k = none := rfl

@[simp] theorem Memory.find_put_self (m : Memory) (k : Nat) (v : Byte) : (m.put k v).find k = some v := by
  induction m with
  | nil => simp [Memory.put, Memory.find]
  | cons c m ih =>
    unfold Memory.put
    split
    · simp [Memory.find]
    · split
      · simp [Memory.find]
      · rename_i h h'
        simp [Memory.find, Ne.symm h', ih]

theorem Memory.find_put_ne (m : Memory) {k j : Nat} (h : j ≠ k) (v : Byte) : (m.put k v).find j = m.find j := by
  induction m with
  | nil => simp [Memory.put, Memory.find, Ne.symm h]
  | cons c m ih =>
    unfold Memory.put
    split
    · simp [Memory.find, Ne.symm h]
    · split
      · rename_i h' h''
        subst h''
        simp [Memory.find, Ne.symm h]
      · simp [Memory.find, ih]

/-- Where nothing was stored, `putBytes` leaves the byte alone. -/
theorem Memory.find_putBytes_out (m : Memory) (base : Nat) (vs : List Byte) {j : Nat}
    (h : j < base ∨ base + vs.length ≤ j) : (m.putBytes base vs).find j = m.find j := by
  induction vs generalizing m base with
  | nil => rfl
  | cons v vs ih =>
    have h' : j < base ∨ base + (vs.length + 1) ≤ j := by simpa using h
    rw [Memory.putBytes, ih _ _ (by omega), Memory.find_put_ne _ (by omega)]

/-- Where byte `i` of the list was stored, it is read back. -/
theorem Memory.find_putBytes_in (m : Memory) (base : Nat) (vs : List Byte) {i : Nat} (h : i < vs.length) :
    (m.putBytes base vs).find (base + i) = some vs[i] := by
  induction vs generalizing m base i with
  | nil => simp at h
  | cons v vs ih =>
    rw [Memory.putBytes]
    cases i with
    | zero =>
      rw [Memory.find_putBytes_out _ _ _ (by omega)]
      simp
    | succ i =>
      have h' : i < vs.length := by simpa using h
      have e : base + (i + 1) = base + 1 + i := by omega
      rw [e, ih _ _ h']
      rfl

/-- Every index of the memory is at least `n`. -/
def Memory.atLeast (n : Nat) (m : Memory) : Prop := ∀ c ∈ m, n ≤ c.1

theorem Memory.wf_cons {c : Host.Cell} {m : Memory} :
    Memory.wf (c :: m) = true ↔ Memory.atLeast (c.1 + 1) m ∧ Memory.wf m = true := by
  induction m generalizing c with
  | nil => simp [Memory.wf, Memory.atLeast]
  | cons c' m ih =>
    simp only [Memory.wf, Bool.and_eq_true, decide_eq_true_eq]
    constructor
    · rintro ⟨h, hw⟩
      refine ⟨?_, hw⟩
      intro x hx
      rcases List.mem_cons.mp hx with rfl | hx
      · omega
      · have := (ih.mp hw).1 x hx; omega
    · rintro ⟨h, hw⟩
      exact ⟨h c' (by simp), hw⟩

theorem Memory.mem_put {m : Memory} {k : Nat} {v : Byte} {c : Host.Cell} (h : c ∈ m.put k v) :
    c = (k, v) ∨ c ∈ m := by
  induction m with
  | nil => simpa [Memory.put] using h
  | cons d m ih =>
    unfold Memory.put at h
    split at h
    · simpa using h
    · split at h
      · rcases List.mem_cons.mp h with h | h
        · exact .inl h
        · exact .inr (List.mem_cons_of_mem _ h)
      · rcases List.mem_cons.mp h with h | h
        · exact .inr (by simp [h])
        · rcases ih h with h | h
          · exact .inl h
          · exact .inr (List.mem_cons_of_mem _ h)

/-- A write keeps the canonical form. -/
theorem Memory.wf_put {m : Memory} (h : m.wf = true) (k : Nat) (v : Byte) : (m.put k v).wf = true := by
  induction m with
  | nil => rfl
  | cons c m ih =>
    have hc := Memory.wf_cons.mp h
    unfold Memory.put
    split
    · refine Memory.wf_cons.mpr ⟨?_, h⟩
      intro x hx
      rcases List.mem_cons.mp hx with rfl | hx
      · simp only; omega
      · have := hc.1 x hx; simp only; omega
    · split
      · rename_i e
        exact Memory.wf_cons.mpr ⟨by simpa [e] using hc.1, hc.2⟩
      · rename_i h1 h2
        refine Memory.wf_cons.mpr ⟨?_, ih hc.2⟩
        intro x hx
        rcases Memory.mem_put hx with rfl | hx
        · simp only; omega
        · exact hc.1 x hx

/-- Storing a list of bytes keeps the canonical form. -/
theorem Memory.wf_putBytes {m : Memory} (h : m.wf = true) (base : Nat) (vs : List Byte) :
    (m.putBytes base vs).wf = true := by
  induction vs generalizing m base with
  | nil => exact h
  | cons v vs ih => exact ih (Memory.wf_put h base v) _

/-- The empty memory, the reset value of every data store, is canonical. -/
@[simp] theorem Memory.wf_nil : Memory.wf [] = true := rfl

theorem Memory.below_nil (n : Nat) : Memory.below n [] := by simp [Memory.below]

/-- Storing inside the bound keeps the bound. -/
theorem Memory.below_putBytes {n : Nat} {m : Memory} (h : m.below n) (base : Nat) (vs : List Byte)
    (hb : base + vs.length ≤ n) : (m.putBytes base vs).below n := by
  induction vs generalizing m base with
  | nil => exact h
  | cons v vs ih =>
    have hb' : base + (vs.length + 1) ≤ n := by simpa using hb
    refine ih ?_ _ (by omega)
    intro x hx
    rcases Memory.mem_put hx with rfl | hx
    · simp only; omega
    · exact h x hx

end Machine

end Sys2Proof
end

