-- ==== Sys2Proof/Laws/State.lean ====
section
/-! SUPPORT. One lemma per field for each shared update of State, so that no later proof unfolds one. -/

namespace Sys2Proof.Machine

variable (s : State)

/-! The error bit is the only change (R43). -/

@[simp] theorem State.setErr_params (e : ErrBit) : (s.setErr e).params = s.params := by dsimp only [State.setErr]
@[simp] theorem State.setErr_state (e : ErrBit) : (s.setErr e).state = s.state := by dsimp only [State.setErr]
@[simp] theorem State.setErr_phase (e : ErrBit) : (s.setErr e).phase = s.phase := by dsimp only [State.setErr]
@[simp] theorem State.setErr_col (e : ErrBit) : (s.setErr e).col = s.col := by dsimp only [State.setErr]
@[simp] theorem State.setErr_pend (e : ErrBit) : (s.setErr e).pend = s.pend := by dsimp only [State.setErr]
@[simp] theorem State.setErr_edge (e : ErrBit) : (s.setErr e).edge = s.edge := by dsimp only [State.setErr]
@[simp] theorem State.setErr_eoc (e : ErrBit) : (s.setErr e).eoc = s.eoc := by dsimp only [State.setErr]
@[simp] theorem State.setErr_cnt (e : ErrBit) : (s.setErr e).cnt = s.cnt := by dsimp only [State.setErr]
@[simp] theorem State.setErr_chain (e : ErrBit) : (s.setErr e).chain = s.chain := by dsimp only [State.setErr]
@[simp] theorem State.setErr_rowbuf (e : ErrBit) : (s.setErr e).rowbuf = s.rowbuf := by dsimp only [State.setErr]
@[simp] theorem State.setErr_frame (e : ErrBit) : (s.setErr e).frame = s.frame := by dsimp only [State.setErr]
@[simp] theorem State.setErr_q (e : ErrBit) : (s.setErr e).q = s.q := by dsimp only [State.setErr]
@[simp] theorem State.setErr_qout (e : ErrBit) : (s.setErr e).qout = s.qout := by dsimp only [State.setErr]
@[simp] theorem State.setErr_err (e : ErrBit) : (s.setErr e).err = s.err ||| e.mask := by dsimp only [State.setErr]
@[simp] theorem State.setErr_config (e : ErrBit) : (s.setErr e).config = s.config := by dsimp only [State.setErr]
@[simp] theorem State.setErr_timeout (e : ErrBit) : (s.setErr e).timeout = s.timeout := by dsimp only [State.setErr]
@[simp] theorem State.setErr_faultReg (e : ErrBit) :
    (s.setErr e).faultReg = s.faultReg := by dsimp only [State.setErr]
@[simp] theorem State.setErr_hsVec (e : ErrBit) : (s.setErr e).hsVec = s.hsVec := by dsimp only [State.setErr]
@[simp] theorem State.setErr_hsSp (e : ErrBit) : (s.setErr e).hsSp = s.hsSp := by dsimp only [State.setErr]
@[simp] theorem State.setErr_hsEntry (e : ErrBit) : (s.setErr e).hsEntry = s.hsEntry := by dsimp only [State.setErr]
@[simp] theorem State.setErr_hsState (e : ErrBit) : (s.setErr e).hsState = s.hsState := by dsimp only [State.setErr]
@[simp] theorem State.setErr_hsIdx (e : ErrBit) : (s.setErr e).hsIdx = s.hsIdx := by dsimp only [State.setErr]
@[simp] theorem State.setErr_mbTx (e : ErrBit) : (s.setErr e).mbTx = s.mbTx := by dsimp only [State.setErr]
@[simp] theorem State.setErr_mbRx (e : ErrBit) : (s.setErr e).mbRx = s.mbRx := by dsimp only [State.setErr]
@[simp] theorem State.setErr_cs (e : ErrBit) : (s.setErr e).cs = s.cs := by dsimp only [State.setErr]
@[simp] theorem State.setErr_linkReady (e : ErrBit) :
    (s.setErr e).linkReady = s.linkReady := by dsimp only [State.setErr]
@[simp] theorem State.setErr_srOut (e : ErrBit) : (s.setErr e).srOut = s.srOut := by dsimp only [State.setErr]
@[simp] theorem State.setErr_hist (e : ErrBit) : (s.setErr e).hist = s.hist := by dsimp only [State.setErr]
@[simp] theorem State.setErr_pins (e : ErrBit) : (s.setErr e).pins = s.pins := by dsimp only [State.setErr]
@[simp] theorem State.setErr_ctrl (e : ErrBit) : (s.setErr e).ctrl = s.ctrl := by dsimp only [State.setErr]
@[simp] theorem State.setErr_cons (e : ErrBit) : (s.setErr e).cons = s.cons := by dsimp only [State.setErr]
@[simp] theorem State.setErr_answers (e : ErrBit) : (s.setErr e).answers = s.answers := by dsimp only [State.setErr]
@[simp] theorem State.setErr_turns (e : ErrBit) : (s.setErr e).turns = s.turns := by dsimp only [State.setErr]
@[simp] theorem State.setErr_linkPort (e : ErrBit) :
    (s.setErr e).linkPort = s.linkPort := by dsimp only [State.setErr]
@[simp] theorem State.setErr_epoch (e : ErrBit) : (s.setErr e).epoch = s.epoch := by dsimp only [State.setErr]
@[simp] theorem State.setErr_draws (e : ErrBit) : (s.setErr e).draws = s.draws := by dsimp only [State.setErr]

/-! A link transaction changes the event history, the pins and the draws only (R20). -/

@[simp] theorem State.linkXfer_params (d : Dev) (tx placed : List Byte) :
    (s.linkXfer d tx placed).1.params = s.params := by dsimp only [State.linkXfer]
@[simp] theorem State.linkXfer_state (d : Dev) (tx placed : List Byte) :
    (s.linkXfer d tx placed).1.state = s.state := by dsimp only [State.linkXfer]
@[simp] theorem State.linkXfer_phase (d : Dev) (tx placed : List Byte) :
    (s.linkXfer d tx placed).1.phase = s.phase := by dsimp only [State.linkXfer]
@[simp] theorem State.linkXfer_col (d : Dev) (tx placed : List Byte) :
    (s.linkXfer d tx placed).1.col = s.col := by dsimp only [State.linkXfer]
@[simp] theorem State.linkXfer_pend (d : Dev) (tx placed : List Byte) :
    (s.linkXfer d tx placed).1.pend = s.pend := by dsimp only [State.linkXfer]
@[simp] theorem State.linkXfer_edge (d : Dev) (tx placed : List Byte) :
    (s.linkXfer d tx placed).1.edge = s.edge := by dsimp only [State.linkXfer]
@[simp] theorem State.linkXfer_eoc (d : Dev) (tx placed : List Byte) :
    (s.linkXfer d tx placed).1.eoc = s.eoc := by dsimp only [State.linkXfer]
@[simp] theorem State.linkXfer_cnt (d : Dev) (tx placed : List Byte) :
    (s.linkXfer d tx placed).1.cnt = s.cnt := by dsimp only [State.linkXfer]
@[simp] theorem State.linkXfer_chain (d : Dev) (tx placed : List Byte) :
    (s.linkXfer d tx placed).1.chain = s.chain := by dsimp only [State.linkXfer]
@[simp] theorem State.linkXfer_rowbuf (d : Dev) (tx placed : List Byte) :
    (s.linkXfer d tx placed).1.rowbuf = s.rowbuf := by dsimp only [State.linkXfer]
@[simp] theorem State.linkXfer_frame (d : Dev) (tx placed : List Byte) :
    (s.linkXfer d tx placed).1.frame = s.frame := by dsimp only [State.linkXfer]
@[simp] theorem State.linkXfer_q (d : Dev) (tx placed : List Byte) :
    (s.linkXfer d tx placed).1.q = s.q := by dsimp only [State.linkXfer]
@[simp] theorem State.linkXfer_qout (d : Dev) (tx placed : List Byte) :
    (s.linkXfer d tx placed).1.qout = s.qout := by dsimp only [State.linkXfer]
@[simp] theorem State.linkXfer_err (d : Dev) (tx placed : List Byte) :
    (s.linkXfer d tx placed).1.err = s.err := by dsimp only [State.linkXfer]
@[simp] theorem State.linkXfer_config (d : Dev) (tx placed : List Byte) :
    (s.linkXfer d tx placed).1.config = s.config := by dsimp only [State.linkXfer]
@[simp] theorem State.linkXfer_timeout (d : Dev) (tx placed : List Byte) :
    (s.linkXfer d tx placed).1.timeout = s.timeout := by dsimp only [State.linkXfer]
@[simp] theorem State.linkXfer_faultReg (d : Dev) (tx placed : List Byte) :
    (s.linkXfer d tx placed).1.faultReg = s.faultReg := by dsimp only [State.linkXfer]
@[simp] theorem State.linkXfer_hsVec (d : Dev) (tx placed : List Byte) :
    (s.linkXfer d tx placed).1.hsVec = s.hsVec := by dsimp only [State.linkXfer]
@[simp] theorem State.linkXfer_hsSp (d : Dev) (tx placed : List Byte) :
    (s.linkXfer d tx placed).1.hsSp = s.hsSp := by dsimp only [State.linkXfer]
@[simp] theorem State.linkXfer_hsEntry (d : Dev) (tx placed : List Byte) :
    (s.linkXfer d tx placed).1.hsEntry = s.hsEntry := by dsimp only [State.linkXfer]
@[simp] theorem State.linkXfer_hsState (d : Dev) (tx placed : List Byte) :
    (s.linkXfer d tx placed).1.hsState = s.hsState := by dsimp only [State.linkXfer]
@[simp] theorem State.linkXfer_hsIdx (d : Dev) (tx placed : List Byte) :
    (s.linkXfer d tx placed).1.hsIdx = s.hsIdx := by dsimp only [State.linkXfer]
@[simp] theorem State.linkXfer_mbTx (d : Dev) (tx placed : List Byte) :
    (s.linkXfer d tx placed).1.mbTx = s.mbTx := by dsimp only [State.linkXfer]
@[simp] theorem State.linkXfer_mbRx (d : Dev) (tx placed : List Byte) :
    (s.linkXfer d tx placed).1.mbRx = s.mbRx := by dsimp only [State.linkXfer]
@[simp] theorem State.linkXfer_cs (d : Dev) (tx placed : List Byte) :
    (s.linkXfer d tx placed).1.cs = (s.cs.set d true).set d false := by dsimp only [State.linkXfer]
@[simp] theorem State.linkXfer_linkReady (d : Dev) (tx placed : List Byte) :
    (s.linkXfer d tx placed).1.linkReady = s.linkReady := by dsimp only [State.linkXfer]
@[simp] theorem State.linkXfer_srOut (d : Dev) (tx placed : List Byte) :
    (s.linkXfer d tx placed).1.srOut = s.srOut := by dsimp only [State.linkXfer]
@[simp] theorem State.linkXfer_hist (d : Dev) (tx placed : List Byte) :
    (s.linkXfer d tx placed).1.hist = s.hist ++ [.xfer d (tx) (s.answerBytes d placed (tx).length)] := by dsimp only [State.linkXfer]
@[simp] theorem State.linkXfer_pins (d : Dev) (tx placed : List Byte) :
    (s.linkXfer d tx placed).1.pins = s.pins ++ s.framePins d (tx) := by dsimp only [State.linkXfer]
@[simp] theorem State.linkXfer_ctrl (d : Dev) (tx placed : List Byte) :
    (s.linkXfer d tx placed).1.ctrl = s.ctrl := by dsimp only [State.linkXfer]
@[simp] theorem State.linkXfer_cons (d : Dev) (tx placed : List Byte) :
    (s.linkXfer d tx placed).1.cons = s.cons := by dsimp only [State.linkXfer]
@[simp] theorem State.linkXfer_answers (d : Dev) (tx placed : List Byte) :
    (s.linkXfer d tx placed).1.answers = s.answers := by dsimp only [State.linkXfer]
@[simp] theorem State.linkXfer_turns (d : Dev) (tx placed : List Byte) :
    (s.linkXfer d tx placed).1.turns = s.turns := by dsimp only [State.linkXfer]
@[simp] theorem State.linkXfer_linkPort (d : Dev) (tx placed : List Byte) :
    (s.linkXfer d tx placed).1.linkPort = s.linkPort := by dsimp only [State.linkXfer]
@[simp] theorem State.linkXfer_epoch (d : Dev) (tx placed : List Byte) :
    (s.linkXfer d tx placed).1.epoch = s.epoch := by dsimp only [State.linkXfer]
@[simp] theorem State.linkXfer_draws (d : Dev) (tx placed : List Byte) :
    (s.linkXfer d tx placed).1.draws = s.draws + (tx).length := by dsimp only [State.linkXfer]

/-! A request is a link transaction (R141). -/

@[simp] theorem State.requestConversion_params (d : Dev) :
    (s.requestConversion d).params = s.params := by dsimp only [State.requestConversion, State.linkXfer]
@[simp] theorem State.requestConversion_state (d : Dev) :
    (s.requestConversion d).state = s.state := by dsimp only [State.requestConversion, State.linkXfer]
@[simp] theorem State.requestConversion_phase (d : Dev) :
    (s.requestConversion d).phase = s.phase := by dsimp only [State.requestConversion, State.linkXfer]
@[simp] theorem State.requestConversion_col (d : Dev) :
    (s.requestConversion d).col = s.col := by dsimp only [State.requestConversion, State.linkXfer]
@[simp] theorem State.requestConversion_pend (d : Dev) :
    (s.requestConversion d).pend = s.pend := by dsimp only [State.requestConversion, State.linkXfer]
@[simp] theorem State.requestConversion_edge (d : Dev) :
    (s.requestConversion d).edge = s.edge := by dsimp only [State.requestConversion, State.linkXfer]
@[simp] theorem State.requestConversion_eoc (d : Dev) :
    (s.requestConversion d).eoc = s.eoc := by dsimp only [State.requestConversion, State.linkXfer]
@[simp] theorem State.requestConversion_cnt (d : Dev) :
    (s.requestConversion d).cnt = s.cnt := by dsimp only [State.requestConversion, State.linkXfer]
@[simp] theorem State.requestConversion_chain (d : Dev) :
    (s.requestConversion d).chain = s.chain := by dsimp only [State.requestConversion, State.linkXfer]
@[simp] theorem State.requestConversion_rowbuf (d : Dev) :
    (s.requestConversion d).rowbuf = s.rowbuf := by dsimp only [State.requestConversion, State.linkXfer]
@[simp] theorem State.requestConversion_frame (d : Dev) :
    (s.requestConversion d).frame = s.frame := by dsimp only [State.requestConversion, State.linkXfer]
@[simp] theorem State.requestConversion_q (d : Dev) :
    (s.requestConversion d).q = s.q := by dsimp only [State.requestConversion, State.linkXfer]
@[simp] theorem State.requestConversion_qout (d : Dev) :
    (s.requestConversion d).qout = s.qout := by dsimp only [State.requestConversion, State.linkXfer]
@[simp] theorem State.requestConversion_err (d : Dev) :
    (s.requestConversion d).err = s.err := by dsimp only [State.requestConversion, State.linkXfer]
@[simp] theorem State.requestConversion_config (d : Dev) :
    (s.requestConversion d).config = s.config := by dsimp only [State.requestConversion, State.linkXfer]
@[simp] theorem State.requestConversion_timeout (d : Dev) :
    (s.requestConversion d).timeout = s.timeout := by dsimp only [State.requestConversion, State.linkXfer]
@[simp] theorem State.requestConversion_faultReg (d : Dev) :
    (s.requestConversion d).faultReg = s.faultReg := by dsimp only [State.requestConversion, State.linkXfer]
@[simp] theorem State.requestConversion_hsVec (d : Dev) :
    (s.requestConversion d).hsVec = s.hsVec := by dsimp only [State.requestConversion, State.linkXfer]
@[simp] theorem State.requestConversion_hsSp (d : Dev) :
    (s.requestConversion d).hsSp = s.hsSp := by dsimp only [State.requestConversion, State.linkXfer]
@[simp] theorem State.requestConversion_hsEntry (d : Dev) :
    (s.requestConversion d).hsEntry = s.hsEntry := by dsimp only [State.requestConversion, State.linkXfer]
@[simp] theorem State.requestConversion_hsState (d : Dev) :
    (s.requestConversion d).hsState = s.hsState := by dsimp only [State.requestConversion, State.linkXfer]
@[simp] theorem State.requestConversion_hsIdx (d : Dev) :
    (s.requestConversion d).hsIdx = s.hsIdx := by dsimp only [State.requestConversion, State.linkXfer]
@[simp] theorem State.requestConversion_mbTx (d : Dev) :
    (s.requestConversion d).mbTx = s.mbTx := by dsimp only [State.requestConversion, State.linkXfer]
@[simp] theorem State.requestConversion_mbRx (d : Dev) :
    (s.requestConversion d).mbRx = s.mbRx := by dsimp only [State.requestConversion, State.linkXfer]
@[simp] theorem State.requestConversion_cs (d : Dev) :
    (s.requestConversion d).cs = (s.cs.set d true).set d false := by dsimp only [State.requestConversion, State.linkXfer]
@[simp] theorem State.requestConversion_linkReady (d : Dev) :
    (s.requestConversion d).linkReady = s.linkReady := by dsimp only [State.requestConversion, State.linkXfer]
@[simp] theorem State.requestConversion_srOut (d : Dev) :
    (s.requestConversion d).srOut = s.srOut := by dsimp only [State.requestConversion, State.linkXfer]
@[simp] theorem State.requestConversion_hist (d : Dev) :
    (s.requestConversion d).hist = s.hist ++ [.xfer d ([reqByte s.params.channels]) (s.answerBytes d [] ([reqByte s.params.channels]).length)] := by dsimp only [State.requestConversion, State.linkXfer]
@[simp] theorem State.requestConversion_pins (d : Dev) :
    (s.requestConversion d).pins = s.pins ++ s.framePins d ([reqByte s.params.channels]) := by dsimp only [State.requestConversion, State.linkXfer]
@[simp] theorem State.requestConversion_ctrl (d : Dev) :
    (s.requestConversion d).ctrl = s.ctrl := by dsimp only [State.requestConversion, State.linkXfer]
@[simp] theorem State.requestConversion_cons (d : Dev) :
    (s.requestConversion d).cons = s.cons := by dsimp only [State.requestConversion, State.linkXfer]
@[simp] theorem State.requestConversion_answers (d : Dev) :
    (s.requestConversion d).answers = s.answers := by dsimp only [State.requestConversion, State.linkXfer]
@[simp] theorem State.requestConversion_turns (d : Dev) :
    (s.requestConversion d).turns = s.turns := by dsimp only [State.requestConversion, State.linkXfer]
@[simp] theorem State.requestConversion_linkPort (d : Dev) :
    (s.requestConversion d).linkPort = s.linkPort := by dsimp only [State.requestConversion, State.linkXfer]
@[simp] theorem State.requestConversion_epoch (d : Dev) :
    (s.requestConversion d).epoch = s.epoch := by dsimp only [State.requestConversion, State.linkXfer]
@[simp] theorem State.requestConversion_draws (d : Dev) :
    (s.requestConversion d).draws = s.draws + ([reqByte s.params.channels]).length := by dsimp only [State.requestConversion, State.linkXfer]

/-! A read transaction also uses up what was placed for it (R143). -/

@[simp] theorem State.readTransaction_params (d : Dev) :
    (s.readTransaction d).1.params = s.params := by dsimp only [State.readTransaction, State.linkXfer]
@[simp] theorem State.readTransaction_state (d : Dev) :
    (s.readTransaction d).1.state = s.state := by dsimp only [State.readTransaction, State.linkXfer]
@[simp] theorem State.readTransaction_phase (d : Dev) :
    (s.readTransaction d).1.phase = s.phase := by dsimp only [State.readTransaction, State.linkXfer]
@[simp] theorem State.readTransaction_col (d : Dev) :
    (s.readTransaction d).1.col = s.col := by dsimp only [State.readTransaction, State.linkXfer]
@[simp] theorem State.readTransaction_pend (d : Dev) :
    (s.readTransaction d).1.pend = s.pend := by dsimp only [State.readTransaction, State.linkXfer]
@[simp] theorem State.readTransaction_edge (d : Dev) :
    (s.readTransaction d).1.edge = s.edge := by dsimp only [State.readTransaction, State.linkXfer]
@[simp] theorem State.readTransaction_eoc (d : Dev) :
    (s.readTransaction d).1.eoc = s.eoc := by dsimp only [State.readTransaction, State.linkXfer]
@[simp] theorem State.readTransaction_cnt (d : Dev) :
    (s.readTransaction d).1.cnt = s.cnt := by dsimp only [State.readTransaction, State.linkXfer]
@[simp] theorem State.readTransaction_chain (d : Dev) :
    (s.readTransaction d).1.chain = s.chain := by dsimp only [State.readTransaction, State.linkXfer]
@[simp] theorem State.readTransaction_rowbuf (d : Dev) :
    (s.readTransaction d).1.rowbuf = s.rowbuf := by dsimp only [State.readTransaction, State.linkXfer]
@[simp] theorem State.readTransaction_frame (d : Dev) :
    (s.readTransaction d).1.frame = s.frame := by dsimp only [State.readTransaction, State.linkXfer]
@[simp] theorem State.readTransaction_q (d : Dev) :
    (s.readTransaction d).1.q = s.q := by dsimp only [State.readTransaction, State.linkXfer]
@[simp] theorem State.readTransaction_qout (d : Dev) :
    (s.readTransaction d).1.qout = s.qout := by dsimp only [State.readTransaction, State.linkXfer]
@[simp] theorem State.readTransaction_err (d : Dev) :
    (s.readTransaction d).1.err = s.err := by dsimp only [State.readTransaction, State.linkXfer]
@[simp] theorem State.readTransaction_config (d : Dev) :
    (s.readTransaction d).1.config = s.config := by dsimp only [State.readTransaction, State.linkXfer]
@[simp] theorem State.readTransaction_timeout (d : Dev) :
    (s.readTransaction d).1.timeout = s.timeout := by dsimp only [State.readTransaction, State.linkXfer]
@[simp] theorem State.readTransaction_faultReg (d : Dev) :
    (s.readTransaction d).1.faultReg = s.faultReg := by dsimp only [State.readTransaction, State.linkXfer]
@[simp] theorem State.readTransaction_hsVec (d : Dev) :
    (s.readTransaction d).1.hsVec = s.hsVec := by dsimp only [State.readTransaction, State.linkXfer]
@[simp] theorem State.readTransaction_hsSp (d : Dev) :
    (s.readTransaction d).1.hsSp = s.hsSp := by dsimp only [State.readTransaction, State.linkXfer]
@[simp] theorem State.readTransaction_hsEntry (d : Dev) :
    (s.readTransaction d).1.hsEntry = s.hsEntry := by dsimp only [State.readTransaction, State.linkXfer]
@[simp] theorem State.readTransaction_hsState (d : Dev) :
    (s.readTransaction d).1.hsState = s.hsState := by dsimp only [State.readTransaction, State.linkXfer]
@[simp] theorem State.readTransaction_hsIdx (d : Dev) :
    (s.readTransaction d).1.hsIdx = s.hsIdx := by dsimp only [State.readTransaction, State.linkXfer]
@[simp] theorem State.readTransaction_mbTx (d : Dev) :
    (s.readTransaction d).1.mbTx = s.mbTx := by dsimp only [State.readTransaction, State.linkXfer]
@[simp] theorem State.readTransaction_mbRx (d : Dev) :
    (s.readTransaction d).1.mbRx = s.mbRx := by dsimp only [State.readTransaction, State.linkXfer]
@[simp] theorem State.readTransaction_cs (d : Dev) :
    (s.readTransaction d).1.cs = (s.cs.set d true).set d false := by dsimp only [State.readTransaction, State.linkXfer]
@[simp] theorem State.readTransaction_linkReady (d : Dev) :
    (s.readTransaction d).1.linkReady = s.linkReady := by dsimp only [State.readTransaction, State.linkXfer]
@[simp] theorem State.readTransaction_srOut (d : Dev) :
    (s.readTransaction d).1.srOut = s.srOut := by dsimp only [State.readTransaction, State.linkXfer]
@[simp] theorem State.readTransaction_hist (d : Dev) :
    (s.readTransaction d).1.hist = s.hist ++ [.xfer d (List.replicate s.params.responseLength nullByte) (s.answerBytes d ((s.answers.get d).headD []) (List.replicate s.params.responseLength nullByte).length)] := by dsimp only [State.readTransaction, State.linkXfer]
@[simp] theorem State.readTransaction_pins (d : Dev) :
    (s.readTransaction d).1.pins = s.pins ++ s.framePins d (List.replicate s.params.responseLength nullByte) := by dsimp only [State.readTransaction, State.linkXfer]
@[simp] theorem State.readTransaction_ctrl (d : Dev) :
    (s.readTransaction d).1.ctrl = s.ctrl := by dsimp only [State.readTransaction, State.linkXfer]
@[simp] theorem State.readTransaction_cons (d : Dev) :
    (s.readTransaction d).1.cons = s.cons := by dsimp only [State.readTransaction, State.linkXfer]
@[simp] theorem State.readTransaction_answers (d : Dev) :
    (s.readTransaction d).1.answers = s.answers.set d (s.answers.get d).tail := by dsimp only [State.readTransaction, State.linkXfer]
@[simp] theorem State.readTransaction_turns (d : Dev) :
    (s.readTransaction d).1.turns = s.turns := by dsimp only [State.readTransaction, State.linkXfer]
@[simp] theorem State.readTransaction_linkPort (d : Dev) :
    (s.readTransaction d).1.linkPort = s.linkPort := by dsimp only [State.readTransaction, State.linkXfer]
@[simp] theorem State.readTransaction_epoch (d : Dev) :
    (s.readTransaction d).1.epoch = s.epoch := by dsimp only [State.readTransaction, State.linkXfer]
@[simp] theorem State.readTransaction_draws (d : Dev) :
    (s.readTransaction d).1.draws = s.draws + (List.replicate s.params.responseLength nullByte).length := by dsimp only [State.readTransaction, State.linkXfer]

/-! A read-back also writes its half of the row buffer (R143, R146). -/

@[simp] theorem State.readIntoHalf_params (d : Dev) :
    (s.readIntoHalf d).params = s.params := by dsimp only [State.readIntoHalf, State.readTransaction, State.linkXfer, State.writeHalf]
@[simp] theorem State.readIntoHalf_state (d : Dev) :
    (s.readIntoHalf d).state = s.state := by dsimp only [State.readIntoHalf, State.readTransaction, State.linkXfer, State.writeHalf]
@[simp] theorem State.readIntoHalf_phase (d : Dev) :
    (s.readIntoHalf d).phase = s.phase := by dsimp only [State.readIntoHalf, State.readTransaction, State.linkXfer, State.writeHalf]
@[simp] theorem State.readIntoHalf_col (d : Dev) :
    (s.readIntoHalf d).col = s.col := by dsimp only [State.readIntoHalf, State.readTransaction, State.linkXfer, State.writeHalf]
@[simp] theorem State.readIntoHalf_pend (d : Dev) :
    (s.readIntoHalf d).pend = s.pend := by dsimp only [State.readIntoHalf, State.readTransaction, State.linkXfer, State.writeHalf]
@[simp] theorem State.readIntoHalf_edge (d : Dev) :
    (s.readIntoHalf d).edge = s.edge := by dsimp only [State.readIntoHalf, State.readTransaction, State.linkXfer, State.writeHalf]
@[simp] theorem State.readIntoHalf_eoc (d : Dev) :
    (s.readIntoHalf d).eoc = s.eoc := by dsimp only [State.readIntoHalf, State.readTransaction, State.linkXfer, State.writeHalf]
@[simp] theorem State.readIntoHalf_cnt (d : Dev) :
    (s.readIntoHalf d).cnt = s.cnt := by dsimp only [State.readIntoHalf, State.readTransaction, State.linkXfer, State.writeHalf]
@[simp] theorem State.readIntoHalf_chain (d : Dev) :
    (s.readIntoHalf d).chain = s.chain := by dsimp only [State.readIntoHalf, State.readTransaction, State.linkXfer, State.writeHalf]
@[simp] theorem State.readIntoHalf_rowbuf (d : Dev) :
    (s.readIntoHalf d).rowbuf = s.rowbuf.putBytes (halfBase s.params d) (deintAll (s.readTransaction d).2) := by dsimp only [State.readIntoHalf, State.readTransaction, State.linkXfer, State.writeHalf]
@[simp] theorem State.readIntoHalf_frame (d : Dev) :
    (s.readIntoHalf d).frame = s.frame := by dsimp only [State.readIntoHalf, State.readTransaction, State.linkXfer, State.writeHalf]
@[simp] theorem State.readIntoHalf_q (d : Dev) :
    (s.readIntoHalf d).q = s.q := by dsimp only [State.readIntoHalf, State.readTransaction, State.linkXfer, State.writeHalf]
@[simp] theorem State.readIntoHalf_qout (d : Dev) :
    (s.readIntoHalf d).qout = s.qout := by dsimp only [State.readIntoHalf, State.readTransaction, State.linkXfer, State.writeHalf]
@[simp] theorem State.readIntoHalf_err (d : Dev) :
    (s.readIntoHalf d).err = s.err := by dsimp only [State.readIntoHalf, State.readTransaction, State.linkXfer, State.writeHalf]
@[simp] theorem State.readIntoHalf_config (d : Dev) :
    (s.readIntoHalf d).config = s.config := by dsimp only [State.readIntoHalf, State.readTransaction, State.linkXfer, State.writeHalf]
@[simp] theorem State.readIntoHalf_timeout (d : Dev) :
    (s.readIntoHalf d).timeout = s.timeout := by dsimp only [State.readIntoHalf, State.readTransaction, State.linkXfer, State.writeHalf]
@[simp] theorem State.readIntoHalf_faultReg (d : Dev) :
    (s.readIntoHalf d).faultReg = s.faultReg := by dsimp only [State.readIntoHalf, State.readTransaction, State.linkXfer, State.writeHalf]
@[simp] theorem State.readIntoHalf_hsVec (d : Dev) :
    (s.readIntoHalf d).hsVec = s.hsVec := by dsimp only [State.readIntoHalf, State.readTransaction, State.linkXfer, State.writeHalf]
@[simp] theorem State.readIntoHalf_hsSp (d : Dev) :
    (s.readIntoHalf d).hsSp = s.hsSp := by dsimp only [State.readIntoHalf, State.readTransaction, State.linkXfer, State.writeHalf]
@[simp] theorem State.readIntoHalf_hsEntry (d : Dev) :
    (s.readIntoHalf d).hsEntry = s.hsEntry := by dsimp only [State.readIntoHalf, State.readTransaction, State.linkXfer, State.writeHalf]
@[simp] theorem State.readIntoHalf_hsState (d : Dev) :
    (s.readIntoHalf d).hsState = s.hsState := by dsimp only [State.readIntoHalf, State.readTransaction, State.linkXfer, State.writeHalf]
@[simp] theorem State.readIntoHalf_hsIdx (d : Dev) :
    (s.readIntoHalf d).hsIdx = s.hsIdx := by dsimp only [State.readIntoHalf, State.readTransaction, State.linkXfer, State.writeHalf]
@[simp] theorem State.readIntoHalf_mbTx (d : Dev) :
    (s.readIntoHalf d).mbTx = s.mbTx := by dsimp only [State.readIntoHalf, State.readTransaction, State.linkXfer, State.writeHalf]
@[simp] theorem State.readIntoHalf_mbRx (d : Dev) :
    (s.readIntoHalf d).mbRx = s.mbRx := by dsimp only [State.readIntoHalf, State.readTransaction, State.linkXfer, State.writeHalf]
@[simp] theorem State.readIntoHalf_cs (d : Dev) :
    (s.readIntoHalf d).cs = (s.cs.set d true).set d false := by dsimp only [State.readIntoHalf, State.readTransaction, State.linkXfer, State.writeHalf]
@[simp] theorem State.readIntoHalf_linkReady (d : Dev) :
    (s.readIntoHalf d).linkReady = s.linkReady := by dsimp only [State.readIntoHalf, State.readTransaction, State.linkXfer, State.writeHalf]
@[simp] theorem State.readIntoHalf_srOut (d : Dev) :
    (s.readIntoHalf d).srOut = s.srOut := by dsimp only [State.readIntoHalf, State.readTransaction, State.linkXfer, State.writeHalf]
@[simp] theorem State.readIntoHalf_hist (d : Dev) :
    (s.readIntoHalf d).hist = s.hist ++ [.xfer d (List.replicate s.params.responseLength nullByte) (s.answerBytes d ((s.answers.get d).headD []) (List.replicate s.params.responseLength nullByte).length)] := by dsimp only [State.readIntoHalf, State.readTransaction, State.linkXfer, State.writeHalf]
@[simp] theorem State.readIntoHalf_pins (d : Dev) :
    (s.readIntoHalf d).pins = s.pins ++ s.framePins d (List.replicate s.params.responseLength nullByte) := by dsimp only [State.readIntoHalf, State.readTransaction, State.linkXfer, State.writeHalf]
@[simp] theorem State.readIntoHalf_ctrl (d : Dev) :
    (s.readIntoHalf d).ctrl = s.ctrl := by dsimp only [State.readIntoHalf, State.readTransaction, State.linkXfer, State.writeHalf]
@[simp] theorem State.readIntoHalf_cons (d : Dev) :
    (s.readIntoHalf d).cons = s.cons := by dsimp only [State.readIntoHalf, State.readTransaction, State.linkXfer, State.writeHalf]
@[simp] theorem State.readIntoHalf_answers (d : Dev) :
    (s.readIntoHalf d).answers = s.answers.set d (s.answers.get d).tail := by dsimp only [State.readIntoHalf, State.readTransaction, State.linkXfer, State.writeHalf]
@[simp] theorem State.readIntoHalf_turns (d : Dev) :
    (s.readIntoHalf d).turns = s.turns := by dsimp only [State.readIntoHalf, State.readTransaction, State.linkXfer, State.writeHalf]
@[simp] theorem State.readIntoHalf_linkPort (d : Dev) :
    (s.readIntoHalf d).linkPort = s.linkPort := by dsimp only [State.readIntoHalf, State.readTransaction, State.linkXfer, State.writeHalf]
@[simp] theorem State.readIntoHalf_epoch (d : Dev) :
    (s.readIntoHalf d).epoch = s.epoch := by dsimp only [State.readIntoHalf, State.readTransaction, State.linkXfer, State.writeHalf]
@[simp] theorem State.readIntoHalf_draws (d : Dev) :
    (s.readIntoHalf d).draws = s.draws + (List.replicate s.params.responseLength nullByte).length := by dsimp only [State.readIntoHalf, State.readTransaction, State.linkXfer, State.writeHalf]

/-! ChainClear changes the chain and its records only (R170). -/

@[simp] theorem State.chainClear_params :
    (s.chainClear).params = s.params := by dsimp only [State.chainClear, State.driveChain]
@[simp] theorem State.chainClear_state :
    (s.chainClear).state = s.state := by dsimp only [State.chainClear, State.driveChain]
@[simp] theorem State.chainClear_phase :
    (s.chainClear).phase = s.phase := by dsimp only [State.chainClear, State.driveChain]
@[simp] theorem State.chainClear_col :
    (s.chainClear).col = s.col := by dsimp only [State.chainClear, State.driveChain]
@[simp] theorem State.chainClear_pend :
    (s.chainClear).pend = s.pend := by dsimp only [State.chainClear, State.driveChain]
@[simp] theorem State.chainClear_edge :
    (s.chainClear).edge = s.edge := by dsimp only [State.chainClear, State.driveChain]
@[simp] theorem State.chainClear_eoc :
    (s.chainClear).eoc = s.eoc := by dsimp only [State.chainClear, State.driveChain]
@[simp] theorem State.chainClear_cnt :
    (s.chainClear).cnt = s.cnt := by dsimp only [State.chainClear, State.driveChain]
@[simp] theorem State.chainClear_chain :
    (s.chainClear).chain = 0 := by dsimp only [State.chainClear, State.driveChain]
@[simp] theorem State.chainClear_rowbuf :
    (s.chainClear).rowbuf = s.rowbuf := by dsimp only [State.chainClear, State.driveChain]
@[simp] theorem State.chainClear_frame :
    (s.chainClear).frame = s.frame := by dsimp only [State.chainClear, State.driveChain]
@[simp] theorem State.chainClear_q : (s.chainClear).q = s.q := by dsimp only [State.chainClear, State.driveChain]
@[simp] theorem State.chainClear_qout :
    (s.chainClear).qout = s.qout := by dsimp only [State.chainClear, State.driveChain]
@[simp] theorem State.chainClear_err :
    (s.chainClear).err = s.err := by dsimp only [State.chainClear, State.driveChain]
@[simp] theorem State.chainClear_config :
    (s.chainClear).config = s.config := by dsimp only [State.chainClear, State.driveChain]
@[simp] theorem State.chainClear_timeout :
    (s.chainClear).timeout = s.timeout := by dsimp only [State.chainClear, State.driveChain]
@[simp] theorem State.chainClear_faultReg :
    (s.chainClear).faultReg = s.faultReg := by dsimp only [State.chainClear, State.driveChain]
@[simp] theorem State.chainClear_hsVec :
    (s.chainClear).hsVec = s.hsVec := by dsimp only [State.chainClear, State.driveChain]
@[simp] theorem State.chainClear_hsSp :
    (s.chainClear).hsSp = s.hsSp := by dsimp only [State.chainClear, State.driveChain]
@[simp] theorem State.chainClear_hsEntry :
    (s.chainClear).hsEntry = s.hsEntry := by dsimp only [State.chainClear, State.driveChain]
@[simp] theorem State.chainClear_hsState :
    (s.chainClear).hsState = s.hsState := by dsimp only [State.chainClear, State.driveChain]
@[simp] theorem State.chainClear_hsIdx :
    (s.chainClear).hsIdx = s.hsIdx := by dsimp only [State.chainClear, State.driveChain]
@[simp] theorem State.chainClear_mbTx :
    (s.chainClear).mbTx = s.mbTx := by dsimp only [State.chainClear, State.driveChain]
@[simp] theorem State.chainClear_mbRx :
    (s.chainClear).mbRx = s.mbRx := by dsimp only [State.chainClear, State.driveChain]
@[simp] theorem State.chainClear_cs : (s.chainClear).cs = s.cs := by dsimp only [State.chainClear, State.driveChain]
@[simp] theorem State.chainClear_linkReady :
    (s.chainClear).linkReady = s.linkReady := by dsimp only [State.chainClear, State.driveChain]
@[simp] theorem State.chainClear_srOut :
    (s.chainClear).srOut = s.srOut := by dsimp only [State.chainClear, State.driveChain]
@[simp] theorem State.chainClear_hist :
    (s.chainClear).hist = s.hist ++ [.clr] := by dsimp only [State.chainClear, State.driveChain]
@[simp] theorem State.chainClear_pins :
    (s.chainClear).pins = s.pins ++ [.clear s.config.clearAsserted, .clear (!s.config.clearAsserted)] := by dsimp only [State.chainClear, State.driveChain]
@[simp] theorem State.chainClear_ctrl :
    (s.chainClear).ctrl = s.ctrl := by dsimp only [State.chainClear, State.driveChain]
@[simp] theorem State.chainClear_cons :
    (s.chainClear).cons = s.cons := by dsimp only [State.chainClear, State.driveChain]
@[simp] theorem State.chainClear_answers :
    (s.chainClear).answers = s.answers := by dsimp only [State.chainClear, State.driveChain]
@[simp] theorem State.chainClear_turns :
    (s.chainClear).turns = s.turns := by dsimp only [State.chainClear, State.driveChain]
@[simp] theorem State.chainClear_linkPort :
    (s.chainClear).linkPort = s.linkPort := by dsimp only [State.chainClear, State.driveChain]
@[simp] theorem State.chainClear_epoch :
    (s.chainClear).epoch = s.epoch := by dsimp only [State.chainClear, State.driveChain]
@[simp] theorem State.chainClear_draws :
    (s.chainClear).draws = s.draws := by dsimp only [State.chainClear, State.driveChain]

/-! ChainShift changes the chain and its records only (R170). -/

@[simp] theorem State.chainShift_params (b : Bool) :
    (s.chainShift b).params = s.params := by dsimp only [State.chainShift, State.driveChain]
@[simp] theorem State.chainShift_state (b : Bool) :
    (s.chainShift b).state = s.state := by dsimp only [State.chainShift, State.driveChain]
@[simp] theorem State.chainShift_phase (b : Bool) :
    (s.chainShift b).phase = s.phase := by dsimp only [State.chainShift, State.driveChain]
@[simp] theorem State.chainShift_col (b : Bool) :
    (s.chainShift b).col = s.col := by dsimp only [State.chainShift, State.driveChain]
@[simp] theorem State.chainShift_pend (b : Bool) :
    (s.chainShift b).pend = s.pend := by dsimp only [State.chainShift, State.driveChain]
@[simp] theorem State.chainShift_edge (b : Bool) :
    (s.chainShift b).edge = s.edge := by dsimp only [State.chainShift, State.driveChain]
@[simp] theorem State.chainShift_eoc (b : Bool) :
    (s.chainShift b).eoc = s.eoc := by dsimp only [State.chainShift, State.driveChain]
@[simp] theorem State.chainShift_cnt (b : Bool) :
    (s.chainShift b).cnt = s.cnt := by dsimp only [State.chainShift, State.driveChain]
@[simp] theorem State.chainShift_chain (b : Bool) :
    (s.chainShift b).chain = truncCols s.params ((s.chain <<< 1) ||| (BitVec.ofBool b).setWidth 64) := by dsimp only [State.chainShift, State.driveChain]
@[simp] theorem State.chainShift_rowbuf (b : Bool) :
    (s.chainShift b).rowbuf = s.rowbuf := by dsimp only [State.chainShift, State.driveChain]
@[simp] theorem State.chainShift_frame (b : Bool) :
    (s.chainShift b).frame = s.frame := by dsimp only [State.chainShift, State.driveChain]
@[simp] theorem State.chainShift_q (b : Bool) :
    (s.chainShift b).q = s.q := by dsimp only [State.chainShift, State.driveChain]
@[simp] theorem State.chainShift_qout (b : Bool) :
    (s.chainShift b).qout = s.qout := by dsimp only [State.chainShift, State.driveChain]
@[simp] theorem State.chainShift_err (b : Bool) :
    (s.chainShift b).err = s.err := by dsimp only [State.chainShift, State.driveChain]
@[simp] theorem State.chainShift_config (b : Bool) :
    (s.chainShift b).config = s.config := by dsimp only [State.chainShift, State.driveChain]
@[simp] theorem State.chainShift_timeout (b : Bool) :
    (s.chainShift b).timeout = s.timeout := by dsimp only [State.chainShift, State.driveChain]
@[simp] theorem State.chainShift_faultReg (b : Bool) :
    (s.chainShift b).faultReg = s.faultReg := by dsimp only [State.chainShift, State.driveChain]
@[simp] theorem State.chainShift_hsVec (b : Bool) :
    (s.chainShift b).hsVec = s.hsVec := by dsimp only [State.chainShift, State.driveChain]
@[simp] theorem State.chainShift_hsSp (b : Bool) :
    (s.chainShift b).hsSp = s.hsSp := by dsimp only [State.chainShift, State.driveChain]
@[simp] theorem State.chainShift_hsEntry (b : Bool) :
    (s.chainShift b).hsEntry = s.hsEntry := by dsimp only [State.chainShift, State.driveChain]
@[simp] theorem State.chainShift_hsState (b : Bool) :
    (s.chainShift b).hsState = s.hsState := by dsimp only [State.chainShift, State.driveChain]
@[simp] theorem State.chainShift_hsIdx (b : Bool) :
    (s.chainShift b).hsIdx = s.hsIdx := by dsimp only [State.chainShift, State.driveChain]
@[simp] theorem State.chainShift_mbTx (b : Bool) :
    (s.chainShift b).mbTx = s.mbTx := by dsimp only [State.chainShift, State.driveChain]
@[simp] theorem State.chainShift_mbRx (b : Bool) :
    (s.chainShift b).mbRx = s.mbRx := by dsimp only [State.chainShift, State.driveChain]
@[simp] theorem State.chainShift_cs (b : Bool) :
    (s.chainShift b).cs = s.cs := by dsimp only [State.chainShift, State.driveChain]
@[simp] theorem State.chainShift_linkReady (b : Bool) :
    (s.chainShift b).linkReady = s.linkReady := by dsimp only [State.chainShift, State.driveChain]
@[simp] theorem State.chainShift_srOut (b : Bool) :
    (s.chainShift b).srOut = s.srOut := by dsimp only [State.chainShift, State.driveChain]
@[simp] theorem State.chainShift_hist (b : Bool) :
    (s.chainShift b).hist = s.hist ++ [.shift b] := by dsimp only [State.chainShift, State.driveChain]
@[simp] theorem State.chainShift_pins (b : Bool) :
    (s.chainShift b).pins = s.pins ++ [.serialIn b, .clockPulse] := by dsimp only [State.chainShift, State.driveChain]
@[simp] theorem State.chainShift_ctrl (b : Bool) :
    (s.chainShift b).ctrl = s.ctrl := by dsimp only [State.chainShift, State.driveChain]
@[simp] theorem State.chainShift_cons (b : Bool) :
    (s.chainShift b).cons = s.cons := by dsimp only [State.chainShift, State.driveChain]
@[simp] theorem State.chainShift_answers (b : Bool) :
    (s.chainShift b).answers = s.answers := by dsimp only [State.chainShift, State.driveChain]
@[simp] theorem State.chainShift_turns (b : Bool) :
    (s.chainShift b).turns = s.turns := by dsimp only [State.chainShift, State.driveChain]
@[simp] theorem State.chainShift_linkPort (b : Bool) :
    (s.chainShift b).linkPort = s.linkPort := by dsimp only [State.chainShift, State.driveChain]
@[simp] theorem State.chainShift_epoch (b : Bool) :
    (s.chainShift b).epoch = s.epoch := by dsimp only [State.chainShift, State.driveChain]
@[simp] theorem State.chainShift_draws (b : Bool) :
    (s.chainShift b).draws = s.draws := by dsimp only [State.chainShift, State.driveChain]

/-! Fault entry (R306). -/

@[simp] theorem State.scanFault_params (c : BitVec 4) :
    (s.scanFault c).params = s.params := by dsimp only [State.scanFault]
@[simp] theorem State.scanFault_state (c : BitVec 4) :
    (s.scanFault c).state = .fault := by dsimp only [State.scanFault]
@[simp] theorem State.scanFault_phase (c : BitVec 4) :
    (s.scanFault c).phase = .issue := by dsimp only [State.scanFault]
@[simp] theorem State.scanFault_col (c : BitVec 4) : (s.scanFault c).col = s.col := by dsimp only [State.scanFault]
@[simp] theorem State.scanFault_pend (c : BitVec 4) :
    (s.scanFault c).pend = .both false := by dsimp only [State.scanFault]
@[simp] theorem State.scanFault_edge (c : BitVec 4) :
    (s.scanFault c).edge = .both false := by dsimp only [State.scanFault]
@[simp] theorem State.scanFault_eoc (c : BitVec 4) : (s.scanFault c).eoc = s.eoc := by dsimp only [State.scanFault]
@[simp] theorem State.scanFault_cnt (c : BitVec 4) : (s.scanFault c).cnt = .both 0 := by dsimp only [State.scanFault]
@[simp] theorem State.scanFault_chain (c : BitVec 4) :
    (s.scanFault c).chain = s.chain := by dsimp only [State.scanFault]
@[simp] theorem State.scanFault_rowbuf (c : BitVec 4) :
    (s.scanFault c).rowbuf = s.rowbuf := by dsimp only [State.scanFault]
@[simp] theorem State.scanFault_frame (c : BitVec 4) :
    (s.scanFault c).frame = s.frame := by dsimp only [State.scanFault]
@[simp] theorem State.scanFault_q (c : BitVec 4) : (s.scanFault c).q = s.q := by dsimp only [State.scanFault]
@[simp] theorem State.scanFault_qout (c : BitVec 4) : (s.scanFault c).qout = s.qout := by dsimp only [State.scanFault]
@[simp] theorem State.scanFault_err (c : BitVec 4) : (s.scanFault c).err = s.err := by dsimp only [State.scanFault]
@[simp] theorem State.scanFault_config (c : BitVec 4) :
    (s.scanFault c).config = s.config := by dsimp only [State.scanFault]
@[simp] theorem State.scanFault_timeout (c : BitVec 4) :
    (s.scanFault c).timeout = s.timeout := by dsimp only [State.scanFault]
@[simp] theorem State.scanFault_faultReg (c : BitVec 4) :
    (s.scanFault c).faultReg = s.faultWord c := by dsimp only [State.scanFault]
@[simp] theorem State.scanFault_hsVec (c : BitVec 4) :
    (s.scanFault c).hsVec = s.hsVec := by dsimp only [State.scanFault]
@[simp] theorem State.scanFault_hsSp (c : BitVec 4) : (s.scanFault c).hsSp = s.hsSp := by dsimp only [State.scanFault]
@[simp] theorem State.scanFault_hsEntry (c : BitVec 4) :
    (s.scanFault c).hsEntry = s.hsEntry := by dsimp only [State.scanFault]
@[simp] theorem State.scanFault_hsState (c : BitVec 4) :
    (s.scanFault c).hsState = s.hsState := by dsimp only [State.scanFault]
@[simp] theorem State.scanFault_hsIdx (c : BitVec 4) :
    (s.scanFault c).hsIdx = s.hsIdx := by dsimp only [State.scanFault]
@[simp] theorem State.scanFault_mbTx (c : BitVec 4) : (s.scanFault c).mbTx = s.mbTx := by dsimp only [State.scanFault]
@[simp] theorem State.scanFault_mbRx (c : BitVec 4) : (s.scanFault c).mbRx = s.mbRx := by dsimp only [State.scanFault]
@[simp] theorem State.scanFault_cs (c : BitVec 4) : (s.scanFault c).cs = s.cs := by dsimp only [State.scanFault]
@[simp] theorem State.scanFault_linkReady (c : BitVec 4) :
    (s.scanFault c).linkReady = s.linkReady := by dsimp only [State.scanFault]
@[simp] theorem State.scanFault_srOut (c : BitVec 4) :
    (s.scanFault c).srOut = s.srOut := by dsimp only [State.scanFault]
@[simp] theorem State.scanFault_hist (c : BitVec 4) : (s.scanFault c).hist = s.hist := by dsimp only [State.scanFault]
@[simp] theorem State.scanFault_pins (c : BitVec 4) : (s.scanFault c).pins = s.pins := by dsimp only [State.scanFault]
@[simp] theorem State.scanFault_ctrl (c : BitVec 4) : (s.scanFault c).ctrl = s.ctrl := by dsimp only [State.scanFault]
@[simp] theorem State.scanFault_cons (c : BitVec 4) : (s.scanFault c).cons = s.cons := by dsimp only [State.scanFault]
@[simp] theorem State.scanFault_answers (c : BitVec 4) :
    (s.scanFault c).answers = s.answers := by dsimp only [State.scanFault]
@[simp] theorem State.scanFault_turns (c : BitVec 4) :
    (s.scanFault c).turns = s.turns := by dsimp only [State.scanFault]
@[simp] theorem State.scanFault_linkPort (c : BitVec 4) :
    (s.scanFault c).linkPort = s.linkPort := by dsimp only [State.scanFault]
@[simp] theorem State.scanFault_epoch (c : BitVec 4) :
    (s.scanFault c).epoch = s.epoch := by dsimp only [State.scanFault]
@[simp] theorem State.scanFault_draws (c : BitVec 4) :
    (s.scanFault c).draws = s.draws := by dsimp only [State.scanFault]

/-! The end of a SERVICE step (R201). -/

@[simp] theorem State.served_params (d : Dev) : (s.served d).params = s.params := by dsimp only [State.served]
@[simp] theorem State.served_state (d : Dev) : (s.served d).state = s.state := by dsimp only [State.served]
@[simp] theorem State.served_phase (d : Dev) :
    (s.served d).phase = if !(s.pend.set d false).a ∧ !(s.pend.set d false).b then .handoff else s.phase := by dsimp only [State.served]
@[simp] theorem State.served_col (d : Dev) : (s.served d).col = s.col := by dsimp only [State.served]
@[simp] theorem State.served_pend (d : Dev) : (s.served d).pend = s.pend.set d false := by dsimp only [State.served]
@[simp] theorem State.served_edge (d : Dev) : (s.served d).edge = s.edge.set d false := by dsimp only [State.served]
@[simp] theorem State.served_eoc (d : Dev) : (s.served d).eoc = s.eoc := by dsimp only [State.served]
@[simp] theorem State.served_cnt (d : Dev) : (s.served d).cnt = s.cnt.set d 0 := by dsimp only [State.served]
@[simp] theorem State.served_chain (d : Dev) : (s.served d).chain = s.chain := by dsimp only [State.served]
@[simp] theorem State.served_rowbuf (d : Dev) : (s.served d).rowbuf = s.rowbuf := by dsimp only [State.served]
@[simp] theorem State.served_frame (d : Dev) : (s.served d).frame = s.frame := by dsimp only [State.served]
@[simp] theorem State.served_q (d : Dev) : (s.served d).q = s.q := by dsimp only [State.served]
@[simp] theorem State.served_qout (d : Dev) : (s.served d).qout = s.qout := by dsimp only [State.served]
@[simp] theorem State.served_err (d : Dev) : (s.served d).err = s.err := by dsimp only [State.served]
@[simp] theorem State.served_config (d : Dev) : (s.served d).config = s.config := by dsimp only [State.served]
@[simp] theorem State.served_timeout (d : Dev) : (s.served d).timeout = s.timeout := by dsimp only [State.served]
@[simp] theorem State.served_faultReg (d : Dev) : (s.served d).faultReg = s.faultReg := by dsimp only [State.served]
@[simp] theorem State.served_hsVec (d : Dev) : (s.served d).hsVec = s.hsVec := by dsimp only [State.served]
@[simp] theorem State.served_hsSp (d : Dev) : (s.served d).hsSp = s.hsSp := by dsimp only [State.served]
@[simp] theorem State.served_hsEntry (d : Dev) : (s.served d).hsEntry = s.hsEntry := by dsimp only [State.served]
@[simp] theorem State.served_hsState (d : Dev) : (s.served d).hsState = s.hsState := by dsimp only [State.served]
@[simp] theorem State.served_hsIdx (d : Dev) : (s.served d).hsIdx = s.hsIdx := by dsimp only [State.served]
@[simp] theorem State.served_mbTx (d : Dev) : (s.served d).mbTx = s.mbTx := by dsimp only [State.served]
@[simp] theorem State.served_mbRx (d : Dev) : (s.served d).mbRx = s.mbRx := by dsimp only [State.served]
@[simp] theorem State.served_cs (d : Dev) : (s.served d).cs = s.cs := by dsimp only [State.served]
@[simp] theorem State.served_linkReady (d : Dev) :
    (s.served d).linkReady = s.linkReady := by dsimp only [State.served]
@[simp] theorem State.served_srOut (d : Dev) : (s.served d).srOut = s.srOut := by dsimp only [State.served]
@[simp] theorem State.served_hist (d : Dev) : (s.served d).hist = s.hist := by dsimp only [State.served]
@[simp] theorem State.served_pins (d : Dev) : (s.served d).pins = s.pins := by dsimp only [State.served]
@[simp] theorem State.served_ctrl (d : Dev) : (s.served d).ctrl = s.ctrl := by dsimp only [State.served]
@[simp] theorem State.served_cons (d : Dev) : (s.served d).cons = s.cons := by dsimp only [State.served]
@[simp] theorem State.served_answers (d : Dev) : (s.served d).answers = s.answers := by dsimp only [State.served]
@[simp] theorem State.served_turns (d : Dev) : (s.served d).turns = s.turns := by dsimp only [State.served]
@[simp] theorem State.served_linkPort (d : Dev) : (s.served d).linkPort = s.linkPort := by dsimp only [State.served]
@[simp] theorem State.served_epoch (d : Dev) : (s.served d).epoch = s.epoch := by dsimp only [State.served]
@[simp] theorem State.served_draws (d : Dev) : (s.served d).draws = s.draws := by dsimp only [State.served]

/-! A push (R231). -/

@[simp] theorem State.push_params (row : List Byte) (tag : Word) :
    (s.push row tag).params = s.params := by dsimp only [State.push]
@[simp] theorem State.push_state (row : List Byte) (tag : Word) :
    (s.push row tag).state = s.state := by dsimp only [State.push]
@[simp] theorem State.push_phase (row : List Byte) (tag : Word) :
    (s.push row tag).phase = s.phase := by dsimp only [State.push]
@[simp] theorem State.push_col (row : List Byte) (tag : Word) :
    (s.push row tag).col = s.col := by dsimp only [State.push]
@[simp] theorem State.push_pend (row : List Byte) (tag : Word) :
    (s.push row tag).pend = s.pend := by dsimp only [State.push]
@[simp] theorem State.push_edge (row : List Byte) (tag : Word) :
    (s.push row tag).edge = s.edge := by dsimp only [State.push]
@[simp] theorem State.push_eoc (row : List Byte) (tag : Word) :
    (s.push row tag).eoc = s.eoc := by dsimp only [State.push]
@[simp] theorem State.push_cnt (row : List Byte) (tag : Word) :
    (s.push row tag).cnt = s.cnt := by dsimp only [State.push]
@[simp] theorem State.push_chain (row : List Byte) (tag : Word) :
    (s.push row tag).chain = s.chain := by dsimp only [State.push]
@[simp] theorem State.push_rowbuf (row : List Byte) (tag : Word) :
    (s.push row tag).rowbuf = s.rowbuf := by dsimp only [State.push]
@[simp] theorem State.push_frame (row : List Byte) (tag : Word) :
    (s.push row tag).frame = s.frame := by dsimp only [State.push]
@[simp] theorem State.push_q (row : List Byte) (tag : Word) :
    (s.push row tag).q = s.q ++ [⟨row, tag⟩] := by dsimp only [State.push]
@[simp] theorem State.push_qout (row : List Byte) (tag : Word) :
    (s.push row tag).qout = s.qout := by dsimp only [State.push]
@[simp] theorem State.push_err (row : List Byte) (tag : Word) :
    (s.push row tag).err = s.err := by dsimp only [State.push]
@[simp] theorem State.push_config (row : List Byte) (tag : Word) :
    (s.push row tag).config = s.config := by dsimp only [State.push]
@[simp] theorem State.push_timeout (row : List Byte) (tag : Word) :
    (s.push row tag).timeout = s.timeout := by dsimp only [State.push]
@[simp] theorem State.push_faultReg (row : List Byte) (tag : Word) :
    (s.push row tag).faultReg = s.faultReg := by dsimp only [State.push]
@[simp] theorem State.push_hsVec (row : List Byte) (tag : Word) :
    (s.push row tag).hsVec = s.hsVec := by dsimp only [State.push]
@[simp] theorem State.push_hsSp (row : List Byte) (tag : Word) :
    (s.push row tag).hsSp = s.hsSp := by dsimp only [State.push]
@[simp] theorem State.push_hsEntry (row : List Byte) (tag : Word) :
    (s.push row tag).hsEntry = s.hsEntry := by dsimp only [State.push]
@[simp] theorem State.push_hsState (row : List Byte) (tag : Word) :
    (s.push row tag).hsState = s.hsState := by dsimp only [State.push]
@[simp] theorem State.push_hsIdx (row : List Byte) (tag : Word) :
    (s.push row tag).hsIdx = s.hsIdx := by dsimp only [State.push]
@[simp] theorem State.push_mbTx (row : List Byte) (tag : Word) :
    (s.push row tag).mbTx = s.mbTx := by dsimp only [State.push]
@[simp] theorem State.push_mbRx (row : List Byte) (tag : Word) :
    (s.push row tag).mbRx = s.mbRx := by dsimp only [State.push]
@[simp] theorem State.push_cs (row : List Byte) (tag : Word) :
    (s.push row tag).cs = s.cs := by dsimp only [State.push]
@[simp] theorem State.push_linkReady (row : List Byte) (tag : Word) :
    (s.push row tag).linkReady = s.linkReady := by dsimp only [State.push]
@[simp] theorem State.push_srOut (row : List Byte) (tag : Word) :
    (s.push row tag).srOut = s.srOut := by dsimp only [State.push]
@[simp] theorem State.push_hist (row : List Byte) (tag : Word) :
    (s.push row tag).hist = s.hist := by dsimp only [State.push]
@[simp] theorem State.push_pins (row : List Byte) (tag : Word) :
    (s.push row tag).pins = s.pins := by dsimp only [State.push]
@[simp] theorem State.push_ctrl (row : List Byte) (tag : Word) :
    (s.push row tag).ctrl = s.ctrl := by dsimp only [State.push]
@[simp] theorem State.push_cons (row : List Byte) (tag : Word) :
    (s.push row tag).cons = s.cons := by dsimp only [State.push]
@[simp] theorem State.push_answers (row : List Byte) (tag : Word) :
    (s.push row tag).answers = s.answers := by dsimp only [State.push]
@[simp] theorem State.push_turns (row : List Byte) (tag : Word) :
    (s.push row tag).turns = s.turns := by dsimp only [State.push]
@[simp] theorem State.push_linkPort (row : List Byte) (tag : Word) :
    (s.push row tag).linkPort = s.linkPort := by dsimp only [State.push]
@[simp] theorem State.push_epoch (row : List Byte) (tag : Word) :
    (s.push row tag).epoch = s.epoch := by dsimp only [State.push]
@[simp] theorem State.push_draws (row : List Byte) (tag : Word) :
    (s.push row tag).draws = s.draws := by dsimp only [State.push]

/-! What a master waits on is no state of the block. -/

@[simp] theorem State.setWaiting_params (m : MasterId) (w : List BusAccess) :
    (s.setWaiting m w).params = s.params := by cases m <;> rfl
@[simp] theorem State.setWaiting_state (m : MasterId) (w : List BusAccess) :
    (s.setWaiting m w).state = s.state := by cases m <;> rfl
@[simp] theorem State.setWaiting_phase (m : MasterId) (w : List BusAccess) :
    (s.setWaiting m w).phase = s.phase := by cases m <;> rfl
@[simp] theorem State.setWaiting_col (m : MasterId) (w : List BusAccess) :
    (s.setWaiting m w).col = s.col := by cases m <;> rfl
@[simp] theorem State.setWaiting_pend (m : MasterId) (w : List BusAccess) :
    (s.setWaiting m w).pend = s.pend := by cases m <;> rfl
@[simp] theorem State.setWaiting_edge (m : MasterId) (w : List BusAccess) :
    (s.setWaiting m w).edge = s.edge := by cases m <;> rfl
@[simp] theorem State.setWaiting_eoc (m : MasterId) (w : List BusAccess) :
    (s.setWaiting m w).eoc = s.eoc := by cases m <;> rfl
@[simp] theorem State.setWaiting_cnt (m : MasterId) (w : List BusAccess) :
    (s.setWaiting m w).cnt = s.cnt := by cases m <;> rfl
@[simp] theorem State.setWaiting_chain (m : MasterId) (w : List BusAccess) :
    (s.setWaiting m w).chain = s.chain := by cases m <;> rfl
@[simp] theorem State.setWaiting_rowbuf (m : MasterId) (w : List BusAccess) :
    (s.setWaiting m w).rowbuf = s.rowbuf := by cases m <;> rfl
@[simp] theorem State.setWaiting_frame (m : MasterId) (w : List BusAccess) :
    (s.setWaiting m w).frame = s.frame := by cases m <;> rfl
@[simp] theorem State.setWaiting_q (m : MasterId) (w : List BusAccess) :
    (s.setWaiting m w).q = s.q := by cases m <;> rfl
@[simp] theorem State.setWaiting_qout (m : MasterId) (w : List BusAccess) :
    (s.setWaiting m w).qout = s.qout := by cases m <;> rfl
@[simp] theorem State.setWaiting_err (m : MasterId) (w : List BusAccess) :
    (s.setWaiting m w).err = s.err := by cases m <;> rfl
@[simp] theorem State.setWaiting_config (m : MasterId) (w : List BusAccess) :
    (s.setWaiting m w).config = s.config := by cases m <;> rfl
@[simp] theorem State.setWaiting_timeout (m : MasterId) (w : List BusAccess) :
    (s.setWaiting m w).timeout = s.timeout := by cases m <;> rfl
@[simp] theorem State.setWaiting_faultReg (m : MasterId) (w : List BusAccess) :
    (s.setWaiting m w).faultReg = s.faultReg := by cases m <;> rfl
@[simp] theorem State.setWaiting_hsVec (m : MasterId) (w : List BusAccess) :
    (s.setWaiting m w).hsVec = s.hsVec := by cases m <;> rfl
@[simp] theorem State.setWaiting_hsSp (m : MasterId) (w : List BusAccess) :
    (s.setWaiting m w).hsSp = s.hsSp := by cases m <;> rfl
@[simp] theorem State.setWaiting_hsEntry (m : MasterId) (w : List BusAccess) :
    (s.setWaiting m w).hsEntry = s.hsEntry := by cases m <;> rfl
@[simp] theorem State.setWaiting_hsState (m : MasterId) (w : List BusAccess) :
    (s.setWaiting m w).hsState = s.hsState := by cases m <;> rfl
@[simp] theorem State.setWaiting_hsIdx (m : MasterId) (w : List BusAccess) :
    (s.setWaiting m w).hsIdx = s.hsIdx := by cases m <;> rfl
@[simp] theorem State.setWaiting_mbTx (m : MasterId) (w : List BusAccess) :
    (s.setWaiting m w).mbTx = s.mbTx := by cases m <;> rfl
@[simp] theorem State.setWaiting_mbRx (m : MasterId) (w : List BusAccess) :
    (s.setWaiting m w).mbRx = s.mbRx := by cases m <;> rfl
@[simp] theorem State.setWaiting_cs (m : MasterId) (w : List BusAccess) :
    (s.setWaiting m w).cs = s.cs := by cases m <;> rfl
@[simp] theorem State.setWaiting_linkReady (m : MasterId) (w : List BusAccess) :
    (s.setWaiting m w).linkReady = s.linkReady := by cases m <;> rfl
@[simp] theorem State.setWaiting_srOut (m : MasterId) (w : List BusAccess) :
    (s.setWaiting m w).srOut = s.srOut := by cases m <;> rfl
@[simp] theorem State.setWaiting_hist (m : MasterId) (w : List BusAccess) :
    (s.setWaiting m w).hist = s.hist := by cases m <;> rfl
@[simp] theorem State.setWaiting_pins (m : MasterId) (w : List BusAccess) :
    (s.setWaiting m w).pins = s.pins := by cases m <;> rfl
@[simp] theorem State.setWaiting_answers (m : MasterId) (w : List BusAccess) :
    (s.setWaiting m w).answers = s.answers := by cases m <;> rfl
@[simp] theorem State.setWaiting_turns (m : MasterId) (w : List BusAccess) :
    (s.setWaiting m w).turns = s.turns := by cases m <;> rfl
@[simp] theorem State.setWaiting_linkPort (m : MasterId) (w : List BusAccess) :
    (s.setWaiting m w).linkPort = s.linkPort := by cases m <;> rfl
@[simp] theorem State.setWaiting_epoch (m : MasterId) (w : List BusAccess) :
    (s.setWaiting m w).epoch = s.epoch := by cases m <;> rfl
@[simp] theorem State.setWaiting_draws (m : MasterId) (w : List BusAccess) :
    (s.setWaiting m w).draws = s.draws := by cases m <;> rfl

/-! What a read returned is no state of the block. -/

@[simp] theorem State.pushReturned_params (m : MasterId) (v : Word) :
    (s.pushReturned m v).params = s.params := by cases m <;> rfl
@[simp] theorem State.pushReturned_state (m : MasterId) (v : Word) :
    (s.pushReturned m v).state = s.state := by cases m <;> rfl
@[simp] theorem State.pushReturned_phase (m : MasterId) (v : Word) :
    (s.pushReturned m v).phase = s.phase := by cases m <;> rfl
@[simp] theorem State.pushReturned_col (m : MasterId) (v : Word) :
    (s.pushReturned m v).col = s.col := by cases m <;> rfl
@[simp] theorem State.pushReturned_pend (m : MasterId) (v : Word) :
    (s.pushReturned m v).pend = s.pend := by cases m <;> rfl
@[simp] theorem State.pushReturned_edge (m : MasterId) (v : Word) :
    (s.pushReturned m v).edge = s.edge := by cases m <;> rfl
@[simp] theorem State.pushReturned_eoc (m : MasterId) (v : Word) :
    (s.pushReturned m v).eoc = s.eoc := by cases m <;> rfl
@[simp] theorem State.pushReturned_cnt (m : MasterId) (v : Word) :
    (s.pushReturned m v).cnt = s.cnt := by cases m <;> rfl
@[simp] theorem State.pushReturned_chain (m : MasterId) (v : Word) :
    (s.pushReturned m v).chain = s.chain := by cases m <;> rfl
@[simp] theorem State.pushReturned_rowbuf (m : MasterId) (v : Word) :
    (s.pushReturned m v).rowbuf = s.rowbuf := by cases m <;> rfl
@[simp] theorem State.pushReturned_frame (m : MasterId) (v : Word) :
    (s.pushReturned m v).frame = s.frame := by cases m <;> rfl
@[simp] theorem State.pushReturned_q (m : MasterId) (v : Word) : (s.pushReturned m v).q = s.q := by cases m <;> rfl
@[simp] theorem State.pushReturned_qout (m : MasterId) (v : Word) :
    (s.pushReturned m v).qout = s.qout := by cases m <;> rfl
@[simp] theorem State.pushReturned_err (m : MasterId) (v : Word) :
    (s.pushReturned m v).err = s.err := by cases m <;> rfl
@[simp] theorem State.pushReturned_config (m : MasterId) (v : Word) :
    (s.pushReturned m v).config = s.config := by cases m <;> rfl
@[simp] theorem State.pushReturned_timeout (m : MasterId) (v : Word) :
    (s.pushReturned m v).timeout = s.timeout := by cases m <;> rfl
@[simp] theorem State.pushReturned_faultReg (m : MasterId) (v : Word) :
    (s.pushReturned m v).faultReg = s.faultReg := by cases m <;> rfl
@[simp] theorem State.pushReturned_hsVec (m : MasterId) (v : Word) :
    (s.pushReturned m v).hsVec = s.hsVec := by cases m <;> rfl
@[simp] theorem State.pushReturned_hsSp (m : MasterId) (v : Word) :
    (s.pushReturned m v).hsSp = s.hsSp := by cases m <;> rfl
@[simp] theorem State.pushReturned_hsEntry (m : MasterId) (v : Word) :
    (s.pushReturned m v).hsEntry = s.hsEntry := by cases m <;> rfl
@[simp] theorem State.pushReturned_hsState (m : MasterId) (v : Word) :
    (s.pushReturned m v).hsState = s.hsState := by cases m <;> rfl
@[simp] theorem State.pushReturned_hsIdx (m : MasterId) (v : Word) :
    (s.pushReturned m v).hsIdx = s.hsIdx := by cases m <;> rfl
@[simp] theorem State.pushReturned_mbTx (m : MasterId) (v : Word) :
    (s.pushReturned m v).mbTx = s.mbTx := by cases m <;> rfl
@[simp] theorem State.pushReturned_mbRx (m : MasterId) (v : Word) :
    (s.pushReturned m v).mbRx = s.mbRx := by cases m <;> rfl
@[simp] theorem State.pushReturned_cs (m : MasterId) (v : Word) : (s.pushReturned m v).cs = s.cs := by cases m <;> rfl
@[simp] theorem State.pushReturned_linkReady (m : MasterId) (v : Word) :
    (s.pushReturned m v).linkReady = s.linkReady := by cases m <;> rfl
@[simp] theorem State.pushReturned_srOut (m : MasterId) (v : Word) :
    (s.pushReturned m v).srOut = s.srOut := by cases m <;> rfl
@[simp] theorem State.pushReturned_hist (m : MasterId) (v : Word) :
    (s.pushReturned m v).hist = s.hist := by cases m <;> rfl
@[simp] theorem State.pushReturned_pins (m : MasterId) (v : Word) :
    (s.pushReturned m v).pins = s.pins := by cases m <;> rfl
@[simp] theorem State.pushReturned_answers (m : MasterId) (v : Word) :
    (s.pushReturned m v).answers = s.answers := by cases m <;> rfl
@[simp] theorem State.pushReturned_turns (m : MasterId) (v : Word) :
    (s.pushReturned m v).turns = s.turns := by cases m <;> rfl
@[simp] theorem State.pushReturned_linkPort (m : MasterId) (v : Word) :
    (s.pushReturned m v).linkPort = s.linkPort := by cases m <;> rfl
@[simp] theorem State.pushReturned_epoch (m : MasterId) (v : Word) :
    (s.pushReturned m v).epoch = s.epoch := by cases m <;> rfl
@[simp] theorem State.pushReturned_draws (m : MasterId) (v : Word) :
    (s.pushReturned m v).draws = s.draws := by cases m <;> rfl

end Sys2Proof.Machine
end

