-- ==== Sys2Proof/Laws/Step.lean ====
section
/-! SUPPORT. What a step can do, said once: every command completes, every turn completes, and a predicate that each
agent's own operation keeps is kept by every step. -/

namespace Sys2Proof.Machine

/-- Every instruction completes in every state: no error of the block stops it (R22, R300). -/
theorem exec_completes (i : Instr) (s : State) : ∃ t, exec i s = .next t := by cases i <;> exact ⟨_, rfl⟩

/-- A write completes. -/
theorem writeReg_completes (s : State) (r : Reg) (v : Word) : ∃ t, s.writeReg r v = .next t := by
  cases r <;> first | exact exec_completes _ _ | exact ⟨_, rfl⟩

theorem busWrite_completes (s : State) (acc : BusAccess) (v : Word) : ∃ t, s.busWrite acc v = .next t := by
  unfold State.busWrite
  split
  · exact ⟨_, rfl⟩
  · exact writeReg_completes ..

/-- What a completed access did: a read that returned a value, or a write. -/
theorem access_cases {s : State} {m : MasterId} {acc : BusAccess} {o : Host.Outcome State Fault Refusal}
    (h : s.access m acc = some o) :
    (acc.op = .read ∧ ∃ v t, s.busRead acc = some (v, t) ∧ o = .next (t.pushReturned m v)) ∨
      ∃ v, acc.op = .write v ∧ o = s.busWrite acc v := by
  unfold State.access at h
  split at h
  · rename_i hop
    obtain ⟨⟨v, t⟩, hr, rfl⟩ := Option.map_eq_some_iff.mp h
    exact .inl ⟨hop, v, t, hr, rfl⟩
  · rename_i v hop
    exact .inr ⟨v, hop, (Option.some.inj h).symm⟩

/-- A master's turn: nothing to do, a stall that changes nothing, or its oldest access completes. -/
theorem runMaster_cases (s : State) (m : MasterId) :
    s.runMaster m = .next s ∨
      ∃ acc rest o, (s.master m).waiting = acc :: rest ∧ (s.setWaiting m rest).access m acc = some o ∧
        s.runMaster m = o := by
  unfold State.runMaster
  split
  · exact .inl rfl
  · rename_i acc rest hw
    cases ha : (s.setWaiting m rest).access m acc with
    | none => exact .inl rfl
    | some o => exact .inr ⟨acc, rest, o, hw, ha, rfl⟩

theorem runMaster_completes (s : State) (m : MasterId) : ∃ t, s.runMaster m = .next t := by
  rcases runMaster_cases s m with h | ⟨acc, rest, o, -, ha, h⟩
  · exact ⟨_, h⟩
  · rw [h]
    rcases access_cases ha with ⟨-, v, t, -, rfl⟩ | ⟨v, -, rfl⟩
    · exact ⟨_, rfl⟩
    · exact busWrite_completes ..

/-- Every turn completes: a step that is not enabled leaves the state (R24). -/
theorem takeTurn_completes (s : State) (t : Turn) : ∃ t', s.takeTurn t = .next t' := by
  cases t <;> first | exact runMaster_completes .. | exact ⟨_, rfl⟩

/-- Where no wire byte was placed from outside, a step is the next turn. -/
theorem step_eq_turn {s : State} (h : s.linkPort = none) : step s = s.nextTurn.2.takeTurn s.nextTurn.1 := by
  unfold step State.machineStep
  rw [h]

/-- What the operations of the agents must keep for every step to keep `P`. -/
structure KeptByAgents (P : State → Prop) : Prop where
  waiting : ∀ s m w, P s → P (s.setWaiting m w)
  returned : ∀ s m v, P s → P (s.pushReturned m v)
  turns : ∀ s ts, P s → P { s with turns := ts }
  draws : ∀ s n, P s → P { s with draws := n }
  run : ∀ i s t, P s → i.cmdWord?.isSome → exec i s = .next t → P t
  read : ∀ s acc v t, P s → s.busRead acc = some (v, t) → P t
  write : ∀ s r v t, P s → r ≠ .cmd → s.writeReg r v = .next t → P t
  badAccess : ∀ s, P s → P (s.setErr .badAccess)
  seq : ∀ s k t, P s → s.seqStep k = some t → P t
  eoc : ∀ s d v, P s → P (s.eocDrive d v)
  answer : ∀ s d bs, P s → P (s.placeAnswer d bs)
  tick : ∀ s, P s → P s.tick
  linkReady : ∀ s v, P s → P { s with linkReady := v }
  srOut : ∀ s v, P s → P { s with srOut := v }
  reset : ∀ s, P s → P s.resetStep

/-- A decoded word is a command, never a wire byte. -/
theorem decodeCmd_isCommand (w : Word) : (decodeCmd w).cmdWord?.isSome := by
  have choose : ∀ (c : Prop) [Decidable c] (i j : Instr), i.cmdWord?.isSome → j.cmdWord?.isSome →
      (if c then i else j).cmdWord?.isSome := by
    intro c _ i j hi hj
    split <;> assumption
  have hw : (Instr.illegal w).cmdWord?.isSome := rfl
  unfold decodeCmd
  exact choose _ _ _ hw (choose _ _ _ (choose _ _ _ rfl hw) (choose _ _ _ (choose _ _ _ rfl hw)
    (choose _ _ _ (choose _ _ _ rfl hw) (choose _ _ _ (choose _ _ _ rfl hw) (choose _ _ _ (choose _ _ _ rfl hw)
    (choose _ _ _ (choose _ _ _ rfl hw) (choose _ _ _ (choose _ _ _ rfl hw) (choose _ _ _ (choose _ _ _ rfl hw)
    (choose _ _ _ (choose _ _ _ rfl hw) hw)))))))))

variable {P : State → Prop}

theorem KeptByAgents.busWrite (k : KeptByAgents P) {s t : State} {acc : BusAccess} {v : Word} (hs : P s)
    (h : s.busWrite acc v = .next t) : P t := by
  unfold State.busWrite at h
  split at h
  · cases h; exact k.badAccess _ hs
  · rename_i r _
    by_cases hr : r = .cmd
    · subst hr; exact k.run _ _ _ hs (decodeCmd_isCommand _) h
    · exact k.write _ _ _ _ hs hr h

theorem KeptByAgents.runMaster (k : KeptByAgents P) {s t : State} {m : MasterId} (hs : P s)
    (h : s.runMaster m = .next t) : P t := by
  rcases runMaster_cases s m with h' | ⟨acc, rest, o, -, ha, h'⟩
  · rw [h'] at h; cases h; exact hs
  · rw [h'] at h
    subst h
    rcases access_cases ha with ⟨-, v, t', hr, ho⟩ | ⟨v, -, ho⟩
    · cases ho
      exact k.returned _ _ _ (k.read _ _ _ _ (k.waiting _ _ _ hs) hr)
    · exact k.busWrite (k.waiting _ _ _ hs) ho.symm

theorem KeptByAgents.takeTurn (k : KeptByAgents P) {s t : State} {u : Turn} (hs : P s)
    (h : s.takeTurn u = .next t) : P t := by
  cases u with
  | access m acc => exact k.runMaster (k.waiting _ _ _ hs) h
  | retry m => exact k.runMaster hs h
  | seq j =>
    cases h
    cases hk : s.seqStep j with
    | none => exact hs
    | some t => exact k.seq _ _ _ hs hk
  | eocDrive d v => cases h; exact k.eoc _ _ _ hs
  | adcReturns d bs => cases h; exact k.answer _ _ _ hs
  | tick => cases h; exact k.tick _ hs
  | linkReady v => cases h; exact k.linkReady _ _ hs
  | srOut v => cases h; exact k.srOut _ _ hs
  | reset => cases h; exact k.reset _ hs

theorem KeptByAgents.nextTurn (k : KeptByAgents P) {s : State} (hs : P s) : P s.nextTurn.2 := by
  unfold State.nextTurn
  split
  · exact k.turns _ _ hs
  · exact k.draws _ _ hs

/-- The induction packaged once: what every agent's operation keeps, every step keeps. -/
theorem KeptByAgents.step (k : KeptByAgents P) {s t : State} (hp : s.linkPort = none) (hs : P s)
    (h : step s = .next t) : P t := by
  rw [step_eq_turn hp] at h
  exact k.takeTurn (k.nextTurn hs) h

end Sys2Proof.Machine
end

