-- ==== Sys2Proof/Laws/Frames.lean ====
section
/-! SUPPORT. The frame of each operation that branches: the result is the state with only the named fields changed. A
proof about some other field rewrites with the frame and needs no case split. -/

namespace Sys2Proof.Machine

/-- What a link transaction touches. -/
theorem linkXfer_frame (s : State) (d : Dev) (tx placed : List Byte) :
    (s.linkXfer d tx placed).1 =
      { s with
        cs := s.cs.set d false
        pins := s.pins ++ s.framePins d tx
        hist := s.hist ++ [.xfer d tx (s.answerBytes d placed tx.length)]
        draws := s.draws + tx.length } := by
  cases d <;> rfl

/-- A transaction receives one byte for each byte sent (R20). -/
@[simp] theorem answerBytes_length (s : State) (d : Dev) (placed : List Byte) (n : Nat) :
    (s.answerBytes d placed n).length = n := by simp [State.answerBytes]

/-- A response has ADC_RESPONSE_LENGTH bytes (R143). -/
@[simp] theorem readTransaction_length (s : State) (d : Dev) :
    (s.readTransaction d).2.length = s.params.responseLength := by
  simp [State.readTransaction, State.linkXfer]

/-- Half as many samples as received bytes (R144). -/
theorem deintAll_length (n : Nat) (rx : List Byte) (h : rx.length = 2 * n) : (deintAll rx).length = n := by
  induction n generalizing rx with
  | zero => simp [List.length_eq_zero_iff.mp (by simpa using h), deintAll]
  | succ n ih =>
    match rx, h with
    | _ :: _ :: r, h => simp [deintAll, ih r (by simp at h; omega)]

/-- What the setup of one ADC touches. -/
theorem setupDev_frame (s : State) (d : Dev) :
    s.setupDev d =
      { s with
        cs := (s.setupDev d).cs
        pins := (s.setupDev d).pins
        hist := (s.setupDev d).hist
        draws := (s.setupDev d).draws } := by
  unfold State.setupDev
  split
  · rw [linkXfer_frame]
  · rfl

/-- What a counted tick touches. -/
theorem countTick_frame (s : State) (d : Dev) : s.countTick d = { s with cnt := (s.countTick d).cnt } := by
  unfold State.countTick
  split <;> rfl

/-- What flagging a timeout touches. -/
theorem flagTimeout_frame (s : State) (d : Dev) (hit : Bool) :
    s.flagTimeout d hit = { s with err := (s.flagTimeout d hit).err } := by cases hit <;> rfl

/-- What the timeout check touches. -/
theorem checkTimeout_frame (s : State) :
    s.checkTimeout =
      { s with
        err := s.checkTimeout.err
        faultReg := s.checkTimeout.faultReg
        state := s.checkTimeout.state
        phase := s.checkTimeout.phase
        pend := s.checkTimeout.pend
        edge := s.checkTimeout.edge
        cnt := s.checkTimeout.cnt } := by
  unfold State.checkTimeout
  dsimp only
  rw [flagTimeout_frame (s.flagTimeout _ _), flagTimeout_frame s]
  split
  · rfl
  · split <;> rfl

/-- What TICK touches. -/
theorem tick_frame (s : State) :
    s.tick =
      { s with
        err := s.tick.err
        faultReg := s.tick.faultReg
        state := s.tick.state
        phase := s.tick.phase
        pend := s.tick.pend
        edge := s.tick.edge
        cnt := s.tick.cnt } := by
  unfold State.tick
  dsimp only
  split
  · rw [countTick_frame (s.countTick .a), countTick_frame s]
    split
    · rw [checkTimeout_frame]
    · rfl
  · rfl

/-- What an EOC level touches. -/
theorem eocDrive_frame (s : State) (d : Dev) (v : Bool) :
    s.eocDrive d v =
      { s with eoc := s.eoc.set d v, edge := (s.eocDrive d v).edge, err := (s.eocDrive d v).err } := by
  unfold State.eocDrive State.fallingEdge
  dsimp only
  repeat' split
  all_goals rfl

/-- What the delivery of a row touches. -/
theorem deliver_frame (s : State) : s.deliver = { s with q := s.deliver.q, frame := s.deliver.frame } := by
  unfold State.deliver
  split <;> rfl

/-- ISSUE, when it is taken. -/
theorem issue_eq_some {s t : State} (h : s.issue = some t) :
    (s.state = .scanning ∧ s.phase = .issue) ∧
      t = { (State.requestConversion { s with edge := .both false } .a).requestConversion .b with
        pend := .both true, cnt := .both 0, phase := .wait } := by
  unfold State.issue at h
  split at h
  · rename_i hg
    cases h
    exact ⟨hg, rfl⟩
  · cases h

/-- SERVICE, when it is taken. -/
theorem service_eq_some {s t : State} {d : Dev} (h : s.service d = some t) :
    s.serviceReady d = true ∧ t = (s.readIntoHalf d).served d := by
  unfold State.service at h
  split at h
  · rename_i hg
    cases h
    exact ⟨hg, rfl⟩
  · cases h

/-- SERVICE needs SCANNING, WAIT, and the ADC complete. -/
theorem serviceReady_iff (s : State) (d : Dev) :
    s.serviceReady d = true ↔
      s.state = .scanning ∧ s.phase = .wait ∧ s.cond d = true ∧ (d = .b → s.cond .a = false) := by
  cases d <;> simp [State.serviceReady, and_assoc]

/-- HANDOFF, when it is taken: it finishes the scan or advances to the next column. -/
theorem handoff_eq_some {s t : State} (h : s.handoff = some t) :
    (s.state = .scanning ∧ s.phase = .handoff ∧ (s.config.mode = true → s.q.length < s.params.qCap)) ∧
      ((s.col = s.params.lastCol ∧ t = s.deliver.finish) ∨ (s.col ≠ s.params.lastCol ∧ t = s.deliver.advance)) := by
  unfold State.handoff at h
  split at h
  · rename_i hg
    refine ⟨?_, ?_⟩
    · simp only [State.handoffReady, Bool.and_eq_true, Bool.or_eq_true, beq_iff_eq, decide_eq_true_eq,
        Bool.not_eq_true'] at hg
      refine ⟨hg.1.1, hg.1.2, fun hm => hg.2.resolve_left ?_⟩
      rw [hm]
      decide
    · cases h
      split
      · exact .inl ⟨by assumption, rfl⟩
      · exact .inr ⟨by assumption, rfl⟩
  · cases h

/-- HS_SEND, when it is taken. -/
theorem hsSend_eq_some {s t : State} (h : s.hsSend = some t) :
    (s.hsState = .send ∧ s.mbTx.valid = false) ∧
      ∃ w, s.hsWord = some w ∧ t = { s with mbTx := ⟨true, w⟩, hsState := .wait } := by
  unfold State.hsSend at h
  split at h
  · rename_i hg
    obtain ⟨w, hw, rfl⟩ := Option.map_eq_some_iff.mp h
    exact ⟨by simpa using hg, w, hw, rfl⟩
  · cases h

/-- HS_CHECK, when it is taken. -/
theorem hsCheck_eq_some {s t : State} (h : s.hsCheck = some t) :
    (s.hsState = .wait ∧ s.mbRx.valid = true) ∧ ∃ w, s.hsWord = some w ∧ t = s.hsEcho w := by
  unfold State.hsCheck at h
  split at h
  · rename_i hg
    obtain ⟨w, hw, rfl⟩ := Option.map_eq_some_iff.mp h
    exact ⟨hg, w, hw, rfl⟩
  · cases h

/-- What the check of an echo touches. -/
theorem hsEcho_frame (s : State) (w : Word) :
    s.hsEcho w =
      { s with
        mbRx := { s.mbRx with valid := false }
        hsIdx := (s.hsEcho w).hsIdx
        hsState := (s.hsEcho w).hsState } := by
  unfold State.hsEcho
  dsimp only
  split <;> rfl

/-- A read that completed: a bad access, a pop, a taken mailbox word, or a plain read that changes nothing. -/
theorem busRead_eq_some {s t : State} {acc : BusAccess} {v : Word} (h : s.busRead acc = some (v, t)) :
    (acc.target s.params = none ∧ v = 0 ∧ t = s.setErr .badAccess) ∨
    (acc.target s.params = some .qtag ∧ ∃ e rest, s.q = e :: rest ∧ v = e.tag ∧
      t = { s with q := rest, qout := Memory.putBytes [] 0 e.payload }) ∨
    (acc.target s.params = some .mbTx ∧ s.mbTx.valid = true ∧ v = s.mbTx.data ∧
      t = { s with mbTx := { s.mbTx with valid := false } }) ∨
    (∃ r, acc.target s.params = some r ∧ r ≠ .qtag ∧ r ≠ .mbTx ∧ v = s.readReg r ∧ t = s) := by
  unfold State.busRead at h
  split at h
  · cases h
    exact .inl ⟨by assumption, rfl, rfl⟩
  · unfold State.popRow at h
    split at h
    · cases h
    · cases h
      exact .inr (.inl ⟨by assumption, _, _, by assumption, rfl, rfl⟩)
  · unfold State.takeMbTx at h
    split at h
    · cases h
      exact .inr (.inr (.inl ⟨by assumption, by assumption, rfl, rfl⟩))
    · cases h
  · rename_i r h1 h2 hr
    cases h
    exact .inr (.inr (.inr ⟨r, hr, fun e => h1 e, fun e => h2 e, rfl, rfl⟩))

/-- A write to any register but CMD: the register takes the value, or one error bit is set. -/
theorem writeReg_frame {s t : State} {r : Reg} {v : Word} (hr : r ≠ .cmd) (h : s.writeReg r v = .next t) :
    t = { s with
      err := t.err, config := t.config, timeout := t.timeout, hsVec := t.hsVec, hsSp := t.hsSp, hsEntry := t.hsEntry
      mbRx := t.mbRx } := by
  cases r <;> first
    | exact absurd rfl hr
    | (cases h; unfold State.writeConfig; split <;> rfl)
    | (cases h; unfold State.writeTimeout; split <;> rfl)
    | (cases h; unfold State.writeHsVec; split <;> rfl)
    | (cases h; unfold State.writeHsSp; split <;> rfl)
    | (cases h; unfold State.writeHsEntry; split <;> rfl)
    | (cases h; unfold State.putMbRx; split <;> rfl)
    | (cases h; rfl)

/-! ## What a step did

`v` is the state the turn was taken in: the one before, with the schedule moved on. -/

/-- Everything a step can do, case by case. -/
inductive StepDid (s v : State) : State → Prop
  /-- A master issued an access that stalls, retried one that stalls, or had none. -/
  | waited (m : MasterId) (w : List BusAccess) : StepDid s v (v.setWaiting m w)
  /-- A read returned a value. -/
  | read (m : MasterId) (w : List BusAccess) (acc : BusAccess) (x : Word) (u : State) (hacc : s.nextAccess = some acc)
      (hop : acc.op = .read) (hr : (v.setWaiting m w).busRead acc = some (x, u)) : StepDid s v (u.pushReturned m x)
  /-- A write was a bad access. -/
  | badWrite (m : MasterId) (w : List BusAccess) (acc : BusAccess) (x : Word) (hacc : s.nextAccess = some acc)
      (hop : acc.op = .write x) (ht : acc.target s.params = none) : StepDid s v ((v.setWaiting m w).setErr .badAccess)
  /-- A word was written to CMD and its command ran. -/
  | command (m : MasterId) (w : List BusAccess) (i : Instr) (t : State) (hc : s.nextCommand = some i)
      (hi : i.cmdWord?.isSome) (he : exec i (v.setWaiting m w) = .next t) : StepDid s v t
  /-- Another register was written. -/
  | write (m : MasterId) (w : List BusAccess) (acc : BusAccess) (x : Word) (r : Reg) (t : State)
      (hacc : s.nextAccess = some acc) (hop : acc.op = .write x) (ht : acc.target s.params = some r) (hr : r ≠ .cmd)
      (he : (v.setWaiting m w).writeReg r x = .next t) : StepDid s v t
  /-- SEQ took a step that was enabled. -/
  | seq (k : SeqStep) (t : State) (hk : s.nextTurn.1 = .seq k) (he : v.seqStep k = some t) : StepDid s v t
  /-- SEQ was given a step that was not enabled. -/
  | disabled (k : SeqStep) (hk : s.nextTurn.1 = .seq k) (he : v.seqStep k = none) : StepDid s v v
  | eoc (d : Dev) (x : Bool) (hk : s.nextTurn.1 = .eocDrive d x) : StepDid s v (v.eocDrive d x)
  | answer (d : Dev) (bs : List Byte) (hk : s.nextTurn.1 = .adcReturns d bs) : StepDid s v (v.placeAnswer d bs)
  | tick (hk : s.nextTurn.1 = .tick) : StepDid s v v.tick
  | linkReady (x : Bool) (hk : s.nextTurn.1 = .linkReady x) : StepDid s v { v with linkReady := x }
  | srOut (x : Bool) (hk : s.nextTurn.1 = .srOut x) : StepDid s v { v with srOut := x }
  | reset (hk : s.nextTurn.1 = .reset) : StepDid s v v.resetStep

/-- Moving the schedule on changes the schedule and the number of draws only. -/
theorem nextTurn_frame (s : State) : s.nextTurn.2 = { s with turns := s.nextTurn.2.turns, draws := s.nextTurn.2.draws } := by
  unfold State.nextTurn
  split <;> rfl

@[simp] theorem setWaiting_setWaiting (s : State) (m : MasterId) (w w' : List BusAccess) :
    (s.setWaiting m w).setWaiting m w' = s.setWaiting m w' := by cases m <;> rfl

@[simp] theorem setWaiting_self (s : State) (m : MasterId) : s.setWaiting m (s.master m).waiting = s := by
  cases m <;> rfl

@[simp] theorem master_setWaiting (s : State) (m : MasterId) (w : List BusAccess) :
    ((s.setWaiting m w).master m).waiting = w := by cases m <;> rfl

/-- A master's turn, with the access it tries. -/
theorem runMaster_did {s v t : State} {m : MasterId} {w : List BusAccess} (hv : v.params = s.params)
    (hu : s.nextAccess = w.head?) (hc : ∀ acc x, w.head? = some acc → acc.op = .write x →
      acc.target s.params = some .cmd → s.nextCommand = some (decodeCmd x))
    (h : (v.setWaiting m w).runMaster m = .next t) : StepDid s v t := by
  rcases runMaster_cases (v.setWaiting m w) m with h' | ⟨acc, rest, o, hw, ha, h'⟩
  · rw [h'] at h
    cases h
    exact .waited m w
  · rw [h'] at h
    subst h
    rw [master_setWaiting] at hw
    subst hw
    rw [setWaiting_setWaiting] at ha
    rcases access_cases ha with ⟨hop, x, u, hr, ho⟩ | ⟨x, hop, ho⟩
    · cases ho
      exact .read m rest acc x u hu hop hr
    · unfold State.busWrite at ho
      split at ho
      · rename_i ht
        cases ho
        exact .badWrite m rest acc x hu hop (by simpa [hv] using ht)
      · rename_i r ht
        have ht' : acc.target s.params = some r := by simpa [hv] using ht
        by_cases hr : r = .cmd
        · subst hr
          exact .command m rest _ t (hc acc x rfl hop ht') (decodeCmd_isCommand x) ho.symm
        · exact .write m rest acc x r t hu hop ht' hr ho.symm

/-- What a step did: one of the cases of `StepDid`, in the state with the schedule moved on. -/
theorem step_did {s t : State} (hp : s.linkPort = none) (h : step s = .next t) : StepDid s s.nextTurn.2 t := by
  rw [step_eq_turn hp] at h
  have hv : s.nextTurn.2.params = s.params := by rw [nextTurn_frame]
  have hacc : s.nextAccess = s.nextTurn.2.accessTried s.nextTurn.1 := rfl
  have hcmd : ∀ acc x, s.nextAccess = some acc → acc.op = .write x → acc.target s.params = some .cmd →
      s.nextCommand = some (decodeCmd x) := by
    intro acc x ha hop ht
    unfold State.nextCommand State.commandRun
    rw [← hacc, ha]
    dsimp only
    rw [hop, hv, ht]
  generalize hk : s.nextTurn.1 = k at h
  rw [hk] at hacc
  cases k with
  | access m acc => exact runMaster_did hv hacc (fun a x ha => hcmd a x (hacc.trans ha)) h
  | retry m =>
    refine runMaster_did (m := m) (w := (s.nextTurn.2.master m).waiting) hv hacc
      (fun a x ha => hcmd a x (hacc.trans ha)) ?_
    rw [setWaiting_self]
    exact h
  | seq k =>
    cases h
    cases he : s.nextTurn.2.seqStep k with
    | none => exact .disabled k hk he
    | some t => exact .seq k t hk he
  | eocDrive d x => cases h; exact .eoc d x hk
  | adcReturns d bs => cases h; exact .answer d bs hk
  | tick => cases h; exact .tick hk
  | linkReady x => cases h; exact .linkReady x hk
  | srOut x => cases h; exact .srOut x hk
  | reset => cases h; exact .reset hk

end Sys2Proof.Machine
end

