-- ==== Sys2Proof/Laws/Bus.lean ====
section
/-! SUPPORT. Where an access goes: the target of each register that has an effect, and a single register or window by
its offset. -/

namespace Sys2Proof.Machine

/-- A register of the map of single registers is what an aligned 32-bit access at its offset names (R59). -/
theorem target_of_mem {p : Params} {off : BitVec 13} {op : BusOp} {r : Reg} (h : regTable.lookup off.toNat = some r)
    (ha : off.toNat % 4 = 0) : BusAccess.target p ⟨off, 4, op⟩ = some r := by
  unfold BusAccess.target regAt
  rw [if_pos ⟨rfl, ha⟩, h]

/-- An aligned 32-bit access at a single register's own offset names it. -/
theorem target_offset (p : Params) (op : BusOp) {r : Reg}
    (h : regTable.lookup r.offset.toNat = some r ∧ r.offset.toNat % 4 = 0) :
    BusAccess.target p ⟨r.offset, 4, op⟩ = some r := target_of_mem h.1 h.2

/-- A write at a single register's own offset is a write of it. -/
theorem writeAt_eq (s : State) {r : Reg} (v : Word)
    (h : regTable.lookup r.offset.toNat = some r ∧ r.offset.toNat % 4 = 0) : s.writeAt r v = s.writeReg r v := by
  unfold State.writeAt State.busWrite
  rw [target_offset s.params _ h]

@[simp] theorem target_cmd (p : Params) (op : BusOp) : BusAccess.target p ⟨0x000, 4, op⟩ = some .cmd :=
  target_of_mem (by decide) (by decide)

@[simp] theorem target_qtag (p : Params) (op : BusOp) : BusAccess.target p ⟨0x040, 4, op⟩ = some .qtag :=
  target_of_mem (by decide) (by decide)

@[simp] theorem target_mbTx (p : Params) (op : BusOp) : BusAccess.target p ⟨0x038, 4, op⟩ = some .mbTx :=
  target_of_mem (by decide) (by decide)

@[simp] theorem target_mbRx (p : Params) (op : BusOp) : BusAccess.target p ⟨0x03C, 4, op⟩ = some .mbRx :=
  target_of_mem (by decide) (by decide)

/-- At and above 0x044 there is no single register (R59). -/
theorem lookup_above {off : Nat} (h : 0x040 < off) : regTable.lookup off = none := by
  have : ∀ k, k ≤ 0x40 → (off == k) = false := by
    intro k hk
    rw [beq_eq_false_iff_ne]
    omega
  simp [regTable, List.lookup, this]

/-- The windows fit below the next one and below 8 KiB (R54, R56, R81). -/
theorem windows_fit (p : Params) : p.rowWidth ≤ 32 ∧ p.frameBytes ≤ 2048 := by
  have h1 := p.lastChan.isLt
  have h2 := p.lastCol.isLt
  have h3 : p.rowWidth ≤ 32 := by
    simp only [Params.rowWidth, Params.channels]
    omega
  refine ⟨h3, ?_⟩
  calc p.frameBytes = (p.lastCol.toNat + 1) * p.rowWidth := rfl
    _ ≤ 64 * 32 := Nat.mul_le_mul (by omega) h3

/-- An access to a word outside every window and register is bad (R84). -/
theorem target_of_wide {p : Params} {acc : BusAccess} (h : acc.bytes ≠ 4 ∨ acc.off.toNat % 4 ≠ 0) :
    acc.target p = none := by
  unfold BusAccess.target
  rw [if_neg]
  rintro ⟨h1, h2⟩
  rcases h with h | h
  · exact h h1
  · exact h h2

end Sys2Proof.Machine
end

