-- ==== Sys2Proof/Laws/PerInstr.lean ====
section
/-! SUPPORT. The encoding family: for each constructor, decoding its encoding gives it back (R110 to R117). -/

namespace Sys2Proof.Laws.RoundTrip

/-- Decoding the bits of a well-formed instruction gives that instruction. -/
def Statement (i : Instr) : Prop := i.WellFormed = true → decode (encode i) = .ok i

theorem nop : Statement .nop := fun _ => by decide
theorem initAdc : Statement .initAdc := fun _ => by decide
theorem chainClear : Statement .chainClear := fun _ => by decide
theorem chainAdvance (b : Bool) : Statement (.chainAdvance b) := fun _ => by revert b; decide
theorem startScan : Statement .startScan := fun _ => by decide
theorem faultClear : Statement .faultClear := fun _ => by decide
theorem adcRequest (d : Dev) : Statement (.adcRequest d) := fun _ => by cases d <;> decide
theorem adcRead (d : Dev) : Statement (.adcRead d) := fun _ => by cases d <;> decide
theorem handshakeStart : Statement .handshakeStart := fun _ => by decide

/-- A word whose reserved bits are zero is its operation and its argument (R110). -/
theorem word_of_fields {w : Word} (h : w.extractLsb' 8 24 = 0) :
    w = 0#24 ++ w.extractLsb' 4 4 ++ w.extractLsb' 0 4 := by
  apply BitVec.eq_of_getLsbD_eq
  intro i hi
  have hz := congrArg (fun v => v.getLsbD (i - 8)) h
  simp only [BitVec.getLsbD_extractLsb'] at hz
  simp only [BitVec.getLsbD_append, BitVec.getLsbD_extractLsb', BitVec.getLsbD_zero]
  rcases Nat.lt_or_ge i 4 with h4 | h4
  · simp [h4]
  · rcases Nat.lt_or_ge i 8 with h8 | h8
    · have e : 4 + (i - 4) = i := by omega
      have e' : i - 4 < 4 := by omega
      simp [Nat.not_lt.mpr h4, e, e']
    · have e : 8 + (i - 8) = i := by omega
      have e' : i - 8 < 24 := by omega
      have e'' : ¬ i - 4 < 4 := by omega
      simp only [e, e', decide_true, Bool.true_and] at hz
      simp [Nat.not_lt.mpr h4, e'', hz]

/-- No command row matches a word the decoder calls Illegal, and some row matches every other (R111, R113, R114). -/
theorem decodeCmd_illegal_iff (w : Word) : decodeCmd w = .illegal w ↔ isCommandWord w = false := by
  by_cases h : w.extractLsb' 8 24 = 0
  · have key : ∀ op arg : BitVec 4, decodeCmd (0#24 ++ op ++ arg) = .illegal (0#24 ++ op ++ arg) ↔
        isCommandWord (0#24 ++ op ++ arg) = false := by decide
    rw [word_of_fields h]
    exact key _ _
  · have h1 : decodeCmd w = .illegal w := by
      unfold decodeCmd
      exact if_pos h
    refine ⟨fun _ => ?_, fun _ => h1⟩
    have hz : ∀ m v : Word, m.extractLsb' 8 24 = 0xFFFFFF → v.extractLsb' 8 24 = 0 → (w &&& m == v) = false := by
      intro m v hm hv
      rw [beq_eq_false_iff_ne]
      intro e
      apply h
      have := congrArg (fun x => x.extractLsb' 8 24) e
      simp only [BitVec.extractLsb'_and, hm, hv] at this
      rw [show (0xFFFFFF : BitVec 24) = BitVec.allOnes 24 from rfl, BitVec.and_allOnes] at this
      exact this
    simp only [isCommandWord, cmdRows, CmdRow.matches, List.any_cons, List.any_nil, Bool.or_false]
    have hf := fun v hv => hz 0xFFFFFFFF v (by decide) hv
    have he := fun v hv => hz 0xFFFFFFFE v (by decide) hv
    rw [hf _ (by decide), hf _ (by decide), hf _ (by decide), he _ (by decide), hf _ (by decide), hf _ (by decide),
      he _ (by decide), he _ (by decide), hf _ (by decide)]
    rfl

theorem illegal (w : Word) : Statement (.illegal w) := fun h => by
  have : isCommandWord w = false := by simpa [Instr.WellFormed] using h
  simp [encode, decode, (decodeCmd_illegal_iff w).mpr this]

theorem adcConv (d : Dev) (cccc : BitVec 4) : Statement (.adcConv d cccc) := fun _ => by
  cases d <;> revert cccc <;> decide

theorem adcSetup (d : Dev) (x : BitVec 6) : Statement (.adcSetup d x) := fun _ => by
  cases d <;> revert x <;> decide

theorem adcNull (d : Dev) : Statement (.adcNull d) := fun _ => by cases d <;> decide

end Sys2Proof.Laws.RoundTrip
end

