-- ==== Sys2Proof/Laws/Runs.lean ====
section
/-! SUPPORT. Runs of a scan: what one turn does to the scan while it is SCANNING, and that the scan engine makes
progress under weak fairness. -/

namespace Sys2Proof.Machine

/-! ## One turn during a scan -/

/-- `t` stands where `s` stood in the scan; at most rows were popped. -/
structure SameScan (s t : State) : Prop where
  params : t.params = s.params
  state : t.state = s.state
  phase : t.phase = s.phase
  col : t.col = s.col
  pend : t.pend = s.pend
  edge : t.edge = s.edge
  eoc : t.eoc = s.eoc
  cnt : t.cnt = s.cnt
  config : t.config = s.config
  timeout : t.timeout = s.timeout
  q : t.q.length ≤ s.q.length

theorem SameScan.refl (s : State) : SameScan s s := ⟨rfl, rfl, rfl, rfl, rfl, rfl, rfl, rfl, rfl, rfl, Nat.le_refl _⟩

theorem SameScan.trans {s t u : State} (h : SameScan s t) (h' : SameScan t u) : SameScan s u :=
  ⟨h'.params.trans h.params, h'.state.trans h.state, h'.phase.trans h.phase, h'.col.trans h.col,
    h'.pend.trans h.pend, h'.edge.trans h.edge, h'.eoc.trans h.eoc, h'.cnt.trans h.cnt, h'.config.trans h.config,
    h'.timeout.trans h.timeout, h'.q.trans h.q⟩

theorem SameScan.setErr (s : State) (e : ErrBit) : SameScan s (s.setErr e) :=
  ⟨rfl, rfl, rfl, rfl, rfl, rfl, rfl, rfl, rfl, rfl, Nat.le_refl _⟩

theorem SameScan.setWaiting (s : State) (m : MasterId) (w : List BusAccess) : SameScan s (s.setWaiting m w) := by
  cases m <;> exact ⟨rfl, rfl, rfl, rfl, rfl, rfl, rfl, rfl, rfl, rfl, Nat.le_refl _⟩

theorem SameScan.pushReturned (s : State) (m : MasterId) (v : Word) : SameScan s (s.pushReturned m v) := by
  cases m <;> exact ⟨rfl, rfl, rfl, rfl, rfl, rfl, rfl, rfl, rfl, rfl, Nat.le_refl _⟩

/-- A read moves no scan; only a QTAG read touches the queue. -/
theorem busRead_sameScan {s t : State} {acc : BusAccess} {v : Word} (h : s.busRead acc = some (v, t)) : SameScan s t := by
  rcases busRead_eq_some h with ⟨-, -, rfl⟩ | ⟨-, e, rest, hq, -, rfl⟩ | ⟨-, -, -, rfl⟩ | ⟨-, -, -, -, -, rfl⟩
  · exact .setErr ..
  · exact ⟨rfl, rfl, rfl, rfl, rfl, rfl, rfl, rfl, rfl, rfl, by rw [hq]; exact Nat.le_succ _⟩
  · exact ⟨rfl, rfl, rfl, rfl, rfl, rfl, rfl, rfl, rfl, rfl, Nat.le_refl _⟩
  · exact .refl _

/-- No command moves a running scan (R273). -/
theorem exec_sameScan {s t : State} {i : Instr} (hs : s.state = .scanning) (h : exec i s = .next t) : SameScan s t := by
  have hid : s.idleOrDone = false := by simp [State.idleOrDone, hs]
  have same : ∀ (u : State) c p h' d a, u = { s with cs := c, pins := p, hist := h', draws := d, answers := a } →
      SameScan s u := by
    rintro u c p h' d a rfl
    exact ⟨rfl, rfl, rfl, rfl, rfl, rfl, rfl, rfl, rfl, rfl, Nat.le_refl _⟩
  cases i with
  | nop => cases h; exact .refl s
  | initAdc => cases h; rw [hid]; exact .setErr ..
  | chainClear => cases h; rw [if_pos hs]; exact .setErr ..
  | chainAdvance b => cases h; rw [hid]; exact .setErr ..
  | startScan => cases h; rw [hid]; exact .setErr ..
  | faultClear => cases h; rw [if_neg (by rw [hs]; decide)]; exact .setErr ..
  | adcRequest d => cases h; rw [hid]; exact .setErr ..
  | adcRead d => cases h; rw [hid]; exact .setErr ..
  | handshakeStart =>
    cases h
    split
    · exact ⟨rfl, rfl, rfl, rfl, rfl, rfl, rfl, rfl, rfl, rfl, Nat.le_refl _⟩
    · exact .setErr ..
  | illegal w => cases h; exact .setErr ..
  | adcConv d c => cases h; exact same _ _ _ _ _ _ (linkXfer_frame ..)
  | adcSetup d c => cases h; exact same _ _ _ _ _ _ (linkXfer_frame ..)
  | adcNull d => cases h; cases d <;> exact same _ _ _ _ _ _ rfl

/-- No register write moves a running scan (R276). -/
theorem writeReg_sameScan {s t : State} {r : Reg} {v : Word} (hs : s.state = .scanning)
    (h : s.writeReg r v = .next t) : SameScan s t := by
  by_cases hr : r = .cmd
  · subst hr
    exact exec_sameScan hs h
  · have hf := writeReg_frame hr h
    have hc : t.config = s.config ∧ t.timeout = s.timeout := by
      cases r <;> first
        | exact absurd rfl hr
        | (cases h; exact ⟨rfl, rfl⟩)
        | (cases h; unfold State.writeConfig; rw [if_pos hs]; exact ⟨rfl, rfl⟩)
        | (cases h; unfold State.writeTimeout; rw [if_pos hs]; exact ⟨rfl, rfl⟩)
        | (cases h; unfold State.writeHsVec; split <;> exact ⟨rfl, rfl⟩)
        | (cases h; unfold State.writeHsSp; split <;> exact ⟨rfl, rfl⟩)
        | (cases h; unfold State.writeHsEntry; split <;> exact ⟨rfl, rfl⟩)
        | (cases h; unfold State.putMbRx; split <;> exact ⟨rfl, rfl⟩)
    refine ⟨?_, ?_, ?_, ?_, ?_, ?_, ?_, ?_, hc.1, hc.2, ?_⟩ <;> rw [hf]

theorem runMaster_sameScan {s t : State} {m : MasterId} (hs : s.state = .scanning) (h : s.runMaster m = .next t) :
    SameScan s t := by
  rcases runMaster_cases s m with h' | ⟨acc, rest, o, -, ha, h'⟩
  · rw [h'] at h
    cases h
    exact .refl s
  · rw [h'] at h
    subst h
    have hw := SameScan.setWaiting s m rest
    refine hw.trans ?_
    rcases access_cases ha with ⟨-, v, u, hr, ho⟩ | ⟨v, -, ho⟩
    · cases ho
      exact (busRead_sameScan hr).trans (.pushReturned ..)
    · unfold State.busWrite at ho
      split at ho
      · cases ho
        exact .setErr ..
      · exact writeReg_sameScan (hw.state.trans hs) ho.symm

/-- The scan steps of the sequencer: all but the two of the handshake. -/
def SeqStep.isScan : SeqStep → Bool
  | .issue => true
  | .service _ => true
  | .handoff => true
  | .hsSend => false
  | .hsCheck => false

/-- What a turn does to a running scan: nothing, an EOC level, a tick, an enabled scan step, or RESET. -/
theorem takeTurn_scanning {s t : State} {k : Turn} (hs : s.state = .scanning) (h : s.takeTurn k = .next t) :
    SameScan s t ∨ (∃ d v, k = .eocDrive d v ∧ t = s.eocDrive d v) ∨ (k = .tick ∧ t = s.tick) ∨
      (∃ j, j.isScan = true ∧ k = .seq j ∧ s.seqStep j = some t) ∨ k = .reset := by
  have hsame : ∀ u, (∃ a l o, u = { s with answers := a, linkReady := l, srOut := o }) → SameScan s u := by
    rintro u ⟨a, l, o, rfl⟩
    exact ⟨rfl, rfl, rfl, rfl, rfl, rfl, rfl, rfl, rfl, rfl, Nat.le_refl _⟩
  cases k with
  | access m acc =>
    have hw := SameScan.setWaiting s m ((s.master m).waiting ++ [acc])
    exact .inl (hw.trans (runMaster_sameScan (hw.state.trans hs) h))
  | retry m => exact .inl (runMaster_sameScan hs h)
  | seq j =>
    cases h
    cases he : s.seqStep j with
    | none => exact .inl (.refl s)
    | some t =>
      cases j with
      | hsSend =>
        obtain ⟨-, w, -, rfl⟩ := hsSend_eq_some he
        exact .inl ⟨rfl, rfl, rfl, rfl, rfl, rfl, rfl, rfl, rfl, rfl, Nat.le_refl _⟩
      | hsCheck =>
        obtain ⟨-, w, -, rfl⟩ := hsCheck_eq_some he
        refine .inl ?_
        rw [Option.getD_some, hsEcho_frame]
        exact ⟨rfl, rfl, rfl, rfl, rfl, rfl, rfl, rfl, rfl, rfl, Nat.le_refl _⟩
      | issue => exact .inr (.inr (.inr (.inl ⟨_, rfl, rfl, he⟩)))
      | service d => exact .inr (.inr (.inr (.inl ⟨_, rfl, rfl, he⟩)))
      | handoff => exact .inr (.inr (.inr (.inl ⟨_, rfl, rfl, he⟩)))
  | eocDrive d v => cases h; exact .inr (.inl ⟨d, v, rfl, rfl⟩)
  | adcReturns d bs => cases h; exact .inl (hsame _ ⟨_, _, _, rfl⟩)
  | tick => cases h; exact .inr (.inr (.inl ⟨rfl, rfl⟩))
  | linkReady l => cases h; exact .inl (hsame _ ⟨_, _, _, rfl⟩)
  | srOut o => cases h; exact .inl (hsame _ ⟨_, _, _, rfl⟩)
  | reset => exact .inr (.inr (.inr (.inr rfl)))

/-! ## A tick that leaves the scan running -/

theorem countTick_cnt (s : State) (d e : Dev) :
    (s.countTick d).cnt.get e = if s.unanswered d = true ∧ e = d then satSucc (s.cnt.get d) else s.cnt.get e := by
  unfold State.countTick
  split
  · rename_i h
    by_cases he : e = d
    · subst he
      rw [if_pos ⟨h, rfl⟩]
      exact PerAdc.get_set_self ..
    · rw [if_neg fun x => he x.2]
      exact PerAdc.get_set_ne _ he _
  · rename_i h
    rw [if_neg fun x => h x.1]

/-- Both counters after a counted tick. -/
theorem countTick_both (s : State) (d : Dev) :
    ((s.countTick .a).countTick .b).cnt.get d = if s.unanswered d = true then satSucc (s.cnt.get d) else s.cnt.get d := by
  have hu : (s.countTick .a).unanswered .b = s.unanswered .b := by rw [countTick_frame]; rfl
  simp only [countTick_cnt, hu]
  cases d <;> simp

/-- A tick of WAIT that does not fault counts, and with a timeout set leaves no counting ADC at it (R209). -/
theorem tick_waiting {s : State} (hs : s.state = .scanning) (hp : s.phase = .wait) (ht : s.tick.state = .scanning) :
    s.tick = { s with cnt := s.tick.cnt } ∧
      ∀ d, s.tick.cnt.get d = (if s.unanswered d = true then satSucc (s.cnt.get d) else s.cnt.get d) ∧
        (s.timeout ≠ 0 → s.unanswered d = true → s.tick.cnt.get d < s.timeout) := by
  let t := (s.countTick .a).countTick .b
  have hf : t = { s with cnt := t.cnt } := by
    have h1 : ∀ u : State, u = { s.countTick .a with cnt := u.cnt } → u = { s with cnt := u.cnt } := by
      intro u hu
      rw [hu, countTick_frame s]
    exact h1 t (countTick_frame _ _)
  have hto : t.timeout = s.timeout := by rw [hf]
  have hun : ∀ d, t.unanswered d = s.unanswered d := fun d => by rw [hf]; rfl
  have htick : s.tick = if t.timeout ≠ 0 then t.checkTimeout else t := by
    unfold State.tick
    rw [if_pos ⟨hs, hp⟩]
  by_cases h0 : s.timeout = 0
  · have he : s.tick = t := by rw [htick, hto, if_neg (by simpa using h0)]
    rw [he]
    exact ⟨hf, fun d => ⟨countTick_both s d, fun h => absurd h0 h⟩⟩
  · rw [hto, if_pos h0] at htick
    have hno : t.timedOut .a = false ∧ t.timedOut .b = false := by
      rw [htick] at ht
      unfold State.checkTimeout at ht
      dsimp only at ht
      cases ha : t.timedOut .a <;> cases hb : t.timedOut .b
      · exact ⟨rfl, rfl⟩
      · rw [ha, hb] at ht; cases ht
      · rw [ha, hb] at ht; cases ht
      · rw [ha, hb] at ht; cases ht
    have he : s.tick = t := by
      rw [htick]
      unfold State.checkTimeout
      dsimp only
      rw [hno.1, hno.2]
      rfl
    rw [he]
    refine ⟨hf, fun d => ⟨countTick_both s d, fun _ hu => ?_⟩⟩
    have hd : t.timedOut d = false := by cases d <;> [exact hno.1; exact hno.2]
    unfold State.timedOut at hd
    rw [hun, hu, hto] at hd
    simpa using hd

/-- A tick that faults a scan leaves no ADC pending (R306). -/
theorem tick_fault_pend {s : State} (hs : s.state = .scanning) (hf : s.tick.state = .fault) (d : Dev) :
    s.tick.pend.get d = false := by
  have hne : s.state ≠ .fault := by rw [hs]; decide
  have hc : ∀ t : State, t.state = s.state → t.checkTimeout.state = .fault → t.checkTimeout.pend.get d = false := by
    intro t ht
    unfold State.checkTimeout
    dsimp only
    split
    · exact fun _ => by cases d <;> rfl
    · split
      · exact fun _ => by cases d <;> rfl
      · rw [flagTimeout_frame (t.flagTimeout _ _), flagTimeout_frame t]
        exact fun h => absurd (ht.symm.trans h) hne
  have ht : ((s.countTick .a).countTick .b).state = s.state := by rw [countTick_frame (s.countTick .a), countTick_frame s]
  unfold State.tick at hf ⊢
  dsimp only at hf ⊢
  split at hf
  · split at hf
    · rename_i h1 h2
      rw [if_pos h1, if_pos h2]
      exact hc _ ht hf
    · exact absurd (ht.symm.trans hf) hne
  · exact absurd hf hne

/-! ## One turn of a run that stays in the scan -/

/-- Neither a turn that moves no scan nor an EOC level moves the phase, the column, the pending flags or the counters;
in WAIT an EOC level sets the latch of a pending ADC at most. -/
theorem eocDrive_scan (s : State) (d : Dev) (v : Bool) :
    (s.eocDrive d v).phase = s.phase ∧ (s.eocDrive d v).col = s.col ∧ (s.eocDrive d v).pend = s.pend ∧
      (s.eocDrive d v).cnt = s.cnt ∧ (s.eocDrive d v).config = s.config ∧ (s.eocDrive d v).timeout = s.timeout ∧
      (s.eocDrive d v).params = s.params ∧ (s.eocDrive d v).q = s.q ∧ (s.eocDrive d v).eoc = s.eoc.set d v ∧
      ∀ e, s.edge.get e = true → (s.eocDrive d v).edge.get e = true := by
  refine ⟨?_, ?_, ?_, ?_, ?_, ?_, ?_, ?_, ?_, ?_⟩
  · rw [eocDrive_frame]
  · rw [eocDrive_frame]
  · rw [eocDrive_frame]
  · rw [eocDrive_frame]
  · rw [eocDrive_frame]
  · rw [eocDrive_frame]
  · rw [eocDrive_frame]
  · rw [eocDrive_frame]
  · rw [eocDrive_frame]
  · intro e he
    unfold State.eocDrive State.fallingEdge
    dsimp only
    repeat' split
    all_goals first
      | exact he
      | (by_cases hd : e = d
         · subst hd; exact PerAdc.get_set_self ..
         · exact (PerAdc.get_set_ne _ hd _).trans he)

/-- A turn that leaves the scan running and takes no scan step: what it keeps, and what it counts. -/
structure Idled (s t : State) (k : Turn) : Prop where
  params : t.params = s.params
  phase : t.phase = s.phase
  col : t.col = s.col
  pend : t.pend = s.pend
  config : t.config = s.config
  timeout : t.timeout = s.timeout
  q : t.q.length ≤ s.q.length
  edge : ∀ d, s.edge.get d = true → t.edge.get d = true
  cnt : ∀ d, (s.cnt.get d).toNat ≤ (t.cnt.get d).toNat
  cntLe : ∀ d, (t.cnt.get d).toNat ≤ (s.cnt.get d).toNat + if k = .tick then 1 else 0
  tick : k = .tick → s.phase = .wait → s.timeout ≠ 0 → ∀ d, s.unanswered d = true →
    (t.cnt.get d).toNat = (s.cnt.get d).toNat + 1

theorem SameScan.idled {s t : State} {k : Turn} (h : SameScan s t) (hk : k ≠ .tick) : Idled s t k :=
  ⟨h.params, h.phase, h.col, h.pend, h.config, h.timeout, h.q, fun d hd => by rw [h.edge]; exact hd,
    fun d => by rw [h.cnt], fun d => by rw [h.cnt]; exact Nat.le_add_right _ _, fun hk' => absurd hk' hk⟩

theorem satSucc_toNat (c : Word) : (satSucc c).toNat = min (c.toNat + 1) 0xFFFFFFFF := by
  unfold satSucc
  rw [BitVec.toNat_ofNat, Nat.mod_eq_of_lt (by omega)]

theorem tick_idled {s : State} (hs : s.state = .scanning) (ht : s.tick.state = .scanning) : Idled s s.tick .tick := by
  by_cases hp : s.phase = .wait
  · obtain ⟨hf, hc⟩ := tick_waiting hs hp ht
    have hmono : ∀ d, (s.cnt.get d).toNat ≤ (s.tick.cnt.get d).toNat := by
      intro d
      rw [(hc d).1]
      split
      · rw [satSucc_toNat]
        have := (s.cnt.get d).isLt
        omega
      · exact Nat.le_refl _
    refine ⟨by rw [hf], by rw [hf], by rw [hf], by rw [hf], by rw [hf], by rw [hf], by rw [hf], fun d hd => by rw [hf]; exact hd,
      hmono, fun d => ?_, fun _ _ h0 d hu => ?_⟩
    · rw [(hc d).1]
      split
      · rw [satSucc_toNat]
        exact Nat.min_le_left _ _
      · exact Nat.le_add_right _ _
    obtain ⟨he, hl⟩ := hc d
    rw [if_pos hu] at he
    have hlt := hl h0 hu
    rw [he, BitVec.lt_def, satSucc_toNat] at hlt
    rw [he, satSucc_toNat]
    have := s.timeout.isLt
    omega
  · have he : s.tick = s := if_neg fun h => hp h.2
    rw [he]
    exact ⟨rfl, rfl, rfl, rfl, rfl, rfl, Nat.le_refl _, fun _ h => h, fun _ => Nat.le_refl _,
      fun _ => Nat.le_add_right _ _, fun _ h => absurd h hp⟩

/-- A turn of a scan that stays SCANNING without RESET: it idles, or takes an enabled scan step. -/
theorem takeTurn_in_scan {s t : State} {k : Turn} (hs : s.state = .scanning) (ht : t.state = .scanning)
    (hk : k ≠ .reset) (h : s.takeTurn k = .next t) :
    Idled s t k ∨ ∃ j, j.isScan = true ∧ k = .seq j ∧ s.seqStep j = some t := by
  rcases takeTurn_scanning hs h with h' | ⟨d, v, rfl, rfl⟩ | ⟨rfl, rfl⟩ | h' | rfl
  · by_cases hk' : k = .tick
    · subst hk'
      cases h
      exact .inl (tick_idled hs ht)
    · exact .inl (h'.idled hk')
  · obtain ⟨h1, h2, h3, h4, h5, h6, h7, h8, -, h10⟩ := eocDrive_scan s d v
    exact .inl ⟨h7, h1, h2, h3, h5, h6, by rw [h8], h10, fun d => by rw [h4],
      fun d => by rw [h4]; exact Nat.le_add_right _ _, fun e => Turn.noConfusion e⟩
  · exact .inl (tick_idled hs ht)
  · exact .inr h'
  · exact absurd rfl hk

/-- A scan step leaves the configuration, the timeout and the parameters. -/
theorem scanStep_config {s t : State} {j : SeqStep} (hj : j.isScan = true) (h : s.seqStep j = some t) :
    t.config = s.config ∧ t.timeout = s.timeout ∧ t.params = s.params := by
  cases j with
  | issue => obtain ⟨-, rfl⟩ := issue_eq_some h; simp
  | service d => obtain ⟨-, rfl⟩ := service_eq_some h; simp
  | handoff =>
    obtain ⟨-, ⟨-, rfl⟩ | ⟨-, rfl⟩⟩ := handoff_eq_some h
    · rw [State.finish, deliver_frame]
      exact ⟨rfl, rfl, rfl⟩
    · rw [State.advance, deliver_frame]
      simp
  | hsSend => cases hj
  | hsCheck => cases hj

/-- A scan that goes on keeps the configuration, the timeout and the parameters. -/
theorem takeTurn_keeps_config {s t : State} {k : Turn} (hs : s.state = .scanning) (ht : t.state = .scanning)
    (hk : k ≠ .reset) (h : s.takeTurn k = .next t) :
    t.config = s.config ∧ t.timeout = s.timeout ∧ t.params = s.params := by
  rcases takeTurn_in_scan hs ht hk h with hi | ⟨j, hj, -, he⟩
  · exact ⟨hi.config, hi.timeout, hi.params⟩
  · exact scanStep_config hj he

/-- While an ADC stays pending in WAIT the phase stays WAIT, its latch stays set (R152), and its counter counts ticks at
most, and every tick that finds it unanswered (R209). -/
theorem takeTurn_pending {s t : State} {k : Turn} {d : Dev} (hs : s.state = .scanning) (ht : t.state = .scanning)
    (hk : k ≠ .reset) (h : s.takeTurn k = .next t) (hp : s.phase = .wait) (hd : t.pend.get d = true) :
    s.pend.get d = true ∧ (s.edge.get d = true → t.edge.get d = true) ∧
      (s.cnt.get d).toNat ≤ (t.cnt.get d).toNat ∧
      (t.cnt.get d).toNat ≤ (s.cnt.get d).toNat + (if k = .tick then 1 else 0) ∧
      (k = .tick → s.timeout ≠ 0 → s.unanswered d = true → (t.cnt.get d).toNat = (s.cnt.get d).toNat + 1) := by
  rcases takeTurn_in_scan hs ht hk h with hi | ⟨j, hj, hu, he⟩
  · exact ⟨hi.pend ▸ hd, hi.edge d, hi.cnt d, hi.cntLe d, fun hk' h0 hun => hi.tick hk' hp h0 d hun⟩
  · cases j with
    | issue =>
      have := (issue_eq_some he).1.2
      rw [hp] at this
      cases this
    | service e =>
      obtain ⟨-, rfl⟩ := service_eq_some he
      have hed : d ≠ e := by
        rintro rfl
        simp [State.served] at hd
      have hpend : s.pend.get d = true := by simpa [State.served, PerAdc.get_set_ne _ hed] using hd
      refine ⟨hpend, ?_, ?_, ?_, fun hk' => by rw [hu] at hk'; cases hk'⟩ <;>
        simp [State.served, PerAdc.get_set_ne _ hed]
    | handoff =>
      have := (handoff_eq_some he).1.2.1
      rw [hp] at this
      cases this
    | hsSend => cases hj
    | hsCheck => cases hj

/-- A running scan faults only by a tick of WAIT that finds an ADC at the timeout, and then no ADC is pending (R209,
R306). -/
theorem takeTurn_faults {s t : State} {k : Turn} (hs : s.state = .scanning) (hk : k ≠ .reset)
    (h : s.takeTurn k = .next t) (hf : t.state = .fault) :
    k = .tick ∧ s.phase = .wait ∧ (∃ d, s.tickTimesOut d = true) ∧ ∀ d, t.pend.get d = false := by
  have hne : s.state ≠ .fault := by rw [hs]; decide
  rcases takeTurn_scanning hs h with h' | ⟨d, v, -, rfl⟩ | ⟨rfl, rfl⟩ | ⟨j, hj, -, he⟩ | h'
  · exact absurd (h'.state.symm.trans hf) hne
  · rw [eocDrive_frame] at hf
    exact absurd hf hne
  · by_cases hp : s.phase = .wait
    · refine ⟨rfl, hp, ?_, tick_fault_pend hs hf⟩
      by_contra hno
      have ht : ∀ d, State.timedOut ((s.countTick .a).countTick .b) d = true → s.timeout ≠ 0 →
          s.tickTimesOut d = true := fun d hd h0 => by
        have hun : State.unanswered ((s.countTick .a).countTick .b) d = s.unanswered d := by
          rw [countTick_frame (s.countTick .a), countTick_frame s]
          rfl
        have hto : ((s.countTick .a).countTick .b).timeout = s.timeout := by
          rw [countTick_frame (s.countTick .a), countTick_frame s]
        unfold State.timedOut at hd
        rw [hun, hto, countTick_both, Bool.and_eq_true, decide_eq_true_eq] at hd
        obtain ⟨hu, hle⟩ := hd
        rw [if_pos hu, BitVec.le_def, satSucc_toNat] at hle
        have hpc : s.pend.get d = true ∧ s.cond d = false := by simpa [State.unanswered] using hu
        unfold State.tickTimesOut State.tickCount
        rw [if_pos hpc]
        exact decide_eq_true ⟨h0, hpc.1, hpc.2, hle⟩
      unfold State.tick at hf
      rw [if_pos ⟨hs, hp⟩] at hf
      have hfr : ((s.countTick .a).countTick .b).state = s.state ∧ ((s.countTick .a).countTick .b).timeout = s.timeout := by
        rw [countTick_frame (s.countTick .a), countTick_frame s]
        exact ⟨rfl, rfl⟩
      dsimp only at hf
      split at hf
      · rename_i h0
        rw [hfr.2] at h0
        unfold State.checkTimeout at hf
        have hno' : ∀ d, State.timedOut ((s.countTick .a).countTick .b) d = false := fun d => by
          rw [← Bool.not_eq_true]
          exact fun hd => hno ⟨d, ht d hd h0⟩
        rw [hno', hno'] at hf
        exact hne (hfr.1.symm.trans hf)
      · exact hne (hfr.1.symm.trans hf)
    · have he : s.tick = s := if_neg fun h => hp h.2
      rw [he] at hf
      exact absurd hf hne
  · exfalso
    cases j with
    | issue => obtain ⟨-, rfl⟩ := issue_eq_some he; exact hne (by simpa using hf)
    | service d => obtain ⟨-, rfl⟩ := service_eq_some he; exact hne (by simpa using hf)
    | handoff =>
      obtain ⟨-, ⟨-, rfl⟩ | ⟨-, rfl⟩⟩ := handoff_eq_some he
      · cases hf
      · rw [State.advance, deliver_frame] at hf
        exact hne (by simpa using hf)
    | hsSend => cases hj
    | hsCheck => cases hj
  · exact absurd h' hk

/-! ## Counting since an ISSUE -/

theorem ticksBetween_succ (u : Nat → Turn) {n m : Nat} (h : n < m) :
    ticksBetween u n (m + 1) = ticksBetween u n m + if u m = .tick then 1 else 0 := by
  unfold ticksBetween
  rw [List.range_succ, List.countP_append, List.countP_singleton]
  simp [h]

theorem ticksBetween_self (u : Nat → Turn) (n : Nat) : ticksBetween u n (n + 1) = 0 := by
  unfold ticksBetween
  rw [List.countP_eq_zero]
  intro j hj
  rw [List.mem_range] at hj
  simp
  omega

theorem ticksBetween_mono (u : Nat → Turn) {n m k : Nat} (h : m ≤ k) : ticksBetween u n m ≤ ticksBetween u n k := by
  unfold ticksBetween
  exact List.Sublist.countP_le (List.range_sublist.mpr h)

/-- As long as a scan goes on, an ADC pending in WAIT was requested by an ISSUE since which it has been pending, and its
counter counts ticks since then at most (R200, R209). -/
theorem pending_since_issue {r : Nat → State} {u : Nat → Turn} (hr : IsRun r u) (hn : ∀ n, u n ≠ .reset)
    (hp0 : (r 0).phase = .issue) {N : Nat} (hs : ∀ i, i ≤ N → (r i).state = .scanning) :
    ∀ j, j ≤ N → (r j).phase = .wait → ∀ d, (r j).pend.get d = true →
      ∃ n, n < j ∧ u n = .seq .issue ∧ (r n).Enabled .issue ∧
        (∀ i, n < i → i ≤ j → (r i).phase = .wait ∧ (r i).pend.get d = true) ∧
        ((r j).cnt.get d).toNat ≤ ticksBetween u n j := by
  intro j
  induction j with
  | zero => intro _ hp; rw [hp0] at hp; cases hp
  | succ j ih =>
    intro hj hp d hd
    have hsj := hs j (by omega)
    have keep : (r j).phase = .wait → ∃ n, n < j + 1 ∧ u n = .seq .issue ∧ (r n).Enabled .issue ∧
        (∀ i, n < i → i ≤ j + 1 → (r i).phase = .wait ∧ (r i).pend.get d = true) ∧
        ((r (j + 1)).cnt.get d).toNat ≤ ticksBetween u n (j + 1) := fun hpj => by
      obtain ⟨hdj, -, -, hle, -⟩ := takeTurn_pending hsj (hs _ hj) (hn j) (hr j) hpj hd
      obtain ⟨n, hnj, hu, hen, hw, hc⟩ := ih (by omega) hpj d hdj
      refine ⟨n, by omega, hu, hen, fun i h1 h2 => ?_, ?_⟩
      · rcases Nat.lt_or_ge j i with h | h
        · have : i = j + 1 := by omega
          rw [this]
          exact ⟨hp, hd⟩
        · exact hw i h1 h
      · rw [ticksBetween_succ u hnj]
        omega
    rcases takeTurn_in_scan hsj (hs _ hj) (hn j) (hr j) with hi | ⟨k, hk, hu, he⟩
    · exact keep (hi.phase.symm.trans hp)
    · cases k with
      | issue =>
        refine ⟨j, by omega, hu, by unfold State.Enabled; rw [he]; rfl, fun i h1 h2 => ?_, ?_⟩
        · have : i = j + 1 := by omega
          rw [this]
          exact ⟨hp, hd⟩
        · obtain ⟨-, h⟩ := issue_eq_some he
          rw [h]
          cases d <;> exact Nat.zero_le _
      | service e => exact keep ((serviceReady_iff _ _).mp (service_eq_some he).1).2.1
      | handoff =>
        obtain ⟨-, ⟨-, h⟩ | ⟨-, h⟩⟩ := handoff_eq_some he
        · rw [h] at hp; cases hp
        · rw [h] at hp; cases hp
      | hsSend => cases hk
      | hsCheck => cases hk

/-! ## Progress of a fair scan -/

/-- A step that is enabled until it is taken is taken (R15). -/
theorem WeaklyFair.taken {r : Nat → State} {u : Nat → Turn} {P : Nat → Prop} {k : SeqStep} {n : Nat}
    (hf : WeaklyFair r u) (h0 : P n) (hen : ∀ m, P m → (r m).Enabled k)
    (hstep : ∀ m, P m → u m ≠ .seq k → P (m + 1)) : ∃ m, n ≤ m ∧ P m ∧ u m = .seq k := by
  by_contra hno
  have hall : ∀ m, n ≤ m → P m := fun m hm => by
    induction m, hm using Nat.le_induction with
    | base => exact h0
    | succ m hm ih => exact hstep m ih fun hu => hno ⟨m, hm, ih, hu⟩
  obtain ⟨m, hm, hu⟩ := hf.1 k n fun m hm => hen m (hall m hm)
  exact hno ⟨m, hm, hall m hm, hu⟩

/-- A fair run that stays SCANNING for ever and is not reset. -/
structure EndlessScan (r : Nat → State) (u : Nat → Turn) : Prop where
  run : IsRun r u
  fair : WeaklyFair r u
  scanning : ∀ n, (r n).state = .scanning
  noReset : ∀ n, u n ≠ .reset

namespace EndlessScan

variable {r : Nat → State} {u : Nat → Turn}

theorem turn (h : EndlessScan r u) (n : Nat) :
    Idled (r n) (r (n + 1)) (u n) ∨ ∃ j, j.isScan = true ∧ u n = .seq j ∧ (r n).seqStep j = some (r (n + 1)) :=
  takeTurn_in_scan (h.scanning n) (h.scanning (n + 1)) (h.noReset n) (h.run n)

/-- One configuration, one timeout and one geometry for the whole run. -/
theorem config (h : EndlessScan r u) (n : Nat) :
    (r n).config = (r 0).config ∧ (r n).timeout = (r 0).timeout ∧ (r n).params = (r 0).params := by
  induction n with
  | zero => exact ⟨rfl, rfl, rfl⟩
  | succ n ih =>
    obtain ⟨g1, g2, g3⟩ := takeTurn_keeps_config (h.scanning n) (h.scanning (n + 1)) (h.noReset n) (h.run n)
    exact ⟨g1.trans ih.1, g2.trans ih.2.1, g3.trans ih.2.2⟩

/-- The queue never grows past Q_CAP: HANDOFF needs room (R203). -/
theorem queue (h : EndlessScan r u) (h0 : (r 0).q.length ≤ (r 0).params.qCap) (n : Nat) :
    (r n).q.length ≤ (r n).params.qCap := by
  induction n with
  | zero => exact h0
  | succ n ih =>
    have hp : (r (n + 1)).params = (r n).params := (h.config (n + 1)).2.2.trans (h.config n).2.2.symm
    rw [hp]
    rcases h.turn n with hi | ⟨j, hj, -, he⟩
    · exact hi.q.trans ih
    · cases j with
      | issue => obtain ⟨-, e⟩ := issue_eq_some he; rw [e]; simpa using ih
      | service d => obtain ⟨-, e⟩ := service_eq_some he; rw [e]; simpa using ih
      | handoff =>
        obtain ⟨⟨-, -, hq⟩, e⟩ := handoff_eq_some he
        have hd : (r n).deliver.q.length ≤ (r n).params.qCap := by
          unfold State.deliver
          split
          · rename_i hm
            have := hq hm
            simp
            omega
          · exact ih
        rcases e with ⟨-, e⟩ | ⟨-, e⟩ <;> rw [e]
        · exact hd
        · exact hd
      | hsSend => cases hj
      | hsCheck => cases hj

/-- ISSUE is taken (R200). -/
theorem issued (h : EndlessScan r u) {n : Nat} (hp : (r n).phase = .issue) :
    ∃ m, n ≤ m ∧ u m = .seq .issue ∧ (r m).Enabled .issue ∧ (r (m + 1)).phase = .wait ∧ (r (m + 1)).col = (r n).col ∧
      (r (m + 1)).pend = .both true := by
  have hen : ∀ m, (r m).phase = .issue → (r m).Enabled .issue := fun m hm => by
    simp [State.Enabled, State.seqStep, State.issue, h.scanning m, hm]
  obtain ⟨m, hm, ⟨hpm, hcm⟩, hu⟩ := h.fair.taken (P := fun m => (r m).phase = .issue ∧ (r m).col = (r n).col)
    (n := n) (k := .issue) ⟨hp, rfl⟩ (fun m hm => hen m hm.1) fun m hm hne => by
      rcases h.turn m with hi | ⟨j, hj, huj, he⟩
      · exact ⟨hi.phase.trans hm.1, hi.col.trans hm.2⟩
      · cases j with
        | issue => exact absurd huj hne
        | service d =>
          have := (serviceReady_iff ..).mp (service_eq_some he).1
          rw [hm.1] at this
          cases this.2.1
        | handoff =>
          have := (handoff_eq_some he).1.2.1
          rw [hm.1] at this
          cases this
        | hsSend => cases hj
        | hsCheck => cases hj
  have hr := h.run m
  rw [hu] at hr
  obtain ⟨t, ht⟩ := Option.isSome_iff_exists.mp (hen m hpm)
  have hn : r (m + 1) = t := by
    simp only [State.takeTurn, ht, Option.getD_some, Host.Outcome.next.injEq] at hr
    exact hr.symm
  obtain ⟨-, e⟩ := issue_eq_some ht
  rw [e] at hn
  refine ⟨m, hm, hu, hen m hpm, ?_, ?_, ?_⟩ <;> rw [hn]
  simpa using hcm

/-- A WAIT from time `n` on up to time `k`, at the column of `n`; flags pending at `k` were pending all along. -/
structure Waits (r : Nat → State) (n k : Nat) : Prop where
  le : n ≤ k
  phase : ∀ j, n ≤ j → j ≤ k → (r j).phase = .wait
  pend : ∀ d j, n ≤ j → j ≤ k → (r k).pend.get d = true → (r j).pend.get d = true
  col : (r k).col = (r n).col
  some : (r k).pend.a = true ∨ (r k).pend.b = true

/-- A WAIT begins at the start of the run or after an ISSUE. -/
def WaitStarts (r : Nat → State) (u : Nat → Turn) (n : Nat) : Prop :=
  n = 0 ∨ ∃ m, n = m + 1 ∧ u m = .seq .issue ∧ (r m).Enabled .issue

/-- In WAIT, if every ADC that stays pending becomes complete for good, one is served (R201, R202). -/
theorem served (h : EndlessScan r u) {n k : Nat} (hw : Waits r n k)
    (hc : ∀ d, (∀ j, n ≤ j → (r j).phase = .wait ∧ (r j).pend.get d = true) → ∃ m, ∀ i, m ≤ i → (r i).cond d = true) :
    ∃ m d, k ≤ m ∧ (∀ j, k ≤ j → j ≤ m → (r j).phase = .wait ∧ (r j).pend = (r k).pend ∧ (r j).col = (r k).col) ∧
      (r m).service d = some (r (m + 1)) := by
  by_contra hno
  have hall : ∀ j, k ≤ j → (r j).phase = .wait ∧ (r j).pend = (r k).pend ∧ (r j).col = (r k).col := by
    intro j
    induction j using Nat.strong_induction_on with
    | _ j ih =>
      intro hj
      rcases Nat.eq_or_lt_of_le hj with rfl | hlt
      · exact ⟨hw.phase _ hw.le (Nat.le_refl _), rfl, rfl⟩
      · obtain ⟨i, rfl⟩ : ∃ i, j = i + 1 := ⟨j - 1, by omega⟩
        obtain ⟨h1, h2, h3⟩ := ih i (by omega) (by omega)
        rcases h.turn i with hi | ⟨e, he, hu, hs⟩
        · exact ⟨hi.phase.trans h1, hi.pend.trans h2, hi.col.trans h3⟩
        · cases e with
          | issue =>
            have := (issue_eq_some hs).1.2
            rw [h1] at this
            cases this
          | service d => exact absurd ⟨i, d, by omega, fun j hk hi => ih j (by omega) hk, hs⟩ hno
          | handoff =>
            have := (handoff_eq_some hs).1.2.1
            rw [h1] at this
            cases this
          | hsSend => cases he
          | hsCheck => cases he
  have hstay : ∀ d, (r k).pend.get d = true → ∃ m, ∀ i, m ≤ i → (r i).cond d = true := fun d hd =>
    hc d fun j hj => by
      rcases Nat.le_total j k with hjk | hjk
      · exact ⟨hw.phase j hj hjk, hw.pend d j hj hjk hd⟩
      · exact ⟨(hall j hjk).1, by rw [(hall j hjk).2.1]; exact hd⟩
  have take : ∀ d, (∃ m, ∀ i, m ≤ i → (r i).cond d = true ∧ (d = .b → (r i).cond .a = false)) → False := by
    rintro d ⟨m, hm⟩
    have hen : ∀ i, m ≤ i ∧ k ≤ i → (r i).Enabled (.service d) := fun i hi => by
      have : (r i).serviceReady d = true :=
        (serviceReady_iff ..).mpr ⟨h.scanning i, (hall i hi.2).1, (hm i hi.1).1, (hm i hi.1).2⟩
      simp [State.Enabled, State.seqStep, State.service, this]
    obtain ⟨i, -, hi, hu⟩ := h.fair.taken (P := fun i => m ≤ i ∧ k ≤ i) (n := max m k) (k := .service d)
      ⟨by omega, by omega⟩ hen fun i hi _ => ⟨by omega, by omega⟩
    have hr := h.run i
    rw [hu] at hr
    obtain ⟨t, ht⟩ := Option.isSome_iff_exists.mp (hen i hi)
    simp only [State.takeTurn, ht, Option.getD_some, Host.Outcome.next.injEq] at hr
    rw [hr] at ht
    exact hno ⟨i, d, hi.2, fun j hj _ => hall j hj, ht⟩
  cases ha : (r k).pend.a with
  | true =>
    obtain ⟨m, hm⟩ := hstay .a ha
    exact take .a ⟨m, fun i hi => ⟨hm i hi, fun e => Dev.noConfusion e⟩⟩
  | false =>
    obtain ⟨m, hm⟩ := hstay .b (hw.some.resolve_left (by rw [ha]; decide))
    refine take .b ⟨max m k, fun i hi => ⟨hm i (by omega), fun _ => ?_⟩⟩
    unfold State.cond
    rw [(hall i (by omega)).2.1, PerAdc.get_a, ha]
    rfl

/-- From a WAIT the scan comes to the hand-off of the same column. -/
theorem joined (h : EndlessScan r u) {n : Nat}
    (hc : ∀ d, (∀ j, n ≤ j → (r j).phase = .wait ∧ (r j).pend.get d = true) → ∃ m, ∀ i, m ≤ i → (r i).cond d = true)
    (c : Nat) : ∀ k, Waits r n k → (r k).pend.a.toNat + (r k).pend.b.toNat ≤ c →
      ∃ m, (r m).phase = .handoff ∧ (r m).col = (r n).col := by
  induction c with
  | zero =>
    intro k hw hle
    have := hw.some
    cases ha : (r k).pend.a <;> cases hb : (r k).pend.b <;> simp_all
  | succ c ih =>
    intro k hw hle
    obtain ⟨m, d, hkm, hall, hs⟩ := h.served hw hc
    obtain ⟨hready, e⟩ := service_eq_some hs
    obtain ⟨hpm, hpend, hcol⟩ := hall m hkm (Nat.le_refl _)
    have hcd : (r m).pend.get d = true := by
      have := ((serviceReady_iff ..).mp hready).2.2.1
      unfold State.cond at this
      exact (Bool.and_eq_true ..).mp this |>.1
    have hpend' : (r (m + 1)).pend = (r m).pend.set d false := by rw [e]; simp [State.served]
    have hcol' : (r (m + 1)).col = (r n).col := by
      rw [e]
      simpa using (hcol.trans hw.col)
    have hph : (r (m + 1)).phase = if (r m).pend.get d.other then .wait else .handoff := by
      rw [e]
      cases d
      · cases hb : (r m).pend.b <;> simp [State.served, hpm, hb, Dev.other]
      · cases hb : (r m).pend.a <;> simp [State.served, hpm, hb, Dev.other]
    cases ho : (r m).pend.get d.other with
    | false => exact ⟨m + 1, by rw [hph, ho]; rfl, hcol'⟩
    | true =>
      rw [ho, if_pos rfl] at hph
      refine ih (m + 1) ⟨by have := hw.le; omega, fun j hj hjm => ?_, fun e j hj hjm he => ?_, hcol', ?_⟩ ?_
      · rcases Nat.lt_or_ge j k with hjk | hjk
        · exact hw.phase j hj (by omega)
        · rcases Nat.eq_or_lt_of_le hjm with rfl | hlt
          · exact hph
          · exact (hall j hjk (by omega)).1
      · rw [hpend'] at he
        have hem : (r m).pend.get e = true := by
          by_cases hed : e = d
          · subst hed
            rw [PerAdc.get_set_self] at he
            cases he
          · rwa [PerAdc.get_set_ne _ hed] at he
        rcases Nat.lt_or_ge j k with hjk | hjk
        · exact hw.pend e j hj (by omega) (by rw [← hpend]; exact hem)
        · rcases Nat.eq_or_lt_of_le hjm with rfl | hlt
          · rw [hpend']
            exact he
          · rw [(hall j hjk (by omega)).2.1, ← hpend]
            exact hem
      · rw [hpend']
        cases d
        · exact .inr ho
        · exact .inl ho
      · rw [hpend']
        rw [← hpend] at hle
        cases d
        · have hb : (r m).pend.b = true := ho
          have ha : (r m).pend.a = true := hcd
          rw [ha, hb] at hle
          rw [PerAdc.set_a]
          simp [hb] at hle ⊢
          omega
        · have hb : (r m).pend.b = true := hcd
          have ha : (r m).pend.a = true := ho
          rw [ha, hb] at hle
          rw [PerAdc.set_b]
          simp [ha] at hle ⊢
          omega

/-- From HANDOFF, if the queue does not stall it for ever, the scan comes to the next column; the last one would end
the scan (R203 to R206). -/
theorem handedOff (h : EndlessScan r u) (hq : (r 0).q.length ≤ (r 0).params.qCap) {n : Nat} (hp : (r n).phase = .handoff)
    (hstall : ∃ m, n ≤ m ∧ (r m).handoffStall = false) :
    (r n).col ≠ (r 0).params.lastCol ∧ ∃ m, (r m).phase = .issue ∧ (r m).col = (r n).col + 1 := by
  have done : ∀ m, (r m).col = (r n).col → (r m).seqStep .handoff = some (r (m + 1)) →
      (r n).col ≠ (r 0).params.lastCol ∧ ∃ m, (r m).phase = .issue ∧ (r m).col = (r n).col + 1 := by
    intro m hc hs
    rcases (handoff_eq_some hs).2 with ⟨-, e⟩ | ⟨hl, e⟩
    · have := h.scanning (m + 1)
      rw [e] at this
      cases this
    · refine ⟨fun hl' => hl ?_, m + 1, by rw [e]; rfl, ?_⟩
      · rw [(h.config m).2.2, hc, hl']
      · rw [e, State.advance, deliver_frame]
        simp [hc]
  by_contra hno
  have hall : ∀ m, n ≤ m → (r m).phase = .handoff ∧ (r m).col = (r n).col := fun m hm => by
    induction m, hm using Nat.le_induction with
    | base => exact ⟨hp, rfl⟩
    | succ m hm ih =>
      rcases h.turn m with hi | ⟨j, hj, -, hs⟩
      · exact ⟨hi.phase.trans ih.1, hi.col.trans ih.2⟩
      · cases j with
        | issue =>
          have := (issue_eq_some hs).1.2
          rw [ih.1] at this
          cases this
        | service d =>
          have := ((serviceReady_iff ..).mp (service_eq_some hs).1).2.1
          rw [ih.1] at this
          cases this
        | handoff => exact absurd (done m ih.2 hs) hno
        | hsSend => cases hj
        | hsCheck => cases hj
  obtain ⟨m, hm, hst⟩ := hstall
  have hroom : ∀ i, m ≤ i → ((r i).config.mode = true → (r i).q.length < (r i).params.qCap) := fun i hi => by
    induction i, hi using Nat.le_induction with
    | base =>
      intro hmode
      have hne : (r m).qFull = false := by
        have := hst
        unfold State.handoffStall at this
        rw [h.scanning m, (hall m hm).1, hmode] at this
        simpa using this
      have hle := h.queue hq m
      have : (r m).q.length ≠ (r m).params.qCap := by simpa [State.qFull] using hne
      omega
    | succ i hi ih =>
      intro hmode
      have hcfg : (r (i + 1)).config = (r i).config ∧ (r (i + 1)).params = (r i).params :=
        ⟨(h.config (i + 1)).1.trans (h.config i).1.symm, (h.config (i + 1)).2.2.trans (h.config i).2.2.symm⟩
      rw [hcfg.1] at hmode
      rw [hcfg.2]
      rcases h.turn i with hid | ⟨j, hj, -, hs⟩
      · exact Nat.lt_of_le_of_lt hid.q (ih hmode)
      · cases j with
        | issue =>
          have := (issue_eq_some hs).1.2
          rw [(hall i (by omega)).1] at this
          cases this
        | service d =>
          have := ((serviceReady_iff ..).mp (service_eq_some hs).1).2.1
          rw [(hall i (by omega)).1] at this
          cases this
        | handoff => exact absurd (done i (hall i (by omega)).2 hs) hno
        | hsSend => cases hj
        | hsCheck => cases hj
  have hen : ∀ i, m ≤ i → (r i).Enabled .handoff := fun i hi => by
    have : (r i).handoffReady = true := by
      unfold State.handoffReady
      rw [h.scanning i, (hall i (by omega)).1]
      cases hmode : (r i).config.mode with
      | false => rfl
      | true => simpa using hroom i hi hmode
    simp [State.Enabled, State.seqStep, State.handoff, this]
  obtain ⟨i, -, hi, hu⟩ := h.fair.taken (P := fun i => m ≤ i) (n := m) (k := .handoff) (Nat.le_refl _) hen
    fun i hi _ => by omega
  have hr := h.run i
  rw [hu] at hr
  obtain ⟨t, ht⟩ := Option.isSome_iff_exists.mp (hen i hi)
  simp only [State.takeTurn, ht, Option.getD_some, Host.Outcome.next.injEq] at hr
  rw [hr] at ht
  exact hno (done i (hall i (by omega)).2 ht)

/-- No fair scan is endless, if in every WAIT the ADCs that stay pending become complete for good and no full queue
stalls a hand-off for ever. -/
theorem ends (h : EndlessScan r u) (hq : (r 0).q.length ≤ (r 0).params.qCap)
    (hcol : (r 0).col.toNat ≤ (r 0).params.lastCol.toNat)
    (hpend : (r 0).phase = .wait → (r 0).pend.a = true ∨ (r 0).pend.b = true)
    (hc : ∀ n d, WaitStarts r u n → (∀ j, n ≤ j → (r j).phase = .wait ∧ (r j).pend.get d = true) →
      ∃ m, ∀ i, m ≤ i → (r i).cond d = true)
    (hstall : ∀ n, ∃ m, n ≤ m ∧ (r m).handoffStall = false) : False := by
  have wait : ∀ n, WaitStarts r u n → (r n).phase = .wait → ((r n).pend.a = true ∨ (r n).pend.b = true) →
      ∃ m, (r m).phase = .handoff ∧ (r m).col = (r n).col := fun n hs hp hsome => by
    refine h.joined (fun d => hc n d hs) 2 n ⟨Nat.le_refl _, fun j h1 h2 => ?_, fun d j h1 h2 hd => ?_, rfl, hsome⟩ ?_
    · rwa [Nat.le_antisymm h2 h1]
    · rwa [Nat.le_antisymm h2 h1]
    · have := Bool.toNat_le (r n).pend.a
      have := Bool.toNat_le (r n).pend.b
      omega
  have hand : ∀ n, (r n).phase = .issue → ∃ m, (r m).phase = .handoff ∧ (r m).col = (r n).col := fun n hp => by
    obtain ⟨m, -, hu, hen, hpm, hcm, hpd⟩ := h.issued hp
    obtain ⟨m', h1, h2⟩ := wait (m + 1) (.inr ⟨m, rfl, hu, hen⟩) hpm (.inl (by rw [hpd]; rfl))
    exact ⟨m', h1, h2.trans hcm⟩
  have loop : ∀ (k n : Nat), (r n).phase = .handoff → (r n).col.toNat ≤ (r 0).params.lastCol.toNat →
      (r 0).params.lastCol.toNat - (r n).col.toNat ≤ k → False := by
    intro k
    induction k with
    | zero =>
      intro n hp hle hk
      exact (h.handedOff hq hp (hstall n)).1 (BitVec.eq_of_toNat_eq (by omega))
    | succ k ih =>
      intro n hp hle hk
      obtain ⟨hne, m, hpm, hcm⟩ := h.handedOff hq hp (hstall n)
      obtain ⟨m', hp', hc'⟩ := hand m hpm
      have hlt : (r n).col.toNat < (r 0).params.lastCol.toNat :=
        Nat.lt_of_le_of_ne hle fun e => hne (BitVec.eq_of_toNat_eq e)
      have hlast := (r 0).params.lastCol.isLt
      have hnext : (r m').col.toNat = (r n).col.toNat + 1 := by
        rw [hc', hcm, BitVec.toNat_add]
        simp
        omega
      exact ih m' hp' (by omega) (by omega)
  have start : ∃ m, (r m).phase = .handoff ∧ (r m).col = (r 0).col := by
    cases hp : (r 0).phase with
    | issue => exact hand 0 hp
    | wait => exact wait 0 (.inl rfl) hp (hpend hp)
    | handoff => exact ⟨0, hp, rfl⟩
  obtain ⟨m, hp, hc'⟩ := start
  exact loop _ m hp (by rw [hc']; exact hcol) (Nat.le_refl _)

/-! ## When a pending ADC becomes complete for good -/

/-- A latched edge completes its ADC for good (R190). -/
theorem latched (h : EndlessScan r u) {n m : Nat} {d : Dev} (hnm : n ≤ m)
    (hw : ∀ j, n ≤ j → (r j).phase = .wait ∧ (r j).pend.get d = true) (hmode : (r 0).config.eocMode = true)
    (he : (r m).edge.get d = true) : ∀ i, m ≤ i → (r i).cond d = true := by
  have hall : ∀ i, m ≤ i → (r i).edge.get d = true := fun i hi => by
    induction i, hi using Nat.le_induction with
    | base => exact he
    | succ i hi ih => exact (takeTurn_pending (h.scanning i) (h.scanning (i + 1)) (h.noReset i) (h.run i)
        (hw i (by omega)).1 (hw (i + 1) (by omega)).2).2.1 ih
  intro i hi
  unfold State.cond
  rw [(h.config i).1, hmode, hall i hi, (hw i (by omega)).2]
  rfl

/-- With a timeout set, only finitely many ticks find an ADC that stays pending incomplete (R209). -/
theorem complete_at_ticks (h : EndlessScan r u) (h0 : (r 0).timeout ≠ 0) {n : Nat} {d : Dev}
    (hw : ∀ j, n ≤ j → (r j).phase = .wait ∧ (r j).pend.get d = true) :
    ∃ m, n ≤ m ∧ ∀ j, m ≤ j → u j = .tick → (r j).cond d = true := by
  by_contra hno
  have hmiss : ∀ m, n ≤ m → ∃ j, m ≤ j ∧ u j = .tick ∧ (r j).cond d = false := fun m hm => by
    by_contra hh
    exact hno ⟨m, hm, fun j hj hu => by rw [← Bool.not_eq_false]; exact fun hc => hh ⟨j, hj, hu, hc⟩⟩
  have hstep : ∀ j, n ≤ j → ((r j).cnt.get d).toNat ≤ ((r (j + 1)).cnt.get d).toNat ∧
      (u j = .tick → (r j).cond d = false → ((r (j + 1)).cnt.get d).toNat = ((r j).cnt.get d).toNat + 1) := fun j hj => by
    obtain ⟨-, -, h1, -, h2⟩ := takeTurn_pending (h.scanning j) (h.scanning (j + 1)) (h.noReset j) (h.run j)
      (hw j hj).1 (hw (j + 1) (by omega)).2
    refine ⟨h1, fun ht hc => h2 ht (by rw [(h.config j).2.1]; exact h0) ?_⟩
    unfold State.unanswered
    rw [(hw j hj).2, hc]
    rfl
  have hmono : ∀ j i, n ≤ j → j ≤ i → ((r j).cnt.get d).toNat ≤ ((r i).cnt.get d).toNat := fun j i hj hi => by
    induction i, hi using Nat.le_induction with
    | base => exact Nat.le_refl _
    | succ i hi ih => exact ih.trans (hstep i (by omega)).1
  have hgrow : ∀ c, ∃ j, n ≤ j ∧ c ≤ ((r j).cnt.get d).toNat := by
    intro c
    induction c with
    | zero => exact ⟨n, Nat.le_refl _, Nat.zero_le _⟩
    | succ c ih =>
      obtain ⟨j, hj, hcj⟩ := ih
      obtain ⟨i, hi, hu, hc⟩ := hmiss j hj
      refine ⟨i + 1, by omega, ?_⟩
      have := (hstep i (by omega)).2 hu hc
      have := hmono j i hj hi
      omega
  obtain ⟨j, -, hj⟩ := hgrow (2 ^ 32)
  have := ((r j).cnt.get d).isLt
  omega

/-- With a timeout set, no ADC stays pending and incomplete for ever: the ticks reach the timeout (R209). -/
theorem answered (h : EndlessScan r u) (h0 : (r 0).timeout ≠ 0) {n : Nat} {d : Dev}
    (hw : ∀ j, n ≤ j → (r j).phase = .wait ∧ (r j).pend.get d = true) : ¬ ∀ j, n ≤ j → (r j).cond d = false := by
  intro hc
  obtain ⟨m, hnm, hm⟩ := h.complete_at_ticks h0 hw
  obtain ⟨j, hj, hu⟩ := h.fair.2 m
  have := hm j hj hu
  rw [hc j (by omega)] at this
  cases this

end EndlessScan

/-- Without RESET a running scan goes on, is DONE or faults (R208). -/
theorem takeTurn_leaves_scan {s t : State} {k : Turn} (hs : s.state = .scanning) (hk : k ≠ .reset)
    (h : s.takeTurn k = .next t) : t.state = .scanning ∨ t.state = .done ∨ t.state = .fault := by
  rcases takeTurn_scanning hs h with h' | ⟨d, v, -, rfl⟩ | ⟨-, rfl⟩ | ⟨j, hj, -, he⟩ | h'
  · exact .inl (h'.state.trans hs)
  · exact .inl (by rw [eocDrive_frame]; exact hs)
  · unfold State.tick
    split
    · rw [countTick_frame (s.countTick .a), countTick_frame s]
      dsimp only
      split
      · unfold State.checkTimeout
        dsimp only
        rw [flagTimeout_frame (State.flagTimeout _ _ _), flagTimeout_frame]
        repeat' split
        · exact .inr (.inr rfl)
        · exact .inr (.inr rfl)
        · exact .inl hs
      · exact .inl hs
    · exact .inl hs
  · cases j with
    | issue => obtain ⟨-, rfl⟩ := issue_eq_some he; exact .inl (by simpa using hs)
    | service d => obtain ⟨-, rfl⟩ := service_eq_some he; exact .inl (by simpa using hs)
    | handoff =>
      obtain ⟨-, ⟨-, rfl⟩ | ⟨-, rfl⟩⟩ := handoff_eq_some he
      · exact .inr (.inl rfl)
      · refine .inl ?_
        rw [State.advance, deliver_frame]
        simpa using hs
    | hsSend => cases hj
    | hsCheck => cases hj
  · exact absurd h' hk

/-- A running scan keeps its TIMEOUT, and with TIMEOUT = 0 it never faults (R209, R276). -/
theorem takeTurn_keeps_timeout {s t : State} {k : Turn} (hs : s.state = .scanning) (hk : k ≠ .reset)
    (h : s.takeTurn k = .next t) : t.timeout = s.timeout ∧ (s.timeout = 0 → t.state ≠ .fault) := by
  have hne : s.state ≠ .fault := by rw [hs]; decide
  rcases takeTurn_scanning hs h with h' | ⟨d, v, -, rfl⟩ | ⟨-, rfl⟩ | ⟨j, hj, -, he⟩ | h'
  · exact ⟨h'.timeout, fun _ => by rw [h'.state]; exact hne⟩
  · rw [eocDrive_frame]
    exact ⟨rfl, fun _ => hne⟩
  · refine ⟨by rw [tick_frame], fun h0 => ?_⟩
    unfold State.tick
    split
    · rw [countTick_frame (s.countTick .a), countTick_frame s]
      dsimp only
      rw [if_neg (by simpa using h0)]
      exact hne
    · exact hne
  · refine ⟨(scanStep_config hj he).2.1, fun _ hf => ?_⟩
    cases j with
    | issue => obtain ⟨-, rfl⟩ := issue_eq_some he; exact hne (by simpa using hf)
    | service d => obtain ⟨-, rfl⟩ := service_eq_some he; exact hne (by simpa using hf)
    | handoff =>
      obtain ⟨-, ⟨-, rfl⟩ | ⟨-, rfl⟩⟩ := handoff_eq_some he
      · cases hf
      · rw [State.advance, deliver_frame] at hf
        exact hne (by simpa using hf)
    | hsSend => cases hj
    | hsCheck => cases hj
  · exact absurd h' hk

/-- A fair run of a scan without RESET comes to DONE or FAULT, or it is endless. -/
theorem scan_ends_or_endless {r : Nat → State} {u : Nat → Turn} (hr : IsRun r u) (hf : WeaklyFair r u)
    (hs : (r 0).state = .scanning) (hn : ∀ n, u n ≠ .reset) :
    (∃ n, (r n).state = .done ∨ (r n).state = .fault) ∨ EndlessScan r u := by
  by_contra hno
  rw [not_or] at hno
  refine hno.2 ⟨hr, hf, fun n => ?_, hn⟩
  induction n with
  | zero => exact hs
  | succ n ih => exact (takeTurn_leaves_scan ih (hn n) (hr n)).resolve_right fun h => hno.1 ⟨n + 1, h⟩

end Sys2Proof.Machine
end

