-- ==== Sys2Proof/Tests/Slice0.lean ====
section
/-! SUPPORT. The model's own tests: expected results are the examples and the worked vectors of 95_test_vectors.md
(sections named at each test), and one witness for the hypotheses of each obligation. -/

namespace Sys2Proof.Tests

open Sys2Proof.Machine

/-! ## Small states -/

/-- Two columns, one channel for each ADC: rows of two bytes, a frame of four. -/
def small : Params where
  lastCol := 1
  lastChan := 0
  qCapRaw := 4
  setupLow6 := 0x2A
  timeoutRaw := 3
  clrPolReset := false
  base := 0x40000000
  tickPeriodRaw := 10
  srPulseRaw := 1
  csActiveLow := true

/-- Reset, with the inputs of 95_test_vectors.md: EOC lines high, LINK_READY = 1, SR_OUT = 0. -/
def ready : State := { State.reset with eoc := ⟨true, true⟩, linkReady := true, srOut := false }

/-- IDLE with the small geometry, EDGE and QUEUE, TIMEOUT = 3. -/
def idle : State :=
  { ready with params := small, config := ⟨true, true, false, false⟩, timeout := 3, pins := [] }

/-- The scan of the small geometry before ISSUE of column 0. -/
def issuing : State := { idle with state := .scanning, chain := 1, hist := [.clr, .shift true] }

/-- The same scan after ISSUE. -/
def waiting : State :=
  { issuing with
    phase := .wait
    pend := ⟨true, true⟩
    hist := [.clr, .shift true, .xfer .a [0x80] [0x11], .xfer .b [0x80] [0x22]] }

/-- The same scan with both ADCs read, in FRAME mode. -/
def handing : State :=
  { issuing with phase := .handoff, rowbuf := [(0, 0xA5), (1, 0x3C)], config := ⟨false, true, false, false⟩ }

/-- The scan stopped by a timeout of B at column 1. -/
def faulted : State := { idle with state := .fault, col := 1, chain := 2, faultReg := 0x00020102, err := 0x40 }

/-- The scan ended. -/
def finished : State := { idle with state := .done, col := 1, chain := 2 }

/-- The next state, if there is one. -/
def next? (o : Host.Outcome State Fault Refusal) : Option State :=
  match o with
  | .next t => some t
  | .fault _ => none
  | .refused _ => none

/-- A field of the next state. -/
def field {α : Type} (o : Host.Outcome State Fault Refusal) (f : State → α) : Option α := (next? o).map f

/-- One turn of `s`. -/
def turn (s : State) (t : Turn) : Option State := next? (s.takeTurn t)

/-! ## Well-formedness: each check refuses an ill-formed term -/

/-- `illegal` of a command's word is no instruction (R114): one word of each command row (R111). -/
theorem test_illegal_of_command_refused :
    ([0x00, 0x10, 0x20, 0x30, 0x31, 0x40, 0x50, 0x60, 0x61, 0x70, 0x71, 0x80].map
      fun w : Word => (Instr.illegal w).WellFormed) = List.replicate 12 false := by decide

/-- `illegal` of the Illegal words of section 2.1 is well formed. -/
theorem test_illegal_words_wellformed :
    ([0x01, 0x11, 0x32, 0x3F, 0x41, 0x62, 0x81, 0x90, 0xF0, 0x100, 0x80000040].map
      fun w : Word => (Instr.illegal w).WellFormed) = List.replicate 11 true := by decide

/-- A memory out of order or with a repeated index is not in the canonical form. -/
theorem test_memory_wf_refuses :
    Memory.wf [(1, 0x00), (0, 0x00)] = false ∧ Memory.wf [(0, 0x00), (0, 0x01)] = false ∧
      Memory.wf [(0, 0x00), (1, 0x00)] = true := by decide

/-! ## Decoding: words written bit by bit from 30_encoding.md (R110, R111, R115 to R117)

RSV 31..8, OP 7..4, ARG 3..0. -/

theorem test_decode_nop : decodeCmd 0b000000000000000000000000_0000_0000 = .nop := by decide
theorem test_decode_initAdc : decodeCmd 0b000000000000000000000000_0001_0000 = .initAdc := by decide
theorem test_decode_chainClear : decodeCmd 0b000000000000000000000000_0010_0000 = .chainClear := by decide
theorem test_decode_chainAdvance0 : decodeCmd 0b000000000000000000000000_0011_0000 = .chainAdvance false := by decide
theorem test_decode_chainAdvance1 : decodeCmd 0b000000000000000000000000_0011_0001 = .chainAdvance true := by decide
theorem test_decode_startScan : decodeCmd 0b000000000000000000000000_0100_0000 = .startScan := by decide
theorem test_decode_faultClear : decodeCmd 0b000000000000000000000000_0101_0000 = .faultClear := by decide
theorem test_decode_adcRequestA : decodeCmd 0b000000000000000000000000_0110_0000 = .adcRequest .a := by decide
theorem test_decode_adcRequestB : decodeCmd 0b000000000000000000000000_0110_0001 = .adcRequest .b := by decide
theorem test_decode_adcReadA : decodeCmd 0b000000000000000000000000_0111_0000 = .adcRead .a := by decide
theorem test_decode_adcReadB : decodeCmd 0b000000000000000000000000_0111_0001 = .adcRead .b := by decide
theorem test_decode_handshakeStart : decodeCmd 0b000000000000000000000000_1000_0000 = .handshakeStart := by decide

/-- Section 2.1: ARG[1] set, a reserved OP, RSV not 0. -/
theorem test_decode_illegal :
    decodeCmd 0x00000032 = .illegal 0x00000032 ∧ decodeCmd 0x00000090 = .illegal 0x00000090 ∧
      decodeCmd 0x80000040 = .illegal 0x80000040 := by decide

/-- 1CCCC000 with CCCC = 1101 (14 channels). -/
theorem test_decode_adcConv : decodeWire .a 0b1_1101_000 = .ok (.adcConv .a 0b1101) := by decide

/-- 01XXXXXX with every X set. -/
theorem test_decode_adcSetup : decodeWire .b 0b01_111111 = .ok (.adcSetup .b 0b111111) := by decide

/-- The null byte; a byte with bit 7 set and bits 2..0 not 0, and a byte 001xxxxx, are no instruction (DD other than 00:
log 21). -/
theorem test_decode_adcNull :
    decodeWire .b 0b00000000 = .ok (.adcNull .b) ∧ decodeWire .a 0b1_1101_001 = .error (.notAWireByte 0xE9) ∧
      decodeWire .a 0b00100000 = .error (.notAWireByte 0x20) := by decide

/-! ## Instructions, one step each -/

/-- Section 2.6: NOP during a scan changes nothing. -/
theorem test_nop_scanning : exec .nop waiting = .next waiting := rfl

/-- R147: the setup byte 0x40 | SETUP_LOW6 goes to A and then to B. -/
theorem test_initAdc_order :
    field (exec .initAdc idle) (fun t => t.hist.map fun e => match e with
      | .xfer d tx _ => some (d, tx)
      | .clr => none
      | .shift _ => none) = some [some (.a, [0x6A]), some (.b, [0x6A])] := by decide

/-- R147: nothing is sent and no error is set while the link is not ready. -/
theorem test_initAdc_notReady :
    exec .initAdc { idle with linkReady := false } = .next { idle with linkReady := false } := rfl

/-- Section 2.3: CHAIN_CLEAR in FAULT empties the chain. -/
theorem test_chainClear_fault : field (exec .chainClear faulted) (fun t => (t.chain, t.err)) = some (0, 0x40) := by
  decide

/-- Section 2.3: a bit shifted out of the last stage is gone. -/
theorem test_chainAdvance_out :
    field (exec (.chainAdvance false) { ready with chain := 1#64 <<< 55 }) (fun t => (t.chain, t.err)) =
      some (0, 0) := by decide +kernel

/-- Section 2.3: a 1 into a chain that holds a 1 is refused. -/
theorem test_chainAdvance_multiHot :
    field (exec (.chainAdvance true) { ready with chain := 1 }) (fun t => (t.chain, t.err)) = some (1, 0x04) := by
  decide +kernel

/-- Section 2.4: START_SCAN from DONE with another column selected. -/
theorem test_startScan_done :
    field (exec .startScan { ready with state := .done, col := 55, chain := 1#64 <<< 55 })
      (fun t => (t.readReg .chain0, t.readReg .chain1, t.readReg .col, t.state)) =
      some (1, 0, 0, .scanning) := by decide +kernel

/-- Section 2.4: START_SCAN in SCANNING is rejected and changes nothing else. -/
theorem test_startScan_rejected : exec .startScan waiting = .next { waiting with err := 0x02 } := rfl

/-- Section 2.6: FAULT_CLEAR in FAULT; ERR is unchanged. -/
theorem test_faultClear :
    field (exec .faultClear { faulted with faultReg := 0x00020502, col := 5 })
      (fun t => (t.state, t.faultReg, t.col, t.err)) = some (.idle, 0, 0, 0x40) := by decide

/-- Section 2.1: FAULT_CLEAR in IDLE gives ERR = 0x02. -/
theorem test_faultClear_idle : field (exec .faultClear idle) (·.err) = some 0x02 := by decide

/-- Section 2.1: ADC_REQUEST B sends [0xE8] to B with 14 channels. -/
theorem test_adcRequest :
    field (exec (.adcRequest .b) { ready with params := { small with lastChan := 13 } })
      (fun t => t.hist.map fun e => match e with
        | .xfer d tx _ => some (d, tx)
        | .clr => none
        | .shift _ => none) = some [some (.b, [0xE8])] := by decide

/-- Section 2.2: B answers the mock bytes of its channel 13; byte 1 of the small row is 0x1B and byte 0 stays. -/
theorem test_adcRead :
    field (exec (.adcRead .b) { idle with rowbuf := [(0, 0x77)], answers := ⟨[], [[0x01, 0xB0]]⟩ })
      (fun t => (t.rowbufAt 0, t.rowbufAt 1)) = some (0x77, 0x1B) := by decide

/-- Section 2.1 and 2.5: HANDSHAKE_START from HS_IDLE, and from HS_DONE. -/
theorem test_handshakeStart :
    field (exec .handshakeStart idle) (fun t => (t.hsState, t.hsIdx, t.err)) = some (.send, 0, 0) ∧
      field (exec .handshakeStart { idle with hsState := .done, hsIdx := 3 }) (fun t => (t.hsState, t.err)) =
        some (.done, 0x02) := by decide

/-- Section 2.6: an Illegal word during a scan sets ILLEGAL_CMD only. -/
theorem test_illegal_scanning : exec (.illegal 0x32) waiting = .next { waiting with err := 0x01 } := rfl

/-- R115, R119: a request byte received for one sent, on the device chip-select names. -/
theorem test_adcConv :
    field (exec (.adcConv .b 0b1101) idle) (fun t => t.hist.map fun e => match e with
      | .xfer d tx rx => some (d, tx, rx.length)
      | .clr => none
      | .shift _ => none) = some [some (.b, [0xE8], 1)] := by decide

/-- R116: the setup byte with every low bit set is 0x7F. -/
theorem test_adcSetup :
    field (exec (.adcSetup .a 0x3F) idle) (fun t => t.hist.map fun e => match e with
      | .xfer d tx rx => some (d, tx, rx.length)
      | .clr => none
      | .shift _ => none) = some [some (.a, [0x7F], 1)] := by decide

/-- R117, R143: two null bytes with one channel, answered by what the ADC was given to answer. -/
theorem test_adcNull :
    field (exec (.adcNull .a) { idle with answers := ⟨[[0x12, 0x34]], []⟩ }) (·.hist) =
      some [.xfer .a [0x00, 0x00] [0x12, 0x34]] := by decide

/-! ## Operations and agents -/

/-- Section 2.2: ReqByte for 1, 2, 8, 14, 15 and 16 channels. -/
theorem test_reqByte : [1, 2, 8, 14, 15, 16].map reqByte = [0x80, 0x88, 0xB8, 0xE8, 0xF0, 0xF8] := by decide

/-- Section 2.2 and E1: the padding nibbles have no effect. -/
theorem test_deint :
    [deint 0x0A 0x50, deint 0x3A 0x50, deint 0xFA 0x5F, deint 0x12 0x34, deint 0x00 0x0F, deint 0xF0 0x0F,
      deint 0xFF 0xFF, deint 0x0F 0xF0, deint 0x01 0xB0] =
      [0xA5, 0xA5, 0xA5, 0x23, 0x00, 0x00, 0xFF, 0xFF, 0x1B] := by decide

/-- The parameters beside the geometry (I9, I11, I14, I15): an address from BASE (R81), ceil(T / TICK_PERIOD) ticks, the
inverted chip-select. -/
theorem test_platform_params :
    small.busAddress 0x004 = 0x40000004 ∧ [small.ticksFor 20, small.ticksFor 21] = [2, 3] ∧
      [small.csLevel true, small.csLevel false] = [false, true] := by decide

/-- Section 2.1: queue tags with COL_HEIGHT = 56, and with COL_HEIGHT = 1. -/
theorem test_rowTag :
    [0, 1, 54, 55].map (rowTag { small with lastCol := 55 }) = [0x00, 0x01, 0x36, 0x137] ∧
      rowTag { small with lastCol := 0 } 0 = 0x100 := by decide

/-- Section 2.4: with TIMEOUT = 1 and neither ADC complete, the first tick faults with A's cause and both bits. -/
theorem test_tick_timeout :
    (turn { waiting with timeout := 1 } .tick).map (fun t => (t.state, t.err, t.faultReg)) =
      some (.fault, 0x60, 0x00030001) := by decide +kernel

/-- Section 2.4: a complete ADC is not counted, the other is. -/
theorem test_tick_counts :
    (turn { waiting with edge := ⟨true, false⟩, cnt := ⟨1, 1⟩ } .tick).map (·.cnt) = some ⟨1, 2⟩ := by decide +kernel

/-- Section 2.2: a falling edge of an ADC that is not pending during a scan. -/
theorem test_eoc_spurious :
    (turn { waiting with pend := ⟨false, true⟩ } (.eocDrive .a false)).map (fun t => (t.err, t.edge)) =
      some (0x08, ⟨false, false⟩) := by decide

/-- Section 2.2: a falling edge of a pending ADC latches in EDGE mode. -/
theorem test_eoc_latch : (turn waiting (.eocDrive .b false)).map (fun t => (t.err, t.edge)) =
    some (0, ⟨false, true⟩) := by decide

/-- Section 2.4: with both ADCs complete only SERVICE(A) is enabled. -/
theorem test_arbitration :
    (({ waiting with edge := ⟨true, true⟩ } : State).serviceReady .a,
      ({ waiting with edge := ⟨true, true⟩ } : State).serviceReady .b) = (true, false) := by decide

/-- Section 2.6: a misaligned read, an unmapped read, and an 8-bit write to CMD that does not run its command. -/
theorem test_bad_access :
    (ready.busRead ⟨0x002, 4, .read⟩).map (fun r => (r.1, r.2.err)) = some (0, 0x80) ∧
      (ready.busRead ⟨0x044, 4, .read⟩).map (fun r => (r.1, r.2.err)) = some (0, 0x80) ∧
      field (ready.busWrite ⟨0x000, 1, .write 0x40⟩ 0x40) (fun t => (t.state, t.err)) = some (.idle, 0x80) := by
  decide +kernel

/-- Section 2.6: the word just past FRAME is unmapped and the last word of FRAME is mapped (reference geometry). -/
theorem test_frame_end : regAt State.reset.params 0x1620 = none ∧ regAt State.reset.params 0x161C = some (.frame 391) := by
  decide +kernel

/-- Section 2.6: STATUS after reset with the inputs of the vectors. -/
theorem test_status_reset : ready.statusWord = 0x00080380 := by decide +kernel

/-- Section 2.6: 1s written to ERR clear, bits 31..8 are ignored. -/
theorem test_err_clear :
    ({ idle with err := 0x22 } : State).clearErr 0x20 = { idle with err := 0x02 } ∧
      (({ idle with err := 0x22 } : State).clearErr 0xFFFFFF00).err = 0x22 := ⟨rfl, by decide⟩

/-- Section 2.6: ROWBUF+0 with row bytes A5 3C 00 FF. -/
theorem test_window :
    windowRead (fun j => [0xA5, 0x3C, 0x00, 0xFF].getD j 0x11) 28 0 = 0xFF003CA5 := by decide

/-- Section 2.5: MB_RX outside HS_WAIT, and in HS_WAIT while the channel is full, drops the word. -/
theorem test_mbRx_drop :
    ((idle.putMbRx 5).err, (idle.putMbRx 5).mbRx.valid) = (0x10, false) ∧
      (({ idle with hsState := .wait, mbRx := ⟨true, 5⟩ } : State).putMbRx 6).mbRx = ⟨true, 5⟩ := by decide

/-- P6: a corrupted echo is sent again, the index stays. -/
theorem test_hsCheck_mismatch :
    (({ idle with hsState := .wait, hsVec := 0x10000000, mbRx := ⟨true, 0x10000001⟩ } : State).hsCheck).map
      (fun t => (t.hsState, t.hsIdx)) = some (.send, 0) := by decide

/-! ## Witnesses: a state and operands that meet the hypotheses of each obligation -/

/-- A write of `w` to CMD as CTRL's turn. -/
def writing (s : State) (w : Word) : State := { s with turns := [.access .ctrl (cmdAccess w)] }

/-- CTRL tries its waiting access again. -/
def retrying (s : State) (acc : BusAccess) : State := { s with turns := [.retry .ctrl], ctrl := ⟨[acc], []⟩ }

theorem witness_DecodeInvertsEncode :
    (Instr.illegal 0x32).WellFormed = true ∧ (Instr.chainAdvance true).WellFormed = true ∧
      (Instr.adcSetup .b 0x3F).WellFormed = true := by decide

theorem witness_EncodeInvertsDecode :
    (Instr.chainAdvance true).WellFormed = true ∧ encode (.chainAdvance true) = .cmd 0x31 ∧
      (Instr.illegal 0x32).WellFormed = true ∧ encode (.illegal 0x32) = .cmd 0x32 := by decide

theorem witness_WireBytesDecodeExactly :
    decodeWire .a 0x88 = .ok (.adcConv .a 1) ∧ decodeWire .a 0x81 = .error (.notAWireByte 0x81) := by decide

theorem witness_RequestByteNamesChannels :
    small.channels = 1 ∧ ({ small with lastChan := 15 } : Params).channels = 16 := by decide

theorem witness_DeintKeepsInnerNibbles : deint 0x3A 0x50 = 0xA5 ∧ deint 0xFA 0x5F = 0xA5 := by decide

theorem witness_ResponsePairsMakeSamples :
    [0x01, 0xB0].length = 2 * 1 ∧ deintAll [0x01, 0xB0] = [0x1B] := by decide

/-- A command tried again and one issued; an access issued behind one that waits; a read that completes (STATUS) and one
that stalls (QTAG, with nothing queued). -/
theorem witness_StepRunsBusAccesses :
    ((retrying idle (cmdAccess 0x40)).linkPort = none ∧ (retrying idle (cmdAccess 0x40)).turns = [.retry .ctrl] ∧
      ((retrying idle (cmdAccess 0x40)).master .ctrl).waiting = cmdAccess 0x40 :: []) ∧
    ((writing idle 0x40).turns = [.access .ctrl (cmdAccess 0x40)] ∧
      ((writing idle 0x40).master .ctrl).waiting ++ [cmdAccess 0x40] = cmdAccess 0x40 :: []) ∧
    (({ writing idle 0x40 with ctrl := ⟨[⟨0x040, 4, .read⟩], []⟩ } : State).master .ctrl).waiting ++ [cmdAccess 0x40] =
      ⟨0x040, 4, .read⟩ :: [cmdAccess 0x40] ∧
    (idle.busRead ⟨0x004, 4, .read⟩).isSome = true ∧ idle.busRead ⟨0x040, 4, .read⟩ = none := by decide +kernel

theorem witness_StepRunsPlacedWireBytes :
    decodeWire .b 0x80 = .ok (.adcConv .b 0) ∧ decodeWire .b 0x01 = .error (.notAWireByte 0x01) ∧
      ({ idle with linkPort := some (.b, 0x80) } : State).linkPort = some (.b, 0x80) := by decide

theorem witness_PlacedBitsRunNext :
    idle.linkPort = none ∧ decodeTableWord 32 0x31 = some (.chainAdvance true) ∧
      decodeTableWord 8 0x7F = some (.adcSetup .a 0x3F) := by decide

theorem witness_MachineNeverStops : idle.linkPort = none ∧ waiting.linkPort = none := by decide

theorem witness_NopAndIllegalWords :
    (writing waiting 0x32).linkPort = none ∧ ((writing waiting 0x32).master .ctrl).waiting = [] ∧
      isCommandWord 0x32 = false := by decide

theorem witness_InitAdcSetsUpBothAdcs :
    (idle.state = .idle ∧ idle.linkReady = true) ∧
      (finished.state = .done ∧ ({ finished with linkReady := false } : State).linkReady = false) ∧
      waiting.state = .scanning ∧ faulted.state = .fault := by decide

theorem witness_ChainClearEmptiesTheChain : faulted.state ≠ .scanning ∧ issuing.state = .scanning := by decide

theorem witness_ChainAdvanceShiftsOneStage :
    (idle.state = .idle ∧ idle.chain = 0) ∧ (finished.state = .done ∧ finished.chain ≠ 0) ∧
      waiting.state = .scanning ∧ faulted.state = .fault := by decide

theorem witness_SweepSelectsEachColumn :
    1 < small.colHeight ∧ ¬ 2 < small.colHeight ∧
      ((idle.chainClear.chainShift true).chainShift false).chain = 2 ∧
      (((idle.chainClear.chainShift true).chainShift false).chainShift false).chain = 0 := by decide +kernel

theorem witness_StartScanSeedsAndResetsCursor :
    idle.state = .idle ∧ finished.state = .done ∧ waiting.state = .scanning ∧ faulted.state = .fault := by decide

theorem witness_RejectionFollowsTheTable :
    accepted .startScan waiting = false ∧ accepted .faultClear idle = false ∧ accepted .chainClear faulted = true ∧
      accepted .handshakeStart waiting = true ∧ accepted .handshakeStart { idle with hsState := .done } = false ∧
      (waiting.state = .scanning ∧ (Instr.nop).cmdWord?.isSome = true ∧ accepted .nop waiting = true) := by decide

theorem witness_CommandErrorsArePrecise :
    ([field (exec (.illegal 0x32) idle) (·.err), field (exec .startScan faulted) (·.err),
      field (exec (.chainAdvance true) finished) (·.err)] = [some 0x01, some 0x42, some 0x04]) ∧
      idle.err = 0 ∧ faulted.err = 0x40 ∧ finished.err = 0 := by decide +kernel

theorem witness_FaultClearReturnsToIdle : faulted.state = .fault ∧ idle.state ≠ .fault := by decide

theorem witness_AdcRequestSendsOneByte :
    idle.state = .idle ∧ finished.state = .done ∧ waiting.state = .scanning ∧ faulted.state = .fault := by decide

theorem witness_AdcReadFillsItsHalf :
    idle.state = .idle ∧ (0 < small.channels) ∧
      (0 < 2 * small.channels ∧ 0 < ((PerAdc.get ⟨[[0x12, 0x34]], []⟩ .a).headD ([] : List Byte)).length) := by decide

/-- Each device on its own link, and both on the shared one. -/
theorem witness_WireRowsMakeOneTransaction :
    idle.config.wiring = false ∧ idle.lane .b = .own .b ∧
      ({ idle with config := ⟨true, true, true, false⟩ } : State).config.wiring = true ∧
      ({ idle with config := ⟨true, true, true, false⟩ } : State).lane .b = .shared := by decide

theorem witness_HandshakeStartBegins :
    idle.hsState = .idle ∧ ({ idle with hsState := .wait } : State).hsState ≠ .idle := by decide

theorem witness_IssueRequestsBothAdcs :
    (issuing.state = .scanning ∧ issuing.phase = .issue) ∧ ¬ (waiting.state = .scanning ∧ waiting.phase = .issue) := by
  decide

/-- `waiting` with A complete, with both complete, and with B complete alone. -/
theorem witness_ServiceReadsAndJoins :
    (({ waiting with edge := ⟨true, true⟩ } : State).cond .a = true) ∧
      (({ waiting with edge := ⟨false, true⟩ } : State).cond .b = true ∧
        ({ waiting with edge := ⟨false, true⟩ } : State).cond .a = false) ∧
      (waiting.state = .scanning ∧ waiting.phase = .wait ∧ waiting.cond .a = false) ∧
      waiting.config.eocMode = true ∧
      ({ waiting with config := ⟨true, false, false, false⟩ } : State).config.eocMode = false := by decide

theorem witness_HandoffWritesFrameRow :
    (handing.state = .scanning ∧ handing.phase = .handoff ∧ handing.config.mode = false) ∧
      handing.col ≠ handing.params.lastCol ∧ ({ handing with col := 1 } : State).col = handing.params.lastCol := by
  decide

/-- `handing` in QUEUE mode with an empty queue, at the first and the last column. -/
theorem witness_HandoffPushesRowCopy :
    (handing.state = .scanning ∧ handing.phase = .handoff ∧
      ({ handing with config := ⟨true, true, false, false⟩ } : State).config.mode = true ∧
      handing.q.length < handing.params.qCap) ∧
      handing.col ≠ handing.params.lastCol ∧ ({ handing with col := 1 } : State).col = handing.params.lastCol := by
  decide

/-- A full queue of the small geometry: four rows. -/
def full : State :=
  { handing with
    config := ⟨true, true, false, false⟩
    q := [⟨[0, 0], 0⟩, ⟨[0, 0], 0x101⟩, ⟨[0, 0], 0⟩, ⟨[0, 0], 0x101⟩] }

theorem witness_FullQueueStallsHandoff :
    full.state = .scanning ∧ full.phase = .handoff ∧ full.config.mode = true ∧ full.q.length = full.params.qCap := by
  decide

/-- A tick that does not count, one that counts, and ones at which A, B and both time out. -/
theorem witness_TickCountsAndFaults :
    ¬ (issuing.state = .scanning ∧ issuing.phase = .wait) ∧
      (waiting.state = .scanning ∧ waiting.phase = .wait) ∧
      (waiting.tickTimesOut .a = false ∧ waiting.tickTimesOut .b = false) ∧
      (({ waiting with cnt := ⟨2, 0⟩ } : State).tickTimesOut .a = true) ∧
      (({ waiting with cnt := ⟨0, 2⟩ } : State).tickTimesOut .b = true ∧
        ({ waiting with cnt := ⟨0, 2⟩ } : State).tickTimesOut .a = false) ∧
      (({ waiting with timeout := 1 } : State).tickTimesOut .a = true ∧
        ({ waiting with timeout := 1 } : State).tickTimesOut .b = true) ∧
      ({ waiting with timeout := 0, cnt := ⟨9, 9⟩ } : State).tickTimesOut .a = false := by decide +kernel

/-- A scan in FAULT with a row still queued; a word the table accepts there and one it does not. -/
theorem witness_FaultHoldsTheScan :
    (faulted.state = .fault ∧ ({ faulted with q := [⟨[0, 0], 0⟩] } : State).q = [⟨[0, 0], 0⟩]) ∧
      (isCommandWord 0x50 = true ∧ accepted (decodeCmd 0x50) faulted = true) ∧
      (isCommandWord 0x40 = true ∧ accepted (decodeCmd 0x40) faulted = false) := by decide

/-- `s` moves to the state it steps to, which has the STATE and PHASE given. -/
def movesTo (s : State) (st : ScanState) (ph : Phase) : Prop :=
  s.linkPort = none ∧ field (step s) (fun t => (t.state, t.phase)) = some (st, ph)

/-- One step for each row of the transition table. -/
theorem witness_ScanTransitionsFollowTable :
    movesTo (writing idle 0x40) .scanning .issue ∧
      movesTo { issuing with turns := [.seq .issue] } .scanning .wait ∧
      movesTo { waiting with turns := [.seq (.service .a)], pend := ⟨true, false⟩, edge := ⟨true, false⟩ }
        .scanning .handoff ∧
      movesTo { waiting with turns := [.tick], cnt := ⟨2, 2⟩ } .fault .issue ∧
      movesTo { handing with turns := [.seq .handoff] } .scanning .issue ∧
      movesTo { handing with turns := [.seq .handoff], col := 1 } .done .issue ∧
      movesTo (writing faulted 0x50) .idle .issue ∧
      movesTo { waiting with turns := [.reset] } .idle .issue := by unfold movesTo; decide +kernel

/-- A step that keeps the bits, a write of ERR that clears one, and RESET. -/
theorem witness_ErrorBitsAreSticky :
    faulted.linkPort = none ∧
      field (step { faulted with turns := [.tick] }) (·.err) = some 0x40 ∧
      field (step { faulted with turns := [.access .ctrl ⟨0x008, 4, .write 0xFF⟩] }) (·.err) = some 0 ∧
      field (step { faulted with turns := [.reset] }) (·.err) = some 0 := by decide +kernel

theorem witness_OneConfigurationPerScan :
    waiting.linkPort = none ∧ waiting.state = .scanning ∧
      field (step { waiting with turns := [.access .ctrl ⟨0x00C, 4, .write 0⟩] }) (fun t => (t.config, t.err)) =
        some (waiting.config, 0x02) ∧
      ({ waiting with turns := [.access .ctrl ⟨0x00C, 4, .write 0⟩] } : State).nextTurn.1 ≠ .reset := by decide +kernel

/-- A read of STATUS is an access that runs no command. -/
theorem witness_BusNeverWritesScanState :
    ({ waiting with turns := [.access .cons ⟨0x004, 4, .read⟩] } : State).nextAccess.isSome = true ∧
      ({ waiting with turns := [.access .cons ⟨0x004, 4, .read⟩] } : State).nextCommand = none ∧
      (next? (step { waiting with turns := [.access .cons ⟨0x004, 4, .read⟩] })).isSome = true ∧
      waiting.linkPort = none := by decide +kernel

theorem witness_QtagReadPopsHead : full.q = ⟨[0, 0], 0⟩ :: full.q.tail := by decide

theorem witness_EmptyChannelsStallReads :
    ((retrying idle ⟨0x040, 4, .read⟩).linkPort = none ∧
      ((retrying idle ⟨0x040, 4, .read⟩).master .ctrl).waiting = [⟨0x040, 4, .read⟩] ∧
      (retrying idle ⟨0x040, 4, .read⟩).turns = [.retry .ctrl] ∧ (retrying idle ⟨0x040, 4, .read⟩).q = []) ∧
    (((retrying idle ⟨0x038, 4, .read⟩).master .ctrl).waiting = [⟨0x038, 4, .read⟩] ∧
      (retrying idle ⟨0x038, 4, .read⟩).mbTx.valid = false) := by decide

/-- A push, a pop, RESET, and a step that leaves the queue. -/
theorem witness_QueueIsFifo :
    full.linkPort = none ∧
      field (step { full with q := [], turns := [.seq .handoff] }) (·.q) = some [⟨[0xA5, 0x3C], 0⟩] ∧
      field (step { full with turns := [.access .cons ⟨0x040, 4, .read⟩] }) (·.q) = some full.q.tail ∧
      field (step { full with turns := [.reset] }) (·.q) = some [] ∧
      field (step { full with turns := [.tick] }) (·.q) = some full.q := by decide +kernel

theorem witness_MailboxTakesAndDrops :
    ({ idle with mbTx := ⟨true, 7⟩ } : State).mbTx.valid = true ∧
      (({ idle with hsState := .wait } : State).hsState = .wait ∧ idle.mbRx.valid = false) ∧
      idle.hsState ≠ .wait ∧ ({ idle with hsState := .wait, mbRx := ⟨true, 5⟩ } : State).mbRx.valid = true := by decide

/-- A handshake at each of its words, sending and checking, and one that is done (HS_IDX = 3). -/
theorem witness_HandshakeSendsAndChecks :
    ([0, 1, 2].map fun i : BitVec 2 => decide (i.toNat < 3)) = [true, true, true] ∧
      (({ idle with hsState := .send } : State).hsState = .send ∧ idle.mbTx.valid = false) ∧
      ¬ (idle.hsState = .send ∧ idle.mbTx.valid = false) ∧
      (({ idle with hsState := .wait, hsIdx := 2, hsEntry := 9, mbRx := ⟨true, 9⟩ } : State).mbRx.data =
        [idle.hsVec, idle.hsSp, 9].getD (2 : BitVec 2).toNat 0) ∧
      (({ idle with hsState := .wait, hsVec := 8, mbRx := ⟨true, 9⟩ } : State).mbRx.data ≠
        [8, idle.hsSp, idle.hsEntry].getD (0 : BitVec 2).toNat 0) ∧
      ¬ (idle.hsState = .wait ∧ idle.mbRx.valid = true) ∧
      (({ idle with hsState := .done, hsIdx := 3 } : State).hsState ≠ .send ∧
        ({ idle with hsState := .done, hsIdx := 3 } : State).hsState ≠ .wait) := by decide

/-- The three ways the index moves, and HS_DONE entered and kept. -/
theorem witness_HandshakeAdvancesOnlyOnEcho :
    idle.linkPort = none ∧
      field (step { idle with turns := [.seq .hsCheck], hsState := .wait, hsIdx := 2, hsEntry := 9, mbRx := ⟨true, 9⟩ })
        (fun t => (t.hsIdx, t.hsState)) = some (3, .done) ∧
      field (step { writing idle 0x80 with hsIdx := 1 }) (fun t => (t.hsIdx, t.hsState)) = some (0, .send) ∧
      field (step { idle with turns := [.reset], hsState := .done, hsIdx := 3 }) (fun t => (t.hsIdx, t.hsState)) =
        some (0, .idle) ∧
      field (step { idle with turns := [.tick], hsState := .done, hsIdx := 3 }) (·.hsState) = some .done := by
  decide +kernel

theorem witness_HandshakeWordsStayFixed :
    ({ idle with hsState := .send } : State).hsState = .send ∧ idle.linkPort = none ∧
      field (step { idle with hsState := .wait, hsSp := 4, turns := [.access .ctrl ⟨0x02C, 4, .write 5⟩] })
        (fun t => (t.hsSp, t.err)) = some (4, 0x02) ∧
      ({ idle with turns := [.access .ctrl ⟨0x02C, 4, .write 5⟩] } : State).nextTurn.1 ≠ .reset := by decide +kernel

/-- An 8-bit access, a misaligned one, an unmapped one, and a write to STATUS; 0x040 and 0x080 are mapped. -/
theorem witness_BadAccessesOnlySetTheirBit :
    (⟨0x000, 1, .read⟩ : BusAccess).bytes ≠ 4 ∧ (⟨0x002, 4, .read⟩ : BusAccess).off.toNat % 4 ≠ 0 ∧
      regAt small 0x044 = none ∧ regAt small 0x084 = none ∧ regAt small 0x080 = some (.rowbuf 0) ∧
      regAt small 0x040 = some .qtag ∧ BusAccess.target small ⟨0x004, 4, .write 0⟩ = some .status := by decide +kernel

/-- The first and the last word of each window of the small geometry, and the words beside them. -/
theorem witness_RegisterMapIsTheTable :
    4 * 0 < small.rowWidth ∧ 4 * 0 < small.frameBytes ∧
      [0x07C, 0x080, 0x084, 0x0BC, 0x0C0, 0x0C4, 0x0FFC, 0x1000, 0x1004].map (fun off => (regAt small off).isSome) =
        [false, true, false, false, true, false, false, true, false] ∧
      [0x000, 0x03C, 0x040, 0x044].map (fun off => (regAt small off).isSome) = [true, true, true, false] := by
  decide +kernel

theorem witness_PlainReadsChangeNothing :
    BusAccess.target idle.params ⟨0x000, 4, .read⟩ = some .cmd ∧
      BusAccess.target idle.params ⟨0x03C, 4, .read⟩ = some .mbRx ∧
      BusAccess.target idle.params ⟨0x014, 4, .read⟩ = some .col := by decide +kernel

theorem witness_RegistersReadTheirFields : idle.q.length ≤ idle.params.qCap ∧ full.q.length ≤ full.params.qCap := by
  decide

theorem witness_WindowsPackLittleEndian : 0 < 4 ∧ 3 < 4 ∧ 4 * 0 + 1 < small.rowWidth ∧ ¬ 4 * 0 + 2 < small.rowWidth := by
  decide

theorem witness_RegisterWritesObeyTheirGuards :
    idle.state ≠ .scanning ∧ waiting.state = .scanning ∧ idle.hsState = .idle ∧
      ({ idle with hsState := .done } : State).hsState = .done ∧ ({ idle with hsState := .send } : State).hsState = .send ∧
      ({ idle with hsState := .wait } : State).hsState = .wait := by decide

/-- A scan in WAIT with both ADCs pending meets the invariant. -/
theorem waiting_inv : waiting.Inv where
  cursor := by unfold State.CursorOk; decide
  pend := ⟨by decide, fun d => by cases d <;> decide⟩
  timeout := fun _ d => by cases d <;> decide
  chain := ⟨.inr ⟨0, by decide, by decide⟩, fun _ => by decide⟩
  fault := ⟨fun _ => rfl, fun h => absurd h (by decide)⟩
  handshake := by unfold State.HandshakeOk; decide
  queue := ⟨by decide, fun e h => absurd h (by simp [waiting, issuing, idle, ready, State.reset])⟩
  stores := by
    refine ⟨⟨rfl, rfl, rfl⟩, ?_, ?_, ?_⟩ <;> exact Memory.below_nil _
  select := ⟨rfl, rfl⟩

/-- The history of `waiting`: the seed and the two requests of column 0. -/
theorem waiting_joinOrder : waiting.JoinOrder := fun _ =>
  ⟨[], [], [requestEvent small .a [0x11], requestEvent small .b [0x22]], by decide, by decide,
    fun c h => absurd h (by simp), [0x11], [0x22], [], rfl, rfl⟩

theorem witness_StepKeepsTheInvariant :
    waiting.Inv ∧ (next? (step { waiting with turns := [.tick] })).isSome = true :=
  ⟨waiting_inv, by decide +kernel⟩

theorem witness_HistoryKeepsJoinOrder :
    waiting.linkPort = none ∧ waiting.Inv ∧ waiting.JoinOrder ∧
      (next? (step { waiting with turns := [.seq .issue] })).isSome = true :=
  ⟨rfl, waiting_inv, waiting_joinOrder, by decide +kernel⟩

/-- `waiting` after the read of A. -/
def halfRead : State :=
  { waiting with
    pend := ⟨false, true⟩
    rowbuf := [(0, 0x1B)]
    hist := waiting.hist ++ [.xfer .a [0, 0] [0x01, 0xB0]] }

/-- The half of A holds its sample, and a step from there exists. -/
theorem witness_RowsHoldOneColumn :
    halfRead.linkPort = none ∧ halfRead.RowOk ∧ halfRead.state = .scanning ∧ halfRead.phase ≠ .issue ∧
      halfRead.pend.get .a = false ∧ (next? (step { halfRead with turns := [.tick] })).isSome = true := by
  refine ⟨rfl, fun _ _ d h => ?_, rfl, by decide, rfl, by decide +kernel⟩
  cases d with
  | a =>
    refine ⟨waiting.hist, [0x01, 0xB0], [], rfl, by simp, fun j hj => ?_⟩
    have h0 : j = 0 := by
      have : halfRead.params.channels = 1 := rfl
      omega
    subst h0
    decide +kernel
  | b => cases h

/-- Every event of `waiting` is legal, and a step from it exists. -/
theorem witness_LinkCarriesThreeTransactions :
    waiting.linkPort = none ∧ (∀ e ∈ waiting.hist, e.Legal waiting.params) ∧
      (next? (step { waiting with turns := [.tick] })).isSome = true := by
  refine ⟨rfl, ?_, by decide +kernel⟩
  have h : waiting.hist = [.clr, .shift true, .xfer .a [0x80] [0x11], .xfer .b [0x80] [0x22]] := rfl
  have hr : reqByte waiting.params.channels = 0x80 := by decide
  rw [h]
  intro e he
  simp only [List.mem_cons, List.not_mem_nil, or_false] at he
  rcases he with rfl | rfl | rfl | rfl
  · trivial
  · trivial
  · exact ⟨.inr (.inl (by rw [hr])), rfl⟩
  · exact ⟨.inr (.inl (by rw [hr])), rfl⟩

/-- The run from `s` under the turns `u`. -/
def runUnder (s : State) (u : Nat → Turn) : Nat → State
  | 0 => s
  | n + 1 => (turn (runUnder s u n) (u n)).getD (runUnder s u n)

/-- It is a run, since every turn completes. -/
theorem runUnder_isRun (s : State) (u : Nat → Turn) : IsRun (runUnder s u) u := by
  intro n
  obtain ⟨t, h⟩ := takeTurn_completes (runUnder s u n) (u n)
  show _ = Host.Outcome.next ((turn (runUnder s u n) (u n)).getD _)
  unfold turn
  rw [h]
  rfl

/-- A run that from step `n` on only ticks, in a state that neither a tick nor a SEQ step changes, stays there. -/
theorem runUnder_stays {s : State} {u : Nat → Turn} {n : Nat} (hu : ∀ m, n ≤ m → u m = .tick)
    (ht : (runUnder s u n).tick = runUnder s u n) (m : Nat) (hm : n ≤ m) : runUnder s u m = runUnder s u n := by
  induction m, hm using Nat.le_induction with
  | base => rfl
  | succ m hm ih =>
    show (turn (runUnder s u m) (u m)).getD (runUnder s u m) = _
    rw [hu m hm, ih]
    exact ht

/-- Such a run is fair. -/
theorem runUnder_fair {s : State} {u : Nat → Turn} {n : Nat} (hu : ∀ m, n ≤ m → u m = .tick)
    (ht : (runUnder s u n).tick = runUnder s u n) (hk : ∀ k, ¬ (runUnder s u n).Enabled k) :
    WeaklyFair (runUnder s u) u := by
  refine ⟨fun k m h => ?_, fun m => ⟨max n m, Nat.le_max_right n m, hu _ (Nat.le_max_left n m)⟩⟩
  have := h (max n m) (Nat.le_max_right n m)
  rw [runUnder_stays hu ht _ (Nat.le_max_left n m)] at this
  exact absurd this (hk k)

/-- Outside a scan and a handshake no SEQ step is enabled and a tick changes nothing. -/
theorem quiet_of_idle {s : State} (hs : s.state ≠ .scanning) (hh : s.hsState = .idle) :
    s.tick = s ∧ ∀ k, ¬ s.Enabled k := by
  refine ⟨if_neg fun h => hs h.1, fun k => ?_⟩
  cases k with
  | service d => simp [State.Enabled, State.seqStep, State.service, State.serviceReady, hs]
  | _ => simp [State.Enabled, State.seqStep, State.issue, State.handoff, State.handoffReady, State.hsSend, State.hsCheck, hs, hh]

/-- The scan of one column before its ISSUE, in EDGE or in LEVEL mode. -/
def oneColumn (edge : Bool) (timeout : Word) : State :=
  { issuing with params := { small with lastCol := 0 }, config := ⟨true, edge, false, false⟩, timeout := timeout }

/-- The requests, two ticks, both answers, both reads, the hand-off, and then ticks. -/
def answering (n : Nat) : Turn :=
  ([.seq .issue, .tick, .tick, .eocDrive .a false, .eocDrive .b false, .seq (.service .a), .seq (.service .b),
    .seq .handoff] : List Turn).getD n .tick

/-- The run of that scan under those turns. -/
def answerRun (edge : Bool) (timeout : Word) : Nat → State := runUnder (oneColumn edge timeout) answering

theorem answering_ticks (m : Nat) (h : 8 ≤ m) : answering m = .tick := by
  unfold answering
  rw [List.getD_eq_default _ _ (by simpa using h)]

theorem oneColumn_inv (edge : Bool) (timeout : Word) (ht : timeout = 0 ∨ timeout = 1 ∨ timeout = 3) :
    (oneColumn edge timeout).Inv where
  cursor := ⟨fun h => absurd rfl h, Nat.le_refl 0, nofun, nofun⟩
  pend := ⟨⟨nofun, nofun⟩, fun d => by cases d <;> exact ⟨fun _ => ⟨rfl, rfl⟩, nofun⟩⟩
  timeout := by rcases ht with rfl | rfl | rfl <;> cases edge <;> exact fun h d => by cases d <;> revert h <;> decide
  chain := ⟨.inr ⟨0, Nat.zero_lt_one, rfl⟩, fun _ => rfl⟩
  fault := ⟨fun _ => rfl, nofun⟩
  handshake := ⟨fun _ => rfl, nofun, nofun, nofun⟩
  queue := ⟨Nat.zero_le _, nofun⟩
  stores := by
    refine ⟨⟨rfl, rfl, rfl⟩, ?_, ?_, ?_⟩ <;> exact Memory.below_nil _
  select := ⟨rfl, rfl⟩

/-- With TIMEOUT 0, 1 or 3 that is a fair run in which each ADC answers; with 0 and 3 in time, and with 1 the first tick
comes before. -/
theorem answerRun_fair (edge : Bool) (timeout : Word) (ht : timeout = 0 ∨ timeout = 1 ∨ timeout = 3) :
    FairScan (answerRun edge timeout) answering ∧ (answerRun edge timeout 0).phase = .issue ∧
      QueuePopped (answerRun edge timeout) ∧ AdcsAnswer (answerRun edge timeout) answering ∧
      (timeout ≠ 1 → AdcsAnswerInTime (answerRun edge timeout) answering) ∧
      ∀ n, 8 ≤ n → answerRun edge timeout n = answerRun edge timeout 8 := by
  have h8 : ((answerRun edge timeout 8).state ≠ .scanning ∧ (answerRun edge timeout 8).hsState = .idle) ∧
      (answerRun edge timeout 8).eoc = ⟨false, false⟩ := by
    rcases ht with rfl | rfl | rfl <;> cases edge <;> decide +kernel
  have hq := quiet_of_idle h8.1.1 h8.1.2
  have hst : ∀ n, 8 ≤ n → answerRun edge timeout n = answerRun edge timeout 8 := runUnder_stays answering_ticks hq.1
  have upTo8 : ∀ {P : Nat → Prop}, (∀ n, n < 8 → P n) → (∀ n, 8 ≤ n → P n) → ∀ n, P n := fun h1 h2 n =>
    (Nat.lt_or_ge n 8).elim (h1 n) (h2 n)
  have heoc : ∀ k, 4 ≤ k → (answerRun edge timeout k).eoc.a = false ∧
      (5 ≤ k → (answerRun edge timeout k).eoc.b = false) := by
    refine upTo8 ?_ fun k hk => ?_
    · rcases ht with rfl | rfl | rfl <;> cases edge <;> decide +kernel
    · intro _
      rw [hst k hk, h8.2]
      exact ⟨rfl, fun _ => rfl⟩
  have hhigh : (answerRun edge timeout 3).eoc.a = true ∧ (answerRun edge timeout 4).eoc.b = true := by
    rcases ht with rfl | rfl | rfl <;> cases edge <;> decide +kernel
  have hissue : ∀ n, answering n = .seq .issue → n = 0 :=
    upTo8 (by decide) fun n hn h => by rw [answering_ticks n hn] at h; cases h
  have hans : ∀ n d, answering n = .seq .issue →
      ∃ m, AnswersAt (answerRun edge timeout) answering n d m ∧ ticksBetween answering n m = 2 := by
    intro n d hu
    have hn := hissue n hu
    subst hn
    cases d with
    | a => exact ⟨3, ⟨by decide, rfl, fun _ => hhigh.1, fun _ k hk _ => (heoc k (by omega)).1⟩, by decide⟩
    | b => exact ⟨4, ⟨by decide, rfl, fun _ => hhigh.2, fun _ k hk _ => (heoc k (by omega)).2 (by omega)⟩, by decide⟩
  refine ⟨⟨runUnder_isRun _ _, runUnder_fair answering_ticks hq.1 hq.2, oneColumn_inv edge timeout ht, rfl, ?_⟩, rfl,
    fun n h => ?_, fun n d hu _ => (hans n d hu).imp fun _ h => h.1, fun h1 n d hu _ => ?_, hst⟩
  · exact upTo8 (by decide) fun n hn => by rw [answering_ticks n hn]; decide
  · refine absurd h ?_
    revert n
    refine upTo8 ?_ fun n hn => ?_
    · rcases ht with rfl | rfl | rfl <;> cases edge <;> decide +kernel
    · rw [hst n hn]
      simp [State.handoffStall, h8.1.1]
  · obtain ⟨m, hm, hc⟩ := hans n d hu
    refine ⟨m, hm, fun h0 => ?_⟩
    rw [hc]
    rw [hissue n hu] at h0 ⊢
    rcases ht with rfl | rfl | rfl
    · exact absurd rfl h0
    · exact absurd rfl h1
    · show 2 < (3 : Word).toNat
      decide

/-- With TIMEOUT 0 or 3 each ADC answers while the scan waits for it, and its line then holds. -/
theorem answerRun_awaited (edge : Bool) (timeout : Word) (ht : timeout = 0 ∨ timeout = 3) :
    AdcsAnswerAwaited (answerRun edge timeout) answering ∧ ReadyLinesHold (answerRun edge timeout) := by
  have hst := (answerRun_fair edge timeout (ht.imp_right .inr)).2.2.2.2.2
  have upTo8 : ∀ {P : Nat → Prop}, (∀ n, n < 8 → P n) → (∀ n, 8 ≤ n → P n) → ∀ n, P n := fun h1 h2 n =>
    (Nat.lt_or_ge n 8).elim (h1 n) (h2 n)
  have hissue : ∀ n, answering n = .seq .issue → n = 0 :=
    upTo8 (by decide) fun n hn h => by rw [answering_ticks n hn] at h; cases h
  have hpend : (∀ j, j < 4 → 0 < j → (answerRun edge timeout j).pend.a = true) ∧
      ∀ j, j < 5 → 0 < j → (answerRun edge timeout j).pend.b = true := by
    rcases ht with rfl | rfl <;> cases edge <;> decide +kernel
  have hhigh : (answerRun edge timeout 3).eoc.a = true ∧ (answerRun edge timeout 4).eoc.b = true := by
    rcases ht with rfl | rfl <;> cases edge <;> decide +kernel
  have hlow : ∀ n, n < 9 → (4 ≤ n → (answerRun edge timeout n).eoc.a = false) ∧
      (n < 4 → (answerRun edge timeout n).eoc.a = true) ∧ (5 ≤ n → (answerRun edge timeout n).eoc.b = false) ∧
      (n < 5 → (answerRun edge timeout n).eoc.b = true) := by
    rcases ht with rfl | rfl <;> cases edge <;> decide +kernel
  refine ⟨fun n d hu _ => ?_, fun n d _ he _ => ?_⟩
  · have hn := hissue n hu
    subst hn
    cases d with
    | a => exact ⟨3, by decide, rfl, fun _ => hhigh.1, fun j h1 h2 => hpend.1 j (by omega) h1⟩
    | b => exact ⟨4, by decide, rfl, fun _ => hhigh.2, fun j h1 h2 => hpend.2 j (by omega) h1⟩
  · rcases Nat.lt_or_ge n 8 with hn | hn
    · cases d with
      | a =>
        refine (hlow (n + 1) (by omega)).1 ?_
        by_contra h4
        have := (hlow n (by omega)).2.1 (by omega)
        exact absurd (this.symm.trans he) (by decide)
      | b =>
        refine (hlow (n + 1) (by omega)).2.2.1 ?_
        by_contra h5
        have := (hlow n (by omega)).2.2.2 (by omega)
        exact absurd (this.symm.trans he) (by decide)
    · rw [hst n hn] at he
      rw [hst (n + 1) (by omega)]
      exact he

/-- A scan with its fixed schedule; and fair runs, in either EOC mode, whose ADCs answer: in time at the last tick but one
before the timeout, without a timeout, both to a scan that waits, and too late. -/
theorem witness_ScanReachesDone (edge : Bool) :
    (({ issuing with turns := (List.replicate 2 columnTurns).flatten ++ [] } : State).linkPort = none ∧
      issuing.state = .scanning ∧ issuing.phase = .issue ∧ issuing.col.toNat + 2 = issuing.params.colHeight ∧ 0 < 2 ∧
      (issuing.config.mode = true ∧ issuing.q.length + 2 ≤ issuing.params.qCap)) ∧
    (∀ t : Word, t = 0 ∨ t = 1 ∨ t = 3 → FairScan (answerRun edge t) answering ∧ (answerRun edge t 0).phase = .issue ∧
      QueuePopped (answerRun edge t) ∧ AdcsAnswer (answerRun edge t) answering) ∧
    (∀ t : Word, t = 0 ∨ t = 3 → AdcsAnswerAwaited (answerRun edge t) answering ∧
      (answerRun edge t 0).config.eocMode = edge ∧ ReadyLinesHold (answerRun edge t)) ∧
    ((answerRun edge 3 0).timeout = 3 ∧ AdcsAnswerInTime (answerRun edge 3) answering) ∧
    (answerRun edge 0 0).timeout = 0 := by
  refine ⟨by decide, fun t ht => ?_, fun t ht => ?_, ⟨rfl, ?_⟩, rfl⟩
  · obtain ⟨h1, h2, h3, h4, -, -⟩ := answerRun_fair edge t ht
    exact ⟨h1, h2, h3, h4⟩
  · exact ⟨(answerRun_awaited edge t ht).1, rfl, (answerRun_awaited edge t ht).2⟩
  · exact (answerRun_fair edge 3 (.inr (.inr rfl))).2.2.2.2.1 (by decide)

/-- A line driven low after its ADC timed out answers nobody: with TIMEOUT = 1 the tick before the answers faults this fair run, and
it never reaches DONE (R209, R306, R15; log 20). -/
theorem test_late_answer_run (edge : Bool) :
    FairScan (answerRun edge 1) answering ∧ (answerRun edge 1 0).phase = .issue ∧ QueuePopped (answerRun edge 1) ∧
      AdcsAnswer (answerRun edge 1) answering ∧ ∀ n, (answerRun edge 1 n).state ≠ .done := by
  obtain ⟨h1, h2, h3, h4, -, h6⟩ := answerRun_fair edge 1 (.inr (.inl rfl))
  refine ⟨h1, h2, h3, h4, fun n => ?_⟩
  rcases Nat.lt_or_ge n 8 with hn | hn
  · have h : ∀ n, n < 8 → (answerRun edge 1 n).state ≠ .done := by cases edge <;> decide +kernel
    exact h n hn
  · rw [h6 n hn]
    cases edge <;> decide +kernel

/-- A scan whose first tick times out, in EDGE or in LEVEL mode. -/
def lastTick (edge : Bool) : State := { waiting with timeout := 1, config := ⟨true, edge, false, false⟩ }

/-- The run that only ticks: it faults at once and then stays. In LEVEL mode its lines settle, since they never change,
and it is fair in every sense, since no SEQ step is enabled again and again or at every tick. -/
theorem witness_FairScanEnds (edge : Bool) :
    FairScan (runUnder (lastTick edge) fun _ => .tick) (fun _ => .tick) ∧ (lastTick edge).timeout ≠ 0 ∧
      (lastTick edge).config.eocMode = edge ∧ LinesSettle (runUnder (lastTick edge) fun _ => .tick) ∧
      StronglyFair (runUnder (lastTick edge) fun _ => .tick) (fun _ => .tick) ∧
      FairAtTicks (runUnder (lastTick edge) fun _ => .tick) (fun _ => .tick) := by
  have h1 : ((runUnder (lastTick edge) (fun _ => .tick) 1).state, (runUnder (lastTick edge) (fun _ => .tick) 1).hsState) =
      (.fault, .idle) := by cases edge <;> decide +kernel
  simp only [Prod.mk.injEq] at h1
  have hq := quiet_of_idle (s := runUnder (lastTick edge) (fun _ => .tick) 1) (by rw [h1.1]; decide) h1.2
  have hst := runUnder_stays (fun _ _ => rfl) hq.1
  refine ⟨⟨runUnder_isRun _ _, runUnder_fair (fun _ _ => rfl) hq.1 hq.2, ?_, rfl, fun _ h => Turn.noConfusion h⟩,
    by cases edge <;> decide, rfl, fun n d => ⟨n + 1, by omega, fun k hk _ => ?_⟩, fun k n h => ?_,
    fun k n h => ?_⟩
  · obtain ⟨h1, h2, -, h4, h5, h6, h7, h8, h9⟩ := waiting_inv
    exact ⟨h1, ⟨h2.1, fun d => by cases edge <;> cases d <;> decide⟩, fun _ d => by cases edge <;> cases d <;> decide, h4, h5, h6, h7, h8, h9⟩
  · rw [hst k (by omega), hst (n + 1) (by omega)]
  · obtain ⟨j, hj, he⟩ := h (n + 1) (by omega)
    rw [hst j (by omega)] at he
    exact absurd he (hq.2 k)
  · have he := h (n + 1) (by omega) rfl
    rw [hst (n + 1) (by omega)] at he
    exact absurd he (hq.2 k)

/-- LEVEL mode with both lines up and down for ever, and ticks only while both are low: a fair run in which a timeout is
set and neither ADC is ever counted or served (log 20). -/
def togglingTurn (n : Nat) : Turn :=
  ([.eocDrive .a false, .eocDrive .b false, .tick, .eocDrive .a true, .eocDrive .b true] : List Turn).getD (n % 5) .tick

/-- The states of that run. -/
def toggling (n : Nat) : State :=
  { waiting with
    config := ⟨true, false, false, false⟩
    eoc := ⟨[true, false, false, false, true].getD (n % 5) true, [true, true, false, false, false].getD (n % 5) true⟩ }

/-- Both lines of that run toggle for ever. -/
theorem toggling_toggles (d : Dev) : TogglesForEver toggling d := by
  refine ⟨0, fun m _ => ⟨rfl, by cases d <;> rfl, ⟨5 * m + 2, by omega, ?_⟩, 5 * m, by omega, ?_⟩⟩
  · unfold toggling
    rw [show (5 * m + 2) % 5 = 2 by omega]
    cases d <;> rfl
  · unfold toggling
    rw [Nat.mul_mod_right]
    cases d <;> rfl

/-- Why FairScanEnds measures "stays enabled" in ticks (R12): this run takes every step that is enabled at every single
step, and scans for ever with its queue empty, SERVICE(A) being enabled at every tick and never taken. -/
theorem test_level_toggling_run :
    FairScan toggling togglingTurn ∧ (toggling 0).timeout ≠ 0 ∧ (toggling 0).config.eocMode = false ∧
      (∀ n, (toggling n).state = .scanning) ∧ ∀ n, (toggling n).handoffStall = false := by
  have five : ∀ {P : Nat → Prop}, (∀ i, i < 5 → P i) → ∀ n, P (n % 5) := fun h n => h _ (Nat.mod_lt _ (by decide))
  refine ⟨⟨fun n => ?_, ⟨fun k n h => ?_, fun n => ⟨5 * n + 2, by omega, ?_⟩⟩, ?_, rfl, fun n => ?_⟩, by decide, rfl,
    fun _ => rfl, fun _ => rfl⟩
  · have hn : (n + 1) % 5 = (n % 5 + 1) % 5 := by omega
    unfold toggling togglingTurn
    rw [hn]
    have hlt : n % 5 < 5 := Nat.mod_lt _ (by decide)
    generalize n % 5 = i at hlt
    match i, hlt with
    | 0, _ => rfl
    | 1, _ => rfl
    | 2, _ => rfl
    | 3, _ => rfl
    | 4, _ => rfl
  · have h0 := h (5 * n) (by omega)
    have : toggling (5 * n) = toggling 0 := by unfold toggling; rw [Nat.mul_mod_right]
    rw [this] at h0
    cases k with
    | service d => cases d <;> exact absurd h0 (by unfold State.Enabled; decide +kernel)
    | _ => exact absurd h0 (by unfold State.Enabled; decide +kernel)
  · unfold togglingTurn
    rw [show (5 * n + 2) % 5 = 2 by omega]
    rfl
  · obtain ⟨h1, h2, h3, h4, h5, h6, h7, h8, h9⟩ := waiting_inv
    exact ⟨h1, ⟨h2.1, fun d => by cases d <;> decide⟩, h3, h4, h5, h6, h7, h8, h9⟩
  · unfold togglingTurn
    exact five (P := fun i => ([.eocDrive .a false, .eocDrive .b false, .tick, .eocDrive .a true, .eocDrive .b true] : List Turn).getD i .tick ≠ .reset)
      (by decide) n

end Sys2Proof.Tests
end

/-! The statements of 00_scope.md: the request byte, no step stops the machine, command errors are precise. -/

namespace Sys2Proof.Machine

/-! ## The request byte (R115, R141) -/

/-- `ReqByte` of a channel count whose last index is CCCC is the byte `1CCCC000`. -/
theorem reqByte_succ_toNat (cccc : BitVec 4) : reqByte (cccc.toNat + 1) = convByte cccc := by
  revert cccc
  decide

theorem reqByte_channels (p : Params) : reqByte p.channels = convByte p.lastChan := reqByte_succ_toNat p.lastChan

/-- CHANNELS_PER_ADC is in the range of R7 in every build. -/
theorem channels_range (p : Params) : 1 ≤ p.channels ∧ p.channels ≤ 16 := by
  have := p.lastChan.isLt
  unfold Params.channels
  omega

theorem convByte_top (cccc : BitVec 4) : (convByte cccc).getLsbD 7 = true := by
  rw [convByte, getLsbD_append_high _ _ (by decide), getLsbD_append_high _ _ (by decide)]
  rfl

theorem convByte_channelField (cccc : BitVec 4) : (convByte cccc).extractLsb' 3 4 = cccc := by
  rw [convByte, extract_append_high _ _ (by decide), extract_append_low _ _ (by decide), extract_all]

theorem convByte_lowBits (cccc : BitVec 4) : (convByte cccc).extractLsb' 0 3 = 0 := by
  rw [convByte, extract_append_low _ _ (by decide), extract_all]
  rfl

theorem decodeWire_convByte (d : Dev) (cccc : BitVec 4) : decodeWire d (convByte cccc) = .ok (.adcConv d cccc) :=
  Laws.RoundTrip.adcConv d cccc rfl

/-- Settles O6: in every build the request byte is the `1CCCC000` of the build's last channel index. -/
theorem requestByteNamesChannels : Obligations.RequestByteNamesChannels := by
  refine ⟨fun p => ?_, by decide, by decide, by decide, by decide⟩
  rw [reqByte_channels, convByte_channelField]
  exact ⟨(channels_range p).1, (channels_range p).2, convByte_top _, rfl, convByte_lowBits _, decodeWire_convByte ..⟩

/-! ## What no step of a run changes (R300, log 2, log 9) -/

/-- The parameters are those of the build `p`, and no wire byte is placed from outside. -/
def State.RunsBuild (p : Params) (s : State) : Prop := s.linkPort = none ∧ s.params = p

section Build

variable {p : Params} {s t : State}

/-- A state with the same parameters and the same link port belongs to the same build. -/
theorem State.RunsBuild.of_eq (hs : s.RunsBuild p) (hport : t.linkPort = s.linkPort) (hparams : t.params = s.params) :
    t.RunsBuild p := ⟨hport.trans hs.1, hparams.trans hs.2⟩

theorem State.RunsBuild.setErr (hs : s.RunsBuild p) (e : ErrBit) : (s.setErr e).RunsBuild p := hs.of_eq rfl rfl

theorem setupDev_runsBuild (hs : s.RunsBuild p) (d : Dev) : (s.setupDev d).RunsBuild p := by
  rw [setupDev_frame]
  exact hs

/-- An effect that is carried out or refused with an error bit: it keeps the build where the effect does. -/
theorem State.RunsBuild.ite_setErr {c : Prop} [Decidable c] {e : ErrBit} (hs : s.RunsBuild p) (ht : t.RunsBuild p) :
    (if c then t else s.setErr e).RunsBuild p := by
  split
  · exact ht
  · exact hs.setErr e

theorem exec_runsBuild (hs : s.RunsBuild p) {i : Instr} (h : exec i s = .next t) : t.RunsBuild p := by
  cases i with
  | nop => cases h; exact hs
  | initAdc => cases h; exact hs.ite_setErr (setupDev_runsBuild (setupDev_runsBuild hs .a) .b)
  | chainClear =>
    cases h
    split
    · exact hs.setErr _
    · exact hs.of_eq (by simp) (by simp)
  | chainAdvance b =>
    cases h
    split
    · exact hs.setErr _
    · split
      · exact hs.setErr _
      · exact hs.of_eq (by simp) (by simp)
  | startScan => cases h; exact hs.ite_setErr (hs.of_eq (by simp) (by simp))
  | faultClear => cases h; exact hs.ite_setErr hs
  | adcRequest d => cases h; exact hs.ite_setErr (hs.of_eq (by simp) (by simp))
  | adcRead d => cases h; exact hs.ite_setErr (hs.of_eq (by simp) (by simp))
  | handshakeStart => cases h; exact hs.ite_setErr hs
  | illegal w => cases h; exact hs.setErr _
  | adcConv d cccc => cases h; exact hs.of_eq (by simp) (by simp)
  | adcSetup d x => cases h; exact hs.of_eq (by simp) (by simp)
  | adcNull d => cases h; exact hs.of_eq (by simp) (by simp)

theorem busRead_runsBuild (hs : s.RunsBuild p) {acc : BusAccess} {v : Word} (h : s.busRead acc = some (v, t)) :
    t.RunsBuild p := by
  rcases busRead_eq_some h with ⟨-, -, rfl⟩ | ⟨-, e, rest, -, -, rfl⟩ | ⟨-, -, -, rfl⟩ | ⟨-, -, -, -, -, rfl⟩
  · exact hs.setErr _
  · exact hs
  · exact hs
  · exact hs

theorem deliver_runsBuild (hs : s.RunsBuild p) : s.deliver.RunsBuild p := by
  rw [deliver_frame]
  exact hs

theorem seqStep_runsBuild (hs : s.RunsBuild p) {k : SeqStep} (h : s.seqStep k = some t) : t.RunsBuild p := by
  cases k with
  | issue =>
    obtain ⟨-, rfl⟩ := issue_eq_some h
    exact hs.of_eq (by simp) (by simp)
  | service d =>
    obtain ⟨-, rfl⟩ := service_eq_some h
    exact hs.of_eq (by simp) (by simp)
  | handoff =>
    obtain ⟨-, ⟨-, rfl⟩ | ⟨-, rfl⟩⟩ := handoff_eq_some h
    · exact deliver_runsBuild hs
    · exact (deliver_runsBuild hs).of_eq rfl rfl
  | hsSend =>
    obtain ⟨-, w, -, rfl⟩ := hsSend_eq_some h
    exact hs
  | hsCheck =>
    obtain ⟨-, w, -, rfl⟩ := hsCheck_eq_some h
    rw [hsEcho_frame]
    exact hs

/-- No agent's operation leaves the build or places a wire byte. -/
theorem keptByAgents_runsBuild (p : Params) : KeptByAgents (State.RunsBuild p) where
  waiting _ _ _ hs := hs.of_eq (by simp) (by simp)
  returned _ _ _ hs := hs.of_eq (by simp) (by simp)
  turns _ _ hs := hs
  draws _ _ hs := hs
  run _ _ _ hs _ h := exec_runsBuild hs h
  read _ _ _ _ hs h := busRead_runsBuild hs h
  write _ _ _ _ hs hr h := by
    rw [writeReg_frame hr h]
    exact hs
  badAccess _ hs := hs.setErr _
  seq _ _ _ hs h := seqStep_runsBuild hs h
  eoc _ _ _ hs := by
    rw [eocDrive_frame]
    exact hs
  answer _ _ _ hs := hs
  tick _ hs := by
    rw [tick_frame]
    exact hs
  linkReady _ _ hs := hs
  srOut _ _ hs := hs
  reset _ hs := hs

/-- With no wire byte placed from outside, a step answers a next state (log 16). -/
theorem step_completes (h : s.linkPort = none) : ∃ t, step s = .next t := by
  rw [step_eq_turn h]
  exact takeTurn_completes ..

end Build

/-- Settles O12: every turn completes, and every agent's operation keeps the parameters and the empty link port. -/
theorem machineNeverStops : Obligations.MachineNeverStops := by
  intro s hport
  obtain ⟨t, ht⟩ := step_completes hport
  obtain ⟨hport', hparams⟩ := (keptByAgents_runsBuild s.params).step hport ⟨hport, rfl⟩ ht
  exact ⟨t, ht, hport', hparams⟩

/-! ## The errors a command reports (R22, R303) -/

/-- The errors a command can report. -/
def commandErrors : List ErrBit := [.illegalCmd, .stateReject, .multiHot]

/-- `t` has the ERR of `s`, or it is `s` with one of a command's error bits set and nothing else changed. -/
def OnlyReports (s t : State) : Prop := t.err = s.err ∨ ∃ e ∈ commandErrors, t = s.setErr e

section Errors

variable {s t : State}

theorem OnlyReports.reject (s : State) : OnlyReports s (s.setErr .stateReject) := .inr ⟨_, by decide, rfl⟩

/-- A command carried out with ERR as it was, or rejected by the table of R273. -/
theorem OnlyReports.ite_reject {c : Prop} [Decidable c] (ht : t.err = s.err) :
    OnlyReports s (if c then t else s.setErr .stateReject) := by
  split
  · exact .inl ht
  · exact .reject s

/-- The setup of an ADC reports no error, also where the link is not ready (R147). -/
theorem setupDev_err (s : State) (d : Dev) : (s.setupDev d).err = s.err := by rw [setupDev_frame]

theorem exec_onlyReports {i : Instr} (h : exec i s = .next t) : OnlyReports s t := by
  cases i with
  | nop => cases h; exact .inl rfl
  | initAdc => cases h; exact .ite_reject ((setupDev_err ..).trans (setupDev_err ..))
  | chainClear =>
    cases h
    split
    · exact .reject s
    · exact .inl (by simp)
  | chainAdvance b =>
    cases h
    split
    · exact .reject s
    · split
      · exact .inr ⟨.multiHot, by decide, rfl⟩
      · exact .inl (by simp)
  | startScan => cases h; exact .ite_reject (by simp)
  | faultClear => cases h; exact .ite_reject rfl
  | adcRequest d => cases h; exact .ite_reject (by simp)
  | adcRead d => cases h; exact .ite_reject (by simp)
  | handshakeStart => cases h; exact .ite_reject rfl
  | illegal w => cases h; exact .inr ⟨.illegalCmd, by decide, rfl⟩
  | adcConv d cccc => cases h; exact .inl (by simp)
  | adcSetup d x => cases h; exact .inl (by simp)
  | adcNull d => cases h; exact .inl (by simp)

end Errors

/-- Settles O20: a command that changed ERR is one whose whole effect was `setErr`. -/
theorem commandErrorsArePrecise : Obligations.CommandErrorsArePrecise := by
  intro i s t h hne
  obtain ⟨e, he, rfl⟩ := (exec_onlyReports h).resolve_left hne
  refine ⟨rfl, ?_⟩
  simp only [commandErrors, List.mem_cons, List.not_mem_nil, or_false] at he
  rcases he with rfl | rfl | rfl
  · exact .inl rfl
  · exact .inr (.inl rfl)
  · exact .inr (.inr rfl)

end Sys2Proof.Machine

/-! The statements of 10_state.md: ERR is sticky, every step keeps the invariant of the block, the register map and what
the registers show. -/

namespace Sys2Proof.Machine

/-! ## The sticky error bits (R43, R275) -/

/-- Every ERR bit set in `s` is set in `t`. -/
def KeepsErrBits (s t : State) : Prop := s.err &&& t.err = s.err

section Sticky

variable {s t u : State}

theorem KeepsErrBits.of_eq (h : t.err = s.err) : KeepsErrBits s t := by
  rw [KeepsErrBits, h, BitVec.and_self]

theorem KeepsErrBits.setErr (s : State) (e : ErrBit) : KeepsErrBits s (s.setErr e) := by
  apply BitVec.eq_of_getLsbD_eq
  intro i hi
  cases h : s.err.getLsbD i <;> simp [h]

theorem KeepsErrBits.trans (h : KeepsErrBits s t) (h' : KeepsErrBits t u) : KeepsErrBits s u := by
  unfold KeepsErrBits at *
  calc s.err &&& u.err = s.err &&& t.err &&& u.err := by rw [h]
    _ = s.err &&& (t.err &&& u.err) := BitVec.and_assoc ..
    _ = s.err := by rw [h', h]

theorem KeepsErrBits.ite {c : Prop} [Decidable c] (ht : KeepsErrBits s t) (hu : KeepsErrBits s u) :
    KeepsErrBits s (if c then t else u) := by
  split
  · exact ht
  · exact hu

theorem exec_keepsErrBits {i : Instr} (h : exec i s = .next t) : KeepsErrBits s t := by
  rcases exec_onlyReports h with he | ⟨e, -, rfl⟩
  · exact .of_eq he
  · exact .setErr s e

theorem busRead_keepsErrBits {acc : BusAccess} {v : Word} (h : s.busRead acc = some (v, t)) : KeepsErrBits s t := by
  rcases busRead_eq_some h with ⟨-, -, rfl⟩ | ⟨-, e, rest, -, -, rfl⟩ | ⟨-, -, -, rfl⟩ | ⟨-, -, -, -, -, rfl⟩
  · exact .setErr ..
  · exact .of_eq rfl
  · exact .of_eq rfl
  · exact .of_eq rfl

/-- Of the plain registers only ERR itself can be written to clear an error bit (R275). -/
theorem writeReg_keepsErrBits {r : Reg} {v : Word} (hcmd : r ≠ .cmd) (herr : r ≠ .err)
    (h : s.writeReg r v = .next t) : KeepsErrBits s t := by
  cases r with
  | cmd => exact absurd rfl hcmd
  | err => exact absurd rfl herr
  | config | timeout => cases h; exact .ite (.setErr ..) (.of_eq rfl)
  | hsVec | hsSp | hsEntry | mbRx => cases h; exact .ite (.of_eq rfl) (.setErr ..)
  | status | col | chain0 | chain1 | fault | qcount | param | mbTx | qtag | rowbuf | qout | frame =>
    cases h; exact .setErr ..

/-- No step of SEQ touches ERR. -/
theorem seqStep_err {k : SeqStep} (h : s.seqStep k = some t) : t.err = s.err := by
  cases k with
  | issue => obtain ⟨-, rfl⟩ := issue_eq_some h; simp
  | service d => obtain ⟨-, rfl⟩ := service_eq_some h; simp
  | handoff =>
    obtain ⟨-, ⟨-, rfl⟩ | ⟨-, rfl⟩⟩ := handoff_eq_some h
    · rw [State.finish, deliver_frame]
    · rw [State.advance, deliver_frame]
      simp
  | hsSend => obtain ⟨-, w, -, rfl⟩ := hsSend_eq_some h; rfl
  | hsCheck =>
    obtain ⟨-, w, -, rfl⟩ := hsCheck_eq_some h
    rw [hsEcho_frame]

/-- An edge is latched, reported as spurious, or ignored (R152). -/
theorem fallingEdge_keepsErrBits (s : State) (d : Dev) : KeepsErrBits s (s.fallingEdge d) :=
  .ite (.ite (.ite (.of_eq rfl) (.of_eq rfl)) (.setErr ..)) (.of_eq rfl)

theorem eocDrive_keepsErrBits (s : State) (d : Dev) (v : Bool) : KeepsErrBits s (s.eocDrive d v) := by
  have hlevel : KeepsErrBits s { s with eoc := s.eoc.set d v } := .of_eq rfl
  exact .ite (hlevel.trans (fallingEdge_keepsErrBits ..)) hlevel

theorem countTick_err (s : State) (d : Dev) : (s.countTick d).err = s.err := by rw [countTick_frame]

theorem flagTimeout_keepsErrBits (s : State) (d : Dev) (hit : Bool) : KeepsErrBits s (s.flagTimeout d hit) :=
  .ite (.setErr ..) (.of_eq rfl)

theorem checkTimeout_keepsErrBits (s : State) : KeepsErrBits s s.checkTimeout := by
  have hflags : KeepsErrBits s ((s.flagTimeout .a (s.timedOut .a)).flagTimeout .b (s.timedOut .b)) :=
    (flagTimeout_keepsErrBits ..).trans (flagTimeout_keepsErrBits ..)
  exact hflags.trans (.ite (.of_eq rfl) (.ite (.of_eq rfl) (.of_eq rfl)))

theorem tick_keepsErrBits (s : State) : KeepsErrBits s s.tick := by
  have hcount : KeepsErrBits s ((s.countTick .a).countTick .b) := .of_eq (by rw [countTick_err, countTick_err])
  exact .ite (.ite (hcount.trans (checkTimeout_keepsErrBits _)) hcount) (.of_eq rfl)

/-- What a step did to ERR, from the state `v` its turn was taken in: only a write of ERR and RESET clear a bit. -/
theorem StepDid.errBits {v : State} (h : StepDid s v t) (hv : v.err = s.err) :
    KeepsErrBits s t ∨ (∃ x, s.nextWrites .err x ∧ t.err = s.err &&& ~~~(x.setWidth 8)) ∨
      (s.nextTurn.1 = .reset ∧ t.err = 0) := by
  have hw : ∀ m w, (v.setWaiting m w).err = s.err := fun m w => (State.setWaiting_err ..).trans hv
  cases h with
  | waited m w => exact .inl (.of_eq (hw m w))
  | read m w acc x u hacc hop hr =>
    have hread := (KeepsErrBits.of_eq (hw m w)).trans (busRead_keepsErrBits hr)
    exact .inl (hread.trans (.of_eq (State.pushReturned_err ..)))
  | badWrite m w => exact .inl ((KeepsErrBits.of_eq (hw m w)).trans (.setErr ..))
  | command m w i t hc hi he => exact .inl ((KeepsErrBits.of_eq (hw m w)).trans (exec_keepsErrBits he))
  | write m w acc x r t hacc hop ht hr he =>
    by_cases herr : r = .err
    · subst herr
      cases he
      exact .inr (.inl ⟨x, ⟨acc, hacc, hop, ht⟩, by rw [State.clearErr, hw]⟩)
    · exact .inl ((KeepsErrBits.of_eq (hw m w)).trans (writeReg_keepsErrBits hr herr he))
  | seq k t hk he => exact .inl (.of_eq ((seqStep_err he).trans hv))
  | disabled => exact .inl (.of_eq hv)
  | eoc d x => exact .inl ((KeepsErrBits.of_eq hv).trans (eocDrive_keepsErrBits ..))
  | answer => exact .inl (.of_eq hv)
  | tick => exact .inl ((KeepsErrBits.of_eq hv).trans (tick_keepsErrBits _))
  | linkReady => exact .inl (.of_eq hv)
  | srOut => exact .inl (.of_eq hv)
  | reset hk => exact .inr (.inr ⟨hk, rfl⟩)

end Sticky

/-- Settles O35, by the cases of what a step did. -/
theorem errorBitsAreSticky : Obligations.ErrorBitsAreSticky := by
  intro s t hport h
  exact (step_did hport h).errBits (by rw [nextTurn_frame])

/-! ## The invariant of the block (R33 to R57)

First what several steps share, clause by clause; then one lemma for each command, register write and turn. -/

section Invariant

variable {s t : State}

/-! ### Chip-selects (R57, R140) -/

theorem chipSelects_append (ps qs : List PinEvent) (now : PerAdc Bool) :
    chipSelects (ps ++ qs) now = (chipSelects ps now).bind (chipSelects qs) := by
  induction ps generalizing now with
  | nil => rfl
  | cons e ps ih =>
    cases e with
    | cs d v =>
      simp only [List.cons_append, chipSelects]
      split
      · rfl
      · exact ih _
    | data | clear | serialIn | clockPulse => exact ih now

theorem chipSelects_data (lane : Lane) (tx : List Byte) (now : PerAdc Bool) :
    chipSelects (tx.map (.data lane)) now = some now := by
  induction tx with
  | nil => rfl
  | cons b tx ih => exact ih

/-- A transaction asserts one chip-select and deasserts it again (R20). -/
theorem chipSelects_framePins (s : State) (d : Dev) (tx : List Byte) :
    chipSelects (s.framePins d tx) (.both false) = some (.both false) := by
  have hmid : ∀ now, chipSelects (tx.map (.data (s.lane d)) ++ [.cs d false]) now = chipSelects [.cs d false] now := by
    intro now
    rw [chipSelects_append, chipSelects_data, Option.bind_some]
  rw [State.framePins, List.append_assoc]
  cases d <;> exact hmid _

/-- A step may drive any pins after which both chip-selects are deasserted again. -/
theorem State.SelectOk.drive (hs : s.SelectOk) {ps : List PinEvent} (hcs : t.cs = .both false)
    (hpins : t.pins = s.pins ++ ps) (hps : chipSelects ps (.both false) = some (.both false)) : t.SelectOk := by
  obtain ⟨hdeasserted, hrecord⟩ := hs
  refine ⟨hcs, ?_⟩
  rw [hpins, chipSelects_append, hrecord, hdeasserted, Option.bind_some, hps, hcs]

/-! ### The chain (R170, R174) -/

theorem colHeight_range (p : Params) : 1 ≤ p.colHeight ∧ p.colHeight ≤ 64 := by
  have := p.lastCol.isLt
  unfold Params.colHeight
  omega

/-- Truncation keeps the stages of the build and clears the others (R170). -/
theorem truncCols_getLsbD (p : Params) (v : BitVec 64) (i : Nat) :
    (truncCols p v).getLsbD i = (decide (i < p.colHeight) && v.getLsbD i) := by
  by_cases hi : i < p.colHeight
  · have : i < 64 := by have := colHeight_range p; omega
    simp [truncCols, hi, this]
  · simp [truncCols, hi]

/-- A selected column stays selected where the build has it. -/
theorem truncCols_column (p : Params) (k : Nat) :
    truncCols p (1#64 <<< k) = if k < p.colHeight then 1#64 <<< k else 0 := by
  apply BitVec.eq_of_getLsbD_eq
  intro i hi
  rw [truncCols_getLsbD, ← BitVec.twoPow_eq, apply_ite (BitVec.getLsbD · i), BitVec.getLsbD_twoPow]
  by_cases h : k = i
  · subst h
    simp [hi]
  · simp [h]

/-- A bit shifted into an empty chain selects column 0. -/
theorem chainShift_empty (b : Bool) (h : s.chain = 0) : (s.chainShift b).chain = if b then 1#64 <<< 0 else 0 := by
  rw [State.chainShift_chain, h]
  cases b
  · exact BitVec.eq_of_getLsbD_eq fun i _ => by simp [truncCols_getLsbD]
  · exact (truncCols_column s.params 0).trans (if_pos (colHeight_range s.params).1)

/-- A zero shifted in selects the next column, or none after the last (R175). -/
theorem chainShift_column {k : Nat} (h : s.chain = 1#64 <<< k) :
    (s.chainShift false).chain = if k + 1 < s.params.colHeight then 1#64 <<< (k + 1) else 0 := by
  rw [State.chainShift_chain, h, ← BitVec.shiftLeft_add]
  exact (congrArg _ (BitVec.or_zero ..)).trans (truncCols_column ..)

/-- A shift keeps at most one column selected, if a 1 is shifted only into an empty chain (R172, R174). -/
theorem chainShift_selects_one (hs : s.ChainOk) {b : Bool} (hb : b = true → s.chain = 0) :
    (s.chainShift b).chain = 0 ∨
      ∃ k, k < (s.chainShift b).params.colHeight ∧ (s.chainShift b).chain = 1#64 <<< k := by
  obtain ⟨hempty | ⟨k, -, hk⟩, -⟩ := hs
  · rw [chainShift_empty b hempty]
    cases b
    · exact .inl rfl
    · exact .inr ⟨0, (colHeight_range _).1, rfl⟩
  · cases b with
    | true =>
      rw [chainShift_empty true (hb rfl)]
      exact .inr ⟨0, (colHeight_range _).1, rfl⟩
    | false =>
      rw [chainShift_column hk]
      split
      · exact .inr ⟨k + 1, by assumption, rfl⟩
      · exact .inl rfl

/-! ### The pending flags (R33, R152) -/

/-- Outside WAIT no ADC is pending, so none has an edge or a count. -/
theorem State.PendOk.clear (hs : s.PendOk) (hp : s.phase ≠ .wait) (d : Dev) :
    s.pend.get d = false ∧ s.edge.get d = false ∧ s.cnt.get d = 0 := by
  obtain ⟨hwait, hflags⟩ := hs
  have hd : s.pend.get d = false := by
    obtain ⟨ha, hb⟩ := not_or.mp fun h => hp (hwait.mpr h)
    cases d
    · exact Bool.eq_false_of_not_eq_true ha
    · exact Bool.eq_false_of_not_eq_true hb
  exact ⟨hd, (hflags d).1 hd⟩

/-- What `PendOk.clear` finds is enough for `PendOk` outside WAIT. -/
theorem State.PendOk.of_clear (hp : t.phase ≠ .wait)
    (h : ∀ d, t.pend.get d = false ∧ t.edge.get d = false ∧ t.cnt.get d = 0) : t.PendOk := by
  refine ⟨iff_of_false hp ?_, fun d => ⟨fun _ => (h d).2, fun he => ?_⟩⟩
  · rintro (ha | hb)
    · exact Bool.false_ne_true ((h .a).1.symm.trans ha)
    · exact Bool.false_ne_true ((h .b).1.symm.trans hb)
  · exact absurd ((h d).2.1.symm.trans he) Bool.false_ne_true

theorem zero_lt_of_ne_zero {w : Word} (h : w ≠ 0) : 0 < w := by bv_omega

/-- A nonzero TIMEOUT is above a count of 0. -/
theorem State.TimeoutOk.of_zero (h : ∀ d, t.cnt.get d = 0) : t.TimeoutOk := fun hto d => by
  rw [h d]
  exact zero_lt_of_ne_zero hto

theorem State.Inv.phase_of_not_scanning (hs : s.Inv) (h : s.state ≠ .scanning) : s.phase = .issue := hs.cursor.1 h

theorem State.Inv.clear_of_not_scanning (hs : s.Inv) (h : s.state ≠ .scanning) (d : Dev) :
    s.pend.get d = false ∧ s.edge.get d = false ∧ s.cnt.get d = 0 :=
  hs.pend.clear (by rw [hs.phase_of_not_scanning h]; decide) d

/-! ### What the invariant does not speak of -/

/-- The invariant does not read the input levels, ERR, the handshake's words, MB_TX, the history or the environment. -/
theorem State.Inv.of_frame (hs : s.Inv)
    (ht : t = { s with
      eoc := t.eoc, err := t.err, hsVec := t.hsVec, hsSp := t.hsSp, hsEntry := t.hsEntry, mbTx := t.mbTx
      linkReady := t.linkReady, srOut := t.srOut, hist := t.hist, ctrl := t.ctrl, cons := t.cons
      answers := t.answers, turns := t.turns, linkPort := t.linkPort, epoch := t.epoch, draws := t.draws }) :
    t.Inv := by
  rw [ht]
  exact { hs with }

theorem State.Inv.setErr (hs : s.Inv) (e : ErrBit) : (s.setErr e).Inv := hs.of_frame rfl

/-- An effect that is carried out or refused with an error bit. -/
theorem State.Inv.ite_setErr {c : Prop} [Decidable c] {e : ErrBit} (hs : s.Inv) (ht : c → t.Inv) :
    (if c then t else s.setErr e).Inv := by
  split
  · exact ht (by assumption)
  · exact hs.setErr e

/-! ### The link (R20, R143, R146) -/

theorem State.Inv.linkXfer (hs : s.Inv) (d : Dev) (tx placed : List Byte) : (s.linkXfer d tx placed).1.Inv :=
  { hs with
    select := hs.select.drive (by rw [State.linkXfer_cs, hs.select.1]; cases d <;> rfl) rfl
      (chipSelects_framePins s d tx) }

theorem State.Inv.setupDev (hs : s.Inv) (d : Dev) : (s.setupDev d).Inv := by
  unfold State.setupDev
  split
  · exact hs.linkXfer ..
  · exact hs

theorem State.Inv.requestConversion (hs : s.Inv) (d : Dev) : (s.requestConversion d).Inv := hs.linkXfer ..

theorem State.Inv.readTransaction (hs : s.Inv) (d : Dev) : (s.readTransaction d).1.Inv :=
  State.Inv.of_frame (hs.linkXfer ..) rfl

/-- The samples of a read-back fit into their half of the row buffer (R90, R146). -/
theorem State.Inv.readIntoHalf (hs : s.Inv) (d : Dev) : (s.readIntoHalf d).Inv := by
  obtain ⟨⟨hrow, hframe, hqout⟩, hrowBound, hframeBound, hqoutBound⟩ := hs.stores
  have hfits : halfBase s.params d + (deintAll (s.readTransaction d).2).length ≤ s.params.rowWidth := by
    rw [deintAll_length s.params.channels _ (readTransaction_length s d), Params.rowWidth]
    cases d <;> simp only [halfBase] <;> omega
  exact { hs.readTransaction d with
    stores := ⟨⟨Memory.wf_putBytes hrow .., hframe, hqout⟩, Memory.below_putBytes hrowBound _ _ hfits, hframeBound,
      hqoutBound⟩ }

/-! ### Commands (44_control.md) -/

theorem not_scanning_of_idleOrDone (h : s.idleOrDone = true) : s.state ≠ .scanning := by
  intro hs
  simp [State.idleOrDone, hs] at h

/-- Clearing the chain selects no column, which only a scan forbids (R171). -/
theorem State.Inv.chainClear (hs : s.Inv) (hscan : s.state ≠ .scanning) : s.chainClear.Inv :=
  { hs with
    chain := ⟨.inl rfl, fun h => absurd h hscan⟩
    select := hs.select.drive hs.select.1 rfl rfl }

/-- Outside a scan a 1 may be shifted into an empty chain (R172). -/
theorem State.Inv.chainShift (hs : s.Inv) (hscan : s.state ≠ .scanning) {b : Bool} (hb : b = true → s.chain = 0) :
    (s.chainShift b).Inv :=
  { hs with
    chain := ⟨chainShift_selects_one hs.chain hb, fun h => absurd h hscan⟩
    select := hs.select.drive hs.select.1 rfl rfl }

/-- START_SCAN: the seed selects column 0, where the cursor starts (R191). -/
theorem startScan_inv (hs : s.Inv) (h : exec .startScan s = .next t) : t.Inv := by
  cases h
  refine hs.ite_setErr fun hok => ?_
  have hscan := not_scanning_of_idleOrDone hok
  have hseed : (s.chainClear.chainShift true).Inv := (hs.chainClear hscan).chainShift hscan fun _ => rfl
  exact { hseed with
    cursor := ⟨fun h => absurd rfl h, Nat.zero_le _, ScanState.noConfusion, ScanState.noConfusion⟩
    pend := .of_clear Phase.noConfusion fun d => by simp
    timeout := .of_zero fun d => by simp
    chain := ⟨hseed.chain.1, fun _ => chainShift_empty true rfl⟩
    fault := ⟨fun _ => hs.fault.1 (by rintro h; simp [State.idleOrDone, h] at hok), ScanState.noConfusion⟩ }

/-- FAULT_CLEAR: the way back to IDLE (R271). -/
theorem faultClear_inv (hs : s.Inv) (h : exec .faultClear s = .next t) : t.Inv := by
  cases h
  refine hs.ite_setErr fun hfault => ?_
  have hscan : s.state ≠ .scanning := by rw [hfault]; decide
  exact { hs with
    cursor := ⟨fun _ => rfl, Nat.zero_le _, ScanState.noConfusion, fun _ => rfl⟩
    pend := .of_clear Phase.noConfusion (hs.clear_of_not_scanning hscan)
    chain := ⟨hs.chain.1, ScanState.noConfusion⟩
    fault := ⟨fun _ => rfl, ScanState.noConfusion⟩ }

/-- HANDSHAKE_START: from HS_IDLE, where no echo is held (R241). -/
theorem handshakeStart_inv (hs : s.Inv) (h : exec .handshakeStart s = .next t) : t.Inv := by
  cases h
  refine hs.ite_setErr fun hidle => ?_
  obtain ⟨-, -, -, hecho⟩ := hs.handshake
  exact { hs with
    handshake := ⟨HsState.noConfusion, fun _ => Nat.zero_lt_succ 2, HsState.noConfusion,
      fun h => HsState.noConfusion (hidle.symm.trans (hecho h))⟩ }

/-- Every instruction keeps the invariant, the wire rows included. -/
theorem exec_inv {i : Instr} (hs : s.Inv) (h : exec i s = .next t) : t.Inv := by
  cases i with
  | nop => cases h; exact hs
  | initAdc => cases h; exact hs.ite_setErr fun _ => (hs.setupDev .a).setupDev .b
  | chainClear =>
    cases h
    split
    · exact hs.setErr _
    · exact hs.chainClear (by assumption)
  | chainAdvance b =>
    cases h
    split
    · exact hs.setErr _
    · rename_i hok
      split
      · exact hs.setErr _
      · rename_i hhot
        exact hs.chainShift (not_scanning_of_idleOrDone (by simpa using hok)) fun hb => by simpa [hb] using hhot
  | startScan => exact startScan_inv hs h
  | faultClear => exact faultClear_inv hs h
  | adcRequest d => cases h; exact hs.ite_setErr fun _ => hs.requestConversion d
  | adcRead d => cases h; exact hs.ite_setErr fun _ => hs.readIntoHalf d
  | handshakeStart => exact handshakeStart_inv hs h
  | illegal w => cases h; exact hs.setErr _
  | adcConv d cccc => cases h; exact hs.linkXfer ..
  | adcSetup d x => cases h; exact hs.linkXfer ..
  | adcNull d => cases h; exact hs.readTransaction d

/-! ### Bus accesses -/

/-- A read pops the head of the queue into the latch, takes the word of MB_TX, or moves nothing the invariant reads. -/
theorem busRead_inv {acc : BusAccess} {v : Word} (hs : s.Inv) (h : s.busRead acc = some (v, t)) : t.Inv := by
  rcases busRead_eq_some h with ⟨-, -, rfl⟩ | ⟨-, e, rest, hq, -, rfl⟩ | ⟨-, -, -, rfl⟩ | ⟨-, -, -, -, -, rfl⟩
  · exact hs.setErr _
  · obtain ⟨hlen, hentries⟩ := hs.queue
    obtain ⟨⟨hrow, hframe, -⟩, hrowBound, hframeBound, -⟩ := hs.stores
    rw [hq] at hlen hentries
    have hpayload : e.payload.length = s.params.rowWidth := (hentries e (List.mem_cons_self ..)).1
    exact { hs with
      queue := ⟨Nat.le_of_succ_le hlen, fun e' he' => hentries e' (List.mem_cons_of_mem _ he')⟩
      stores := ⟨⟨hrow, hframe, Memory.wf_putBytes rfl ..⟩, hrowBound, hframeBound,
        Memory.below_putBytes (Memory.below_nil _) _ _ (by rw [hpayload, Nat.zero_add])⟩ }
  · exact hs.of_frame rfl
  · exact hs

/-- A CONFIG write changes EOC_MODE only while no edge is latched (R276). -/
theorem State.Inv.writeConfig (hs : s.Inv) (v : Word) : (s.writeConfig v).Inv := by
  unfold State.writeConfig
  split
  · exact hs.setErr _
  · rename_i hscan
    exact { hs with
      pend := .of_clear (by rw [hs.phase_of_not_scanning hscan]; decide) (hs.clear_of_not_scanning hscan) }

/-- A TIMEOUT write changes TIMEOUT only while no tick was counted (R276). -/
theorem State.Inv.writeTimeout (hs : s.Inv) (v : Word) : (s.writeTimeout v).Inv := by
  unfold State.writeTimeout
  split
  · exact hs.setErr _
  · rename_i hscan
    exact { hs with timeout := .of_zero fun d => (hs.clear_of_not_scanning hscan d).2.2 }

/-- An MB_RX write leaves an echo only in HS_WAIT (R240). -/
theorem State.Inv.putMbRx (hs : s.Inv) (v : Word) : (s.putMbRx v).Inv := by
  refine hs.ite_setErr fun hwait => ?_
  obtain ⟨hidle, hindex, hdone, -⟩ := hs.handshake
  exact { hs with handshake := ⟨hidle, hindex, hdone, fun _ => hwait.1⟩ }

theorem writeReg_inv {r : Reg} {v : Word} (hs : s.Inv) (h : s.writeReg r v = .next t) : t.Inv := by
  cases r with
  | cmd => exact exec_inv hs h
  | err => cases h; exact hs.of_frame rfl
  | config => cases h; exact hs.writeConfig v
  | timeout => cases h; exact hs.writeTimeout v
  | hsVec | hsSp | hsEntry => cases h; exact hs.ite_setErr fun _ => hs.of_frame rfl
  | mbRx => cases h; exact hs.putMbRx v
  | status | col | chain0 | chain1 | fault | qcount | param | mbTx | qtag | rowbuf | qout | frame =>
    cases h; exact hs.setErr _

/-! ### The steps of SEQ (42_scan_engine.md, 43_transport.md) -/

/-- ISSUE: both ADCs pending, both counters at 0 (R200). -/
theorem issue_inv (hs : s.Inv) (h : s.issue = some t) : t.Inv := by
  obtain ⟨⟨hscan, -⟩, rfl⟩ := issue_eq_some h
  have hclear : State.Inv { s with edge := .both false } :=
    { hs with
      pend := ⟨hs.pend.1, fun d =>
        ⟨fun hd => ⟨PerAdc.get_both .., ((hs.pend.2 d).1 hd).2⟩, fun he => by simp at he⟩⟩ }
  have hreq := (hclear.requestConversion .a).requestConversion .b
  exact { hreq with
    cursor := ⟨fun h => absurd hscan h, hs.cursor.2⟩
    pend := ⟨iff_of_true rfl (.inl rfl), fun d => ⟨fun h => by simp at h, fun h => by simp at h⟩⟩
    timeout := .of_zero fun d => by simp }

/-- The end of a SERVICE of WAIT: the flag, edge and counter of the ADC are cleared, and the phase moves on once no ADC
is pending (R201). -/
theorem State.Inv.served (hs : s.Inv) (hscan : s.state = .scanning) (hwait : s.phase = .wait) (d : Dev) :
    (s.served d).Inv := by
  obtain ⟨-, hflags⟩ := hs.pend
  have hphase : (s.served d).phase = .wait ↔ (s.served d).pend.a = true ∨ (s.served d).pend.b = true := by
    rw [State.served_phase, State.served_pend, hwait]
    cases (s.pend.set d false).a <;> cases (s.pend.set d false).b <;> simp
  have hpend : ∀ e, ((s.served d).pend.get e = false → (s.served d).edge.get e = false ∧ (s.served d).cnt.get e = 0) ∧
      ((s.served d).edge.get e = true → s.config.eocMode = true) := by
    intro e
    rw [State.served_pend, State.served_edge, State.served_cnt]
    by_cases he : e = d
    · subst he
      simp
    · simpa only [PerAdc.get_set_ne _ he] using hflags e
  refine { hs with
    cursor := ⟨fun h => absurd hscan h, hs.cursor.2⟩, pend := ⟨hphase, hpend⟩, timeout := fun hto e => ?_ }
  rw [State.served_cnt]
  by_cases he : e = d
  · subst he
    rw [PerAdc.get_set_self]
    exact zero_lt_of_ne_zero hto
  · rw [PerAdc.get_set_ne _ he]
    exact hs.timeout hto e

theorem service_inv {d : Dev} (hs : s.Inv) (h : s.service d = some t) : t.Inv := by
  obtain ⟨hready, rfl⟩ := service_eq_some h
  obtain ⟨hscan, hwait, -⟩ := (serviceReady_iff s d).mp hready
  exact (hs.readIntoHalf d).served hscan hwait d

theorem rowBytes_length (s : State) : s.rowBytes.length = s.params.rowWidth := by simp [State.rowBytes]

/-- The row goes onto a queue with room, or into the frame's row of the cursor (R203, R231). -/
theorem State.Inv.deliver (hs : s.Inv) (hroom : s.config.mode = true → s.q.length < s.params.qCap) :
    s.deliver.Inv := by
  have hcol := hs.cursor.2.1
  unfold State.deliver
  split
  · rename_i hmode
    obtain ⟨-, hentries⟩ := hs.queue
    refine { hs with queue := ⟨?_, fun e he => ?_⟩ }
    · rw [State.push_q, List.length_append]
      exact hroom hmode
    · rcases List.mem_append.mp he with he | he
      · exact hentries e he
      · obtain rfl := List.mem_singleton.mp he
        exact ⟨rowBytes_length s, s.col, hcol, rfl⟩
  · obtain ⟨⟨hrow, hframe, hqout⟩, hrowBound, hframeBound, hqoutBound⟩ := hs.stores
    have hfits : s.col.toNat * s.params.rowWidth + s.rowBytes.length ≤ s.params.frameBytes := by
      rw [rowBytes_length, ← Nat.succ_mul]
      exact Nat.mul_le_mul_right _ (Nat.succ_le_succ hcol)
    exact { hs with
      stores := ⟨⟨hrow, Memory.wf_putBytes hframe .., hqout⟩, hrowBound, Memory.below_putBytes hframeBound _ _ hfits,
        hqoutBound⟩ }

/-- `Finish()` at the last column: the cursor stays there (R205). -/
theorem State.Inv.finish (hs : s.Inv) (hscan : s.state = .scanning) (hphase : s.phase ≠ .wait)
    (hlast : s.col = s.params.lastCol) : s.finish.Inv :=
  { hs with
    cursor := ⟨fun _ => rfl, hs.cursor.2.1, fun _ => hlast, ScanState.noConfusion⟩
    pend := .of_clear Phase.noConfusion (hs.pend.clear hphase)
    chain := ⟨hs.chain.1, ScanState.noConfusion⟩
    fault := ⟨fun _ => hs.fault.1 (by rw [hscan]; decide), ScanState.noConfusion⟩ }

/-- `Advance()` before the last column: the cursor and the selected column move on together (R206). -/
theorem State.Inv.advance (hs : s.Inv) (hscan : s.state = .scanning) (hphase : s.phase ≠ .wait)
    (hlast : s.col ≠ s.params.lastCol) : s.advance.Inv := by
  have hcol : s.col.toNat + 1 ≤ s.params.lastCol.toNat :=
    Nat.lt_of_le_of_ne hs.cursor.2.1 fun h => hlast (BitVec.eq_of_toNat_eq h)
  have hnext : (s.col + 1).toNat = s.col.toNat + 1 :=
    BitVec.toNat_add_of_lt (Nat.lt_of_le_of_lt hcol s.params.lastCol.isLt)
  have hchain : s.advance.chain = 1#64 <<< (s.col + 1).toNat := by
    rw [hnext]
    exact (chainShift_column (hs.chain.2 hscan)).trans (if_pos (Nat.succ_lt_succ hcol))
  exact { hs with
    cursor := ⟨fun _ => rfl, hnext ▸ hcol, fun h => (nomatch hscan.symm.trans h), fun h => (nomatch hscan.symm.trans h)⟩
    pend := .of_clear Phase.noConfusion (hs.pend.clear hphase)
    chain := ⟨chainShift_selects_one hs.chain (fun h => nomatch h), fun _ => hchain⟩
    select := hs.select.drive hs.select.1 rfl rfl
    fault := ⟨hs.fault.1, fun h => (nomatch hscan.symm.trans h)⟩ }

theorem handoff_inv (hs : s.Inv) (h : s.handoff = some t) : t.Inv := by
  obtain ⟨⟨hscan, hphase, hroom⟩, hend⟩ := handoff_eq_some h
  have hd := hs.deliver hroom
  have hframe := deliver_frame s
  have hscan' : s.deliver.state = .scanning := by rw [hframe]; exact hscan
  have hphase' : s.deliver.phase ≠ .wait := by rw [hframe]; exact hphase ▸ (by decide)
  rcases hend with ⟨hlast, rfl⟩ | ⟨hlast, rfl⟩
  · exact hd.finish hscan' hphase' (by rw [hframe]; exact hlast)
  · exact hd.advance hscan' hphase' (by rw [hframe]; exact hlast)

/-- HS_SEND: the word is sent and its echo awaited (R242). -/
theorem hsSend_inv (hs : s.Inv) (h : s.hsSend = some t) : t.Inv := by
  obtain ⟨⟨hsend, -⟩, w, -, rfl⟩ := hsSend_eq_some h
  obtain ⟨-, hindex, -, -⟩ := hs.handshake
  exact { hs with
    handshake := ⟨HsState.noConfusion, fun _ => hindex (.inl hsend), HsState.noConfusion, fun _ => rfl⟩ }

/-- HS_CHECK: the index reaches 3 exactly with HS_DONE (R243, R244). -/
theorem hsCheck_inv (hs : s.Inv) (h : s.hsCheck = some t) : t.Inv := by
  obtain ⟨⟨hwait, -⟩, w, -, rfl⟩ := hsCheck_eq_some h
  have hindex : s.hsIdx.toNat < 3 := hs.handshake.2.1 (.inr hwait)
  have hnext : s.hsIdx + 1 ≠ 3 → (s.hsIdx + 1).toNat < 3 := by
    generalize s.hsIdx = i at hindex
    revert i
    decide
  unfold State.hsEcho
  dsimp only
  split
  · by_cases hlast : s.hsIdx + 1 = 3
    · rw [if_pos hlast]
      exact { hs with
        handshake := ⟨HsState.noConfusion, fun h => h.elim HsState.noConfusion HsState.noConfusion, fun _ => hlast,
          Bool.noConfusion⟩ }
    · rw [if_neg hlast]
      exact { hs with
        handshake := ⟨HsState.noConfusion, fun _ => hnext hlast, HsState.noConfusion, Bool.noConfusion⟩ }
  · exact { hs with
      handshake := ⟨HsState.noConfusion, fun _ => hindex, HsState.noConfusion, Bool.noConfusion⟩ }

theorem seqStep_inv {k : SeqStep} (hs : s.Inv) (h : s.seqStep k = some t) : t.Inv := by
  cases k with
  | issue => exact issue_inv hs h
  | service d => exact service_inv hs h
  | handoff => exact handoff_inv hs h
  | hsSend => exact hsSend_inv hs h
  | hsCheck => exact hsCheck_inv hs h

/-! ### EOC levels and ticks (R151, R209) -/

/-- An edge is latched only for a pending ADC and in EDGE mode (R152). -/
theorem State.Inv.fallingEdge (hs : s.Inv) (d : Dev) : (s.fallingEdge d).Inv := by
  unfold State.fallingEdge
  split
  · split
    · rename_i hpend
      split
      · rename_i hmode
        obtain ⟨hwait, hflags⟩ := hs.pend
        refine { hs with pend := ⟨hwait, fun e => ⟨fun he => ⟨?_, ((hflags e).1 he).2⟩, fun _ => hmode⟩⟩ }
        have hne : e ≠ d := by
          rintro rfl
          exact Bool.false_ne_true (he.symm.trans hpend)
        exact (PerAdc.get_set_ne _ hne _).trans ((hflags e).1 he).1
      · exact hs
    · exact hs.setErr _
  · exact hs

theorem State.Inv.eocDrive (hs : s.Inv) (d : Dev) (v : Bool) : (s.eocDrive d v).Inv := by
  have hlevel : State.Inv { s with eoc := s.eoc.set d v } := hs.of_frame rfl
  unfold State.eocDrive
  dsimp only
  split
  · exact hlevel.fallingEdge d
  · exact hlevel

/-- A scan fault of a pending ADC: the FAULT word names it at the cursor's column (R306). -/
theorem State.Inv.scanFault (hs : s.Inv) {d : Dev} (hd : s.pend.get d = true) : (s.scanFault (timeoutCause d)).Inv :=
  { hs with
    cursor := ⟨fun _ => rfl, hs.cursor.2.1, ScanState.noConfusion, ScanState.noConfusion⟩
    pend := .of_clear Phase.noConfusion fun d => by simp
    timeout := .of_zero fun d => by simp
    chain := ⟨hs.chain.1, ScanState.noConfusion⟩
    fault := ⟨fun h => absurd rfl h, fun _ => by
      cases d with
      | a => exact .inl ⟨s.pend.b, by rw [State.scanFault_faultReg, State.faultWord, ← PerAdc.get_a, hd]; rfl⟩
      | b => exact .inr ⟨s.pend.a, by rw [State.scanFault_faultReg, State.faultWord, ← PerAdc.get_b, hd]; rfl⟩⟩ }

theorem pend_of_timedOut {d : Dev} (h : s.timedOut d = true) : s.pend.get d = true := by
  unfold State.timedOut State.unanswered at h
  simp only [Bool.and_eq_true] at h
  exact h.1.1

/-- The timeout check faults the scan for an ADC that is pending, or changes nothing (R209). -/
theorem checkTimeout_cases (s : State) :
    (∃ d, s.pend.get d = true ∧
      s.checkTimeout = { s.scanFault (timeoutCause d) with err := s.checkTimeout.err }) ∨ s.checkTimeout = s := by
  unfold State.checkTimeout
  dsimp only
  rw [flagTimeout_frame (s.flagTimeout _ _), flagTimeout_frame s]
  cases ha : s.timedOut .a with
  | true => exact .inl ⟨.a, pend_of_timedOut ha, rfl⟩
  | false =>
    cases hb : s.timedOut .b with
    | true => exact .inl ⟨.b, pend_of_timedOut hb, rfl⟩
    | false => exact .inr rfl

theorem countTick_both_frame (s : State) :
    (s.countTick .a).countTick .b = { s with cnt := ((s.countTick .a).countTick .b).cnt } := by
  rw [countTick_frame (s.countTick .a), countTick_frame s]

/-- A tick of WAIT leaves the scan running, or faults it for an ADC that is pending. -/
theorem tick_scans_or_faults (hscan : s.state = .scanning) (hwait : s.phase = .wait) :
    s.tick.state = .scanning ∨
      ∃ d, s.pend.get d = true ∧ s.tick = { s.scanFault (timeoutCause d) with err := s.tick.err } := by
  have hcount := countTick_both_frame s
  unfold State.tick
  rw [if_pos ⟨hscan, hwait⟩]
  dsimp only
  split
  · rcases checkTimeout_cases ((s.countTick .a).countTick .b) with ⟨d, hd, h⟩ | h
    · rw [hcount] at hd
      refine .inr ⟨d, hd, h.trans ?_⟩
      rw [hcount]
      rfl
    · rw [h, hcount]
      exact .inl hscan
  · rw [hcount]
    exact .inl hscan

theorem State.Inv.tick (hs : s.Inv) : s.tick.Inv := by
  by_cases hg : s.state = .scanning ∧ s.phase = .wait
  · obtain ⟨hscan, hwait⟩ := hg
    rcases tick_scans_or_faults hscan hwait with hrun | ⟨d, hd, hfault⟩
    · obtain ⟨hframe, hcnt⟩ := tick_waiting hscan hwait hrun
      have hpend : ∀ d, s.pend.get d = false → s.tick.cnt.get d = s.cnt.get d := fun d hd => by
        rw [(hcnt d).1, if_neg]
        simp [State.unanswered, hd]
      have hbelow : s.timeout ≠ 0 → ∀ d, s.tick.cnt.get d < s.timeout := fun hto d => by
        by_cases hun : s.unanswered d = true
        · exact (hcnt d).2 hto hun
        · rw [(hcnt d).1, if_neg hun]
          exact hs.timeout hto d
      obtain ⟨hphase, hflags⟩ := hs.pend
      rw [hframe]
      exact { hs with
        pend := ⟨hphase, fun d => ⟨fun hd =>
          ⟨((hflags d).1 hd).1, (hpend d hd).trans ((hflags d).1 hd).2⟩, (hflags d).2⟩⟩
        timeout := hbelow }
    · exact (hs.scanFault hd).of_frame (hfault.trans (by rw [hfault]))
  · have hidle : s.tick = s := if_neg hg
    rw [hidle]
    exact hs

/-! ### RESET and the whole step -/

/-- The state after RESET has the invariant, whatever state it was taken in (R60, R340). -/
theorem resetStep_inv (s : State) : s.resetStep.Inv where
  cursor := ⟨fun _ => rfl, Nat.zero_le _, ScanState.noConfusion, fun _ => rfl⟩
  pend := .of_clear Phase.noConfusion fun d => by cases d <;> exact ⟨rfl, rfl, rfl⟩
  timeout := .of_zero fun d => by cases d <;> rfl
  chain := ⟨.inl rfl, ScanState.noConfusion⟩
  fault := ⟨fun _ => rfl, ScanState.noConfusion⟩
  handshake := ⟨fun _ => rfl, fun h => h.elim HsState.noConfusion HsState.noConfusion, HsState.noConfusion,
    Bool.noConfusion⟩
  queue := ⟨Nat.zero_le _, fun _ h => nomatch h⟩
  stores := ⟨⟨rfl, rfl, rfl⟩, Memory.below_nil _, Memory.below_nil _, Memory.below_nil _⟩
  select := ⟨rfl, rfl⟩

/-- Every agent's operation keeps the invariant. -/
theorem keptByAgents_inv : KeptByAgents State.Inv where
  waiting _ m _ hs := hs.of_frame (by cases m <;> rfl)
  returned _ m _ hs := hs.of_frame (by cases m <;> rfl)
  turns _ _ hs := hs.of_frame rfl
  draws _ _ hs := hs.of_frame rfl
  run _ _ _ hs _ h := exec_inv hs h
  read _ _ _ _ hs h := busRead_inv hs h
  write _ _ _ _ hs _ h := writeReg_inv hs h
  badAccess _ hs := hs.setErr _
  seq _ _ _ hs h := seqStep_inv hs h
  eoc _ _ _ hs := hs.eocDrive ..
  answer _ _ _ hs := hs.of_frame rfl
  tick _ hs := hs.tick
  linkReady _ _ hs := hs.of_frame rfl
  srOut _ _ hs := hs.of_frame rfl
  reset s _ := resetStep_inv s

/-- A wire byte placed from outside runs as its instruction, or is refused (log 9). -/
theorem runWire_inv {d : Dev} {byte : Byte} (hs : s.Inv) (h : s.runWire d byte = .next t) : t.Inv := by
  unfold State.runWire at h
  split at h
  · exact exec_inv hs h
  · cases h

end Invariant

/-- Settles O55: every agent's operation keeps each clause, and so does a wire byte placed from outside. -/
theorem stepKeepsTheInvariant : Obligations.StepKeepsTheInvariant := by
  intro s t hs h
  cases hport : s.linkPort with
  | none => exact keptByAgents_inv.step hport hs h
  | some placed =>
    obtain ⟨d, byte⟩ := placed
    unfold step State.machineStep at h
    rw [hport] at h
    exact runWire_inv (hs.of_frame rfl) h

/-- Settles O54: the machine starts in the state a RESET step leaves, but for the count of RESETs. -/
theorem invariantHoldsAtReset : Obligations.InvariantHoldsAtReset := by
  have hpins : State.reset.resetStep.pins = State.reset.pins := by
    simp [State.resetStep, State.reset, Cfg.clearAsserted]
  refine (resetStep_inv State.reset).of_frame ?_
  rw [hpins]
  rfl

/-! ## The register map (R54, R56, R59) -/

/-- Above the single registers only the windows are mapped. -/
theorem regAt_above (p : Params) {off : Nat} (h : 0x040 < off) : regAt p off = windowAt p off := by
  unfold regAt
  rw [lookup_above h]

/-- Up to 0x040 every aligned offset has a single register. -/
theorem regAt_single_isSome (p : Params) {off : Nat} (h : off ≤ 0x040) (ha : off % 4 = 0) : regAt p off ≠ none := by
  have hlookup : ∀ k ≤ 0x040, k % 4 = 0 → (regTable.lookup k).isSome := by decide
  obtain ⟨r, hr⟩ := Option.isSome_iff_exists.mp (hlookup off h ha)
  unfold regAt
  rw [hr]
  exact Option.some_ne_none r

theorem windowAt_rowbuf {p : Params} {k : Nat} (hk : 4 * k < p.rowWidth) :
    windowAt p (0x080 + 4 * k) = some (.rowbuf k) := by
  unfold windowAt windowWords
  rw [if_pos (by omega), Nat.add_sub_cancel_left, Nat.mul_div_cancel_left _ (by decide)]

theorem windowAt_qout {p : Params} {k : Nat} (hk : 4 * k < p.rowWidth) :
    windowAt p (0x0C0 + 4 * k) = some (.qout k) := by
  have := windows_fit p
  unfold windowAt windowWords
  rw [if_neg (by omega), if_pos (by omega), Nat.add_sub_cancel_left, Nat.mul_div_cancel_left _ (by decide)]

theorem windowAt_frame {p : Params} {k : Nat} (hk : 4 * k < p.frameBytes) :
    windowAt p (0x1000 + 4 * k) = some (.frame k) := by
  have := windows_fit p
  unfold windowAt windowWords
  rw [if_neg (by omega), if_neg (by omega), if_pos (by omega), Nat.add_sub_cancel_left,
    Nat.mul_div_cancel_left _ (by decide)]

/-- An offset inside 8 KiB is its 13 bits (R81). -/
theorem offset_toNat {n : Nat} (h : n < 0x2000) : (BitVec.ofNat 13 n).toNat = n := by
  rw [BitVec.toNat_ofNat, Nat.mod_eq_of_lt h]

/-- What the map names at a register's own offset, as far as its window reaches. -/
theorem regAt_offset {p : Params} {r : Reg} (hrow : ∀ k, r = .rowbuf k → 4 * k < p.rowWidth)
    (hqout : ∀ k, r = .qout k → 4 * k < p.rowWidth) (hframe : ∀ k, r = .frame k → 4 * k < p.frameBytes) :
    regAt p r.offset.toNat = some r := by
  obtain ⟨hrowFits, hframeFits⟩ := windows_fit p
  cases r with
  | rowbuf k =>
    have hk := hrow k rfl
    rw [Reg.offset, offset_toNat (by omega), regAt_above p (by omega), windowAt_rowbuf hk]
  | qout k =>
    have hk := hqout k rfl
    rw [Reg.offset, offset_toNat (by omega), regAt_above p (by omega), windowAt_qout hk]
  | frame k =>
    have hk := hframe k rfl
    rw [Reg.offset, offset_toNat (by omega), regAt_above p (by omega), windowAt_frame hk]
  | cmd | status | err | config | timeout | col | chain0 | chain1 | fault | qcount | hsVec | hsSp | hsEntry | param
  | mbTx | mbRx | qtag => rfl

theorem windowAt_eq_none_iff (p : Params) (off : Nat) :
    windowAt p off = none ↔
      ¬ (0x080 ≤ off ∧ off < 0x080 + 4 * windowWords p.rowWidth) ∧
        ¬ (0x0C0 ≤ off ∧ off < 0x0C0 + 4 * windowWords p.rowWidth) ∧
        ¬ (0x1000 ≤ off ∧ off < 0x1000 + 4 * windowWords p.frameBytes) := by
  unfold windowAt
  split
  · next h => exact iff_of_false (Option.some_ne_none _) fun hn => hn.1 h
  · next hrow =>
    rw [and_iff_right hrow]
    split
    · next h => exact iff_of_false (Option.some_ne_none _) fun hn => hn.1 h
    · next hqout =>
      rw [and_iff_right hqout]
      split
      · next h => exact iff_of_false (Option.some_ne_none _) fun hn => hn h
      · next hframe => exact iff_of_true rfl hframe

/-- Settles O46: single registers by the table, windows by their bounds. -/
theorem registerMapIsTheTable : Obligations.RegisterMapIsTheTable := by
  refine fun p => ⟨fun r => regAt_offset, fun off ha => ?_⟩
  rcases Nat.lt_or_ge 0x040 off with h | h
  · rw [regAt_above p h, windowAt_eq_none_iff]
    exact (and_iff_right h).symm
  · exact iff_of_false (regAt_single_isSome p h ha) fun hn => absurd hn.1 (Nat.not_lt.mpr h)

/-! ## STATUS (R46) -/

/-- After reset the four input levels are all of STATUS that is open. -/
theorem reset_statusWord : State.reset.statusWord &&& 0xFFF3FE7F = 0x00000200 := by
  have hinputs : ∀ ea eb link out : Bool,
      State.statusWord { State.reset with eoc := ⟨ea, eb⟩, linkReady := link, srOut := out } &&& 0xFFF3FE7F =
        0x00000200 := by decide
  exact hinputs ..

theorem busRead_status (s : State) : s.busRead ⟨0x004, 4, .read⟩ = some (s.statusWord, s) := by
  unfold State.busRead
  rw [target_of_mem (r := .status) (by decide) (by decide)]
  rfl

theorem handoffStall_eq (s : State) :
    s.handoffStall = decide (s.state = .scanning ∧ s.phase = .handoff ∧ s.config.mode = true ∧
      s.q.length = s.params.qCap) := by
  rw [Bool.eq_iff_iff, decide_eq_true_iff]
  simp [State.handoffStall, State.qFull, and_assoc]

/-- Settles O48: each field is the part of the concatenation that stands at its bits. -/
theorem statusShowsItsFields : Obligations.StatusShowsItsFields := by
  refine ⟨reset_statusWord, fun s => ⟨busRead_status s, ?_⟩⟩
  unfold State.statusWord
  simp (disch := omega) only [getLsbD_append_low, getLsbD_append_high, extract_append_low, extract_append_high,
    getLsbD_bool, extract_all, Nat.reduceSub, true_and]
  refine ⟨?_, rfl, ?_, rfl, rfl, handoffStall_eq s, ?_, rfl⟩
  · cases s.state <;> rfl
  · cases s.phase <;> rfl
  · cases s.hsState <;> rfl

/-! ## The other registers (R43 to R45, R47 to R52) -/

theorem errWord_fields (s : State) : s.errWord.extractLsb' 0 8 = s.err ∧ s.errWord.extractLsb' 8 24 = 0 := by
  refine ⟨BitVec.eq_of_getLsbD_eq fun i hi => ?_, BitVec.eq_of_getLsbD_eq fun i _ => ?_⟩
  · have : i < 32 := by omega
    simp [State.errWord, hi, this]
  · simp [State.errWord]

theorem Cfg.word_fields (c : Cfg) :
    c.word.getLsbD 0 = c.mode ∧ c.word.getLsbD 1 = c.eocMode ∧ c.word.getLsbD 2 = c.wiring ∧
      c.word.getLsbD 3 = c.clrPol ∧ c.word.extractLsb' 4 28 = 0 := by
  unfold Cfg.word
  simp (disch := omega) only [getLsbD_append_low, getLsbD_append_high, extract_append_high, getLsbD_bool, extract_all,
    Nat.reduceSub, true_and]
  rfl

theorem qCap_lt (p : Params) : p.qCap < 2 ^ 16 := by
  have := (colHeight_range p).2
  exact Nat.max_lt.mpr ⟨by omega, p.qCapRaw.isLt⟩

/-- PARAM gives the three numbers of the build (R52). -/
theorem Params.word_fields (p : Params) :
    (p.word.extractLsb' 0 8).toNat = p.colHeight ∧ (p.word.extractLsb' 8 8).toNat = p.channels ∧
      (p.word.extractLsb' 16 16).toNat = p.qCap := by
  have hcols := (colHeight_range p).2
  have hchannels := (channels_range p).2
  unfold Params.word
  simp (disch := omega) only [extract_append_low, extract_append_high, extract_all, Nat.reduceSub, BitVec.toNat_ofNat]
  exact ⟨Nat.mod_eq_of_lt (by omega), Nat.mod_eq_of_lt (by omega), Nat.mod_eq_of_lt (qCap_lt p)⟩

/-- CHAIN0 and CHAIN1 show the two halves of the chain's stages (R48). -/
theorem chain_getLsbD (s : State) {i : Nat} (hi : i < 32) :
    (s.readReg .chain0).getLsbD i = (decide (i < s.params.colHeight) && s.chain.getLsbD i) ∧
      (s.readReg .chain1).getLsbD i = (decide (32 + i < s.params.colHeight) && s.chain.getLsbD (32 + i)) := by
  simp [State.readReg, truncCols_getLsbD, hi]

theorem qcount_toNat {s : State} (h : s.q.length ≤ s.params.qCap) : (s.readReg .qcount).toNat = s.q.length := by
  have := qCap_lt s.params
  rw [State.readReg, BitVec.toNat_setWidth, BitVec.toNat_ofNat]
  omega

theorem col_toNat (s : State) : (s.readReg .col).toNat = s.col.toNat := by
  rw [State.readReg, BitVec.toNat_setWidth]
  have := s.col.isLt
  omega

/-- Settles O49, register by register. -/
theorem registersReadTheirFields : Obligations.RegistersReadTheirFields := fun s =>
  ⟨(errWord_fields s).1, (errWord_fields s).2, s.config.word_fields, rfl, col_toNat s, fun _ hi => chain_getLsbD s hi,
    rfl, qcount_toNat, ⟨rfl, rfl, rfl⟩, s.params.word_fields⟩

/-! ## The state after reset (R60) -/

/-- TIMEOUT_RESET is nonzero (R45). -/
theorem timeoutReset_ne_zero (p : Params) : p.timeoutReset ≠ 0 := by
  unfold Params.timeoutReset
  split
  · decide
  · assumption

/-- Settles O53: the reset values stand in the reset state; PARAM and TIMEOUT are the parameters' own. -/
theorem resetStateIsTheSpecs : Obligations.ResetStateIsTheSpecs :=
  ⟨⟨rfl, rfl, rfl, rfl, rfl, rfl, rfl, rfl, rfl⟩, ⟨rfl, rfl, rfl, rfl, rfl, rfl, rfl⟩, ⟨rfl, rfl, rfl⟩, rfl,
    ⟨rfl, timeoutReset_ne_zero _⟩, rfl, rfl, rfl, rfl, rfl, rfl, rfl, rfl⟩

end Sys2Proof.Machine

/-! The statements of 20_memory.md: what the bus can reach, the data windows, the order of the queue, and the order of a
scan's events. -/

namespace Sys2Proof.Machine

/-! ## Bad accesses (R84) -/

theorem target_eq_none {p : Params} {acc : BusAccess}
    (h : acc.bytes ≠ 4 ∨ acc.off.toNat % 4 ≠ 0 ∨ regAt p acc.off.toNat = none) : acc.target p = none := by
  rcases h with hwidth | haligned | hmap
  · exact target_of_wide (.inl hwidth)
  · exact target_of_wide (.inr haligned)
  · unfold BusAccess.target
    rw [hmap, ite_self]

theorem busRead_bad {s : State} {acc : BusAccess} (h : acc.target s.params = none) :
    s.busRead acc = some (0, s.setErr .badAccess) := by
  unfold State.busRead
  rw [h]

theorem busWrite_bad {s : State} {acc : BusAccess} (h : acc.target s.params = none) (v : Word) :
    s.busWrite acc v = .next (s.setErr .badAccess) := by
  unfold State.busWrite
  rw [h]

/-- A write at an offset of the map is a write of the register there. -/
theorem busWrite_mapped {s : State} {acc : BusAccess} {r : Reg} (h : acc.target s.params = some r) (v : Word) :
    s.busWrite acc v = s.writeReg r v := by
  unfold State.busWrite
  rw [h]

/-- Settles O45: an access without a target, then a write to each register that has no arm of its own. -/
theorem badAccessesOnlySetTheirBit : Obligations.BadAccessesOnlySetTheirBit := by
  refine fun s acc => ⟨fun hbad => ?_, fun r v htarget hcmd herr hconfig htimeout hvec hsp hentry hmbRx => ?_⟩
  · have hnone := target_eq_none hbad
    exact ⟨busRead_bad hnone, busWrite_bad hnone⟩
  · rw [busWrite_mapped htarget]
    cases r with
    | cmd | err | config | timeout | hsVec | hsSp | hsEntry | mbRx => contradiction
    | status | col | chain0 | chain1 | fault | qcount | param | mbTx | qtag | rowbuf | qout | frame => rfl

/-! ## Plain reads (R85, R279) -/

theorem busRead_plain {s : State} {acc : BusAccess} {r : Reg} (h : acc.target s.params = some r) (hqtag : r ≠ .qtag)
    (hmbTx : r ≠ .mbTx) : s.busRead acc = some (s.readReg r, s) := by
  unfold State.busRead
  rw [h]
  cases r with
  | qtag | mbTx => contradiction
  | cmd | status | err | config | timeout | col | chain0 | chain1 | fault | qcount | hsVec | hsSp | hsEntry | param
  | mbRx | rowbuf | qout | frame => rfl

/-- Settles O47: only QTAG and MB_TX have a read of their own; the write-only registers are held as 0. -/
theorem plainReadsChangeNothing : Obligations.PlainReadsChangeNothing := by
  refine fun s acc r htarget hqtag hmbTx => ⟨busRead_plain htarget hqtag hmbTx, ?_⟩
  rintro (rfl | rfl) <;> rfl

/-! ## The data windows (R83) -/

theorem windowRead_byte (arr : Nat → Byte) (len k : Nat) {i : Nat} (hi : i < 4) :
    (windowRead arr len k).extractLsb' (8 * i) 8 = windowByte arr len (4 * k + i) := by
  unfold windowRead
  match i, hi with
  | 0, _ | 1, _ | 2, _ | 3, _ =>
    simp (disch := omega) only [extract_append_low, extract_append_high, extract_all, Nat.reduceMul, Nat.reduceSub,
      Nat.add_zero]

/-- Settles O50: each window is a `windowRead` of its own array. -/
theorem windowsPackLittleEndian : Obligations.WindowsPackLittleEndian := fun _ k _ hi =>
  ⟨windowRead_byte _ _ k hi, windowRead_byte _ _ k hi, windowRead_byte _ _ k hi⟩

/-! ## What each operation leaves unchanged -/

/-- What a step did, seen from the state before it: only the schedule and the number of draws moved on. -/
theorem step_did_from {s t : State} (hport : s.linkPort = none) (h : step s = .next t) :
    ∃ ts n, StepDid s { s with turns := ts, draws := n } t := by
  have hdid := step_did hport h
  rw [nextTurn_frame] at hdid
  exact ⟨_, _, hdid⟩

/-- What a command touches: never the configuration, the frame, the queue, the consumer latch or the mailbox. -/
theorem exec_frame {s t : State} {i : Instr} (h : exec i s = .next t) :
    t = { s with
      state := t.state, phase := t.phase, col := t.col, pend := t.pend, edge := t.edge, cnt := t.cnt
      chain := t.chain, rowbuf := t.rowbuf, err := t.err, faultReg := t.faultReg, hsState := t.hsState
      hsIdx := t.hsIdx, cs := t.cs, hist := t.hist, pins := t.pins, answers := t.answers, draws := t.draws } := by
  cases i with
  | nop | illegal | adcConv | adcSetup | adcNull => cases h; rfl
  | initAdc =>
    cases h
    split
    · rw [setupDev_frame (s.setupDev .a), setupDev_frame s]
    · rfl
  | chainClear | startScan | faultClear | adcRequest | adcRead | handshakeStart => cases h; split <;> rfl
  | chainAdvance b =>
    cases h
    split
    · rfl
    · split <;> rfl

/-- `t` is `s` but for what a bus access that runs no command can reach: the queue and its latch, the mailbox, the
writable registers, and what the masters wait on and were given. -/
def OnlyBusReached (s t : State) : Prop :=
  t = { s with
    q := t.q, qout := t.qout, err := t.err, config := t.config, timeout := t.timeout, hsVec := t.hsVec
    hsSp := t.hsSp, hsEntry := t.hsEntry, mbTx := t.mbTx, mbRx := t.mbRx, ctrl := t.ctrl, cons := t.cons
    turns := t.turns, draws := t.draws }

section

variable {s t u : State}

theorem OnlyBusReached.trans (h : OnlyBusReached s t) (h' : OnlyBusReached t u) : OnlyBusReached s u := by
  unfold OnlyBusReached at *
  refine h'.trans ?_
  rw [h]

theorem onlyBusReached_setWaiting (s : State) (m : MasterId) (w : List BusAccess) :
    OnlyBusReached s (s.setWaiting m w) := by cases m <;> rfl

theorem onlyBusReached_pushReturned (s : State) (m : MasterId) (v : Word) :
    OnlyBusReached s (s.pushReturned m v) := by cases m <;> rfl

theorem busRead_onlyBusReached {acc : BusAccess} {v : Word} (h : s.busRead acc = some (v, t)) :
    OnlyBusReached s t := by
  rcases busRead_eq_some h with ⟨-, -, rfl⟩ | ⟨-, e, rest, -, -, rfl⟩ | ⟨-, -, -, rfl⟩ | ⟨-, -, -, -, -, rfl⟩ <;> rfl

theorem writeReg_onlyBusReached {r : Reg} {v : Word} (hr : r ≠ .cmd) (h : s.writeReg r v = .next t) :
    OnlyBusReached s t := by
  have hframe := writeReg_frame hr h
  unfold OnlyBusReached
  rw [hframe]

/-! What a master's turn reached, from the state `s` the turn was taken in. -/

theorem masterRead_onlyBusReached {m : MasterId} {w : List BusAccess} {acc : BusAccess} {v : Word}
    (h : (s.setWaiting m w).busRead acc = some (v, t)) : OnlyBusReached s (t.pushReturned m v) :=
  ((onlyBusReached_setWaiting ..).trans (busRead_onlyBusReached h)).trans (onlyBusReached_pushReturned ..)

theorem masterBadWrite_onlyBusReached (s : State) (m : MasterId) (w : List BusAccess) :
    OnlyBusReached s ((s.setWaiting m w).setErr .badAccess) := (onlyBusReached_setWaiting s m w).trans rfl

theorem masterWrite_onlyBusReached {m : MasterId} {w : List BusAccess} {r : Reg} {v : Word} (hr : r ≠ .cmd)
    (h : (s.setWaiting m w).writeReg r v = .next t) : OnlyBusReached s t :=
  (onlyBusReached_setWaiting ..).trans (writeReg_onlyBusReached hr h)

/-! ## What the bus can reach (R98) -/

/-- The access the next step tries is told by its turn. -/
theorem nextAccess_eq {k : Turn} (hk : s.nextTurn.1 = k) : s.nextAccess = s.nextTurn.2.accessTried k := by
  rw [← hk]
  rfl

/-- A step that tries an access and runs no command reaches only what the bus can reach. -/
theorem StepDid.onlyBusReached {v : State} (h : StepDid s v t) (haccess : s.nextAccess.isSome = true)
    (hcommand : s.nextCommand = none) : OnlyBusReached v t := by
  have htries : ∀ k, s.nextTurn.1 = k → (s.nextTurn.2.accessTried k).isSome = true := fun k hk =>
    nextAccess_eq hk ▸ haccess
  cases h with
  | waited m w => exact onlyBusReached_setWaiting v m w
  | read m w acc x u hacc hop hr => exact masterRead_onlyBusReached hr
  | badWrite m w => exact masterBadWrite_onlyBusReached v m w
  | write m w acc x r t hacc hop ht hr he => exact masterWrite_onlyBusReached hr he
  | command m w i t hc => exact nomatch hc.symm.trans hcommand
  | seq k t hk | disabled k hk | eoc d x hk | answer d bs hk | tick hk | linkReady x hk | srOut x hk | reset hk =>
    exact nomatch htries _ hk

end

/-- Settles O37: nothing the statement names is among what such a step reaches. -/
theorem busNeverWritesScanState : Obligations.BusNeverWritesScanState := by
  intro s t hport h haccess hcommand
  obtain ⟨ts, n, hdid⟩ := step_did_from hport h
  have ht := hdid.onlyBusReached haccess hcommand
  rw [OnlyBusReached] at ht
  rw [ht]
  exact ⟨rfl, rfl, rfl, rfl, rfl, rfl, rfl, fun _ => rfl, fun _ => rfl, rfl⟩

/-! ## The order of the queue (R96) -/

/-- `e` is the head of the queue of `s`, taken and copied into the latch (R233). -/
def TookHead (s t : State) : Prop :=
  ∃ e, s.q = e :: t.q ∧ ∀ j, j < e.payload.length → e.payload[j]? = some (t.qoutAt j)

section

variable {s t : State}

/-- The latch shows the payload that was copied into it. -/
theorem qoutAt_putBytes (s : State) {bs : List Byte} {j : Nat} (hj : j < bs.length) :
    bs[j]? = some (State.qoutAt { s with qout := Memory.putBytes [] 0 bs } j) := by
  have hfind := Memory.find_putBytes_in [] 0 bs hj
  rw [Nat.zero_add] at hfind
  simp [State.qoutAt, hfind, hj]

/-- A read keeps the queue, or it is of QTAG and takes the head. -/
theorem busRead_queue {acc : BusAccess} {v : Word} (h : s.busRead acc = some (v, t)) :
    t.q = s.q ∨ (acc.target s.params = some .qtag ∧ TookHead s t) := by
  rcases busRead_eq_some h with ⟨-, -, rfl⟩ | ⟨htarget, e, rest, hq, -, rfl⟩ | ⟨-, -, -, rfl⟩ | ⟨-, -, -, -, -, rfl⟩
  · exact .inl rfl
  · exact .inr ⟨htarget, e, hq, fun j hj => qoutAt_putBytes s hj⟩
  · exact .inl rfl
  · exact .inl rfl

/-- The delivery of a row keeps the queue or appends the row under its tag (R203, R231). -/
theorem deliver_queue (s : State) :
    s.deliver.q = s.q ∨ s.deliver.q = s.q ++ [⟨s.rowBytes, rowTag s.params s.col⟩] := by
  unfold State.deliver
  split
  · exact .inr rfl
  · exact .inl rfl

/-- Of the steps of SEQ only HANDOFF touches the queue. -/
theorem seqStep_queue {k : SeqStep} (h : s.seqStep k = some t) :
    t.q = s.q ∨ (k = .handoff ∧ s.state = .scanning ∧ t.q = s.q ++ [⟨s.rowBytes, rowTag s.params s.col⟩]) := by
  cases k with
  | issue => obtain ⟨-, rfl⟩ := issue_eq_some h; exact .inl rfl
  | service d => obtain ⟨-, rfl⟩ := service_eq_some h; exact .inl rfl
  | handoff =>
    obtain ⟨⟨hscan, -⟩, hend⟩ := handoff_eq_some h
    have hq : t.q = s.deliver.q := by rcases hend with ⟨-, rfl⟩ | ⟨-, rfl⟩ <;> rfl
    rw [hq]
    exact (deliver_queue s).imp_right fun happend => ⟨rfl, hscan, happend⟩
  | hsSend => obtain ⟨-, w, -, rfl⟩ := hsSend_eq_some h; exact .inl rfl
  | hsCheck => obtain ⟨-, w, -, rfl⟩ := hsCheck_eq_some h; rw [hsEcho_frame]; exact .inl rfl

end

/-- Settles O40, by the cases of what a step did: HANDOFF, a QTAG read and RESET are the three that touch the queue. -/
theorem queueIsFifo : Obligations.QueueIsFifo := by
  intro s t hport h
  obtain ⟨ts, n, hdid⟩ := step_did_from hport h
  cases hdid with
  | waited m w => exact .inl (State.setWaiting_q ..)
  | read m w acc x u hacc hop hr =>
    rcases busRead_queue hr with hq | ⟨htarget, e, hq, hlatch⟩
    · exact .inl (by simpa using hq)
    · refine .inr (.inr (.inl ⟨⟨acc, hacc, hop, by simpa using htarget⟩, e, by simpa using hq, fun j hj => ?_⟩))
      simpa [State.qoutAt] using hlatch j hj
  | badWrite m w => exact .inl (by simp)
  | command m w i t hc hi he =>
    rw [exec_frame he]
    exact .inl (State.setWaiting_q ..)
  | write m w acc x r t hacc hop ht hr he =>
    rw [writeReg_frame hr he]
    exact .inl (State.setWaiting_q ..)
  | seq k t hk he =>
    rcases seqStep_queue he with hq | ⟨rfl, hscan, happend⟩
    · exact .inl hq
    · exact .inr (.inl ⟨hk, hscan, happend⟩)
  | eoc d x => rw [eocDrive_frame]; exact .inl rfl
  | tick => rw [tick_frame]; exact .inl rfl
  | disabled | answer | linkReady | srOut => exact .inl rfl
  | reset hk => exact .inr (.inr (.inr ⟨hk, rfl⟩))

/-! ## The order of a scan's events (R95, R210) -/

/-! ### The events of one column -/

section

variable {p : Params} {s t : State} {d : Dev} {evs : List Event}

theorem columnEvents_requests (p : Params) (ra rb : List Byte) :
    ColumnEvents p [] [requestEvent p .a ra, requestEvent p .b rb] := ⟨ra, rb, [], rfl, rfl⟩

theorem ColumnEvents.read {reads : List Dev} (h : ColumnEvents p reads evs) (d : Dev) (rx : List Byte) :
    ColumnEvents p (reads ++ [d]) (evs ++ [readEvent p d rx]) := by
  obtain ⟨ra, rb, rxs, hlen, rfl⟩ := h
  refine ⟨ra, rb, rxs ++ [rx], by simp [hlen], ?_⟩
  rw [List.zipWith_append hlen.symm, List.append_assoc]
  rfl

theorem currentColumn_issue (h : s.phase = .issue) : CurrentColumn s evs ↔ evs = [] := by
  unfold CurrentColumn
  rw [h]

theorem currentColumn_handoff (h : s.phase = .handoff) :
    CurrentColumn s evs ↔ ColumnEvents s.params [.a, .b] evs ∨ ColumnEvents s.params [.b, .a] evs := by
  unfold CurrentColumn
  rw [h]

/-- The reads made in WAIT while ADC `d` is pending: the other ADC's, unless it is pending too. -/
def State.readsBefore (s : State) (d : Dev) : List Dev := if s.pend.get d.other then [] else [d.other]

theorem currentColumn_wait (h : s.phase = .wait) (hd : s.pend.get d = true) :
    CurrentColumn s evs ↔ ColumnEvents s.params (s.readsBefore d) evs := by
  unfold CurrentColumn
  rw [h]
  cases d with
  | a =>
    rw [PerAdc.get_a] at hd
    cases hb : s.pend.b <;> simp [State.readsBefore, Dev.other, hd, hb]
  | b =>
    rw [PerAdc.get_b] at hd
    cases ha : s.pend.a <;> simp [State.readsBefore, Dev.other, hd, ha]

/-- With the read of ADC `d` the column is complete, or the other ADC's read is still to come (R201). -/
theorem currentColumn_served (h : s.phase = .wait) (hcol : ColumnEvents s.params (s.readsBefore d ++ [d]) evs) :
    CurrentColumn (s.served d) evs := by
  unfold State.readsBefore at hcol
  unfold CurrentColumn
  cases d with
  | a =>
    cases hb : s.pend.b with
    | true => simpa [Dev.other, h, hb] using hcol
    | false =>
      have hboth : ColumnEvents s.params [.b, .a] evs := by simpa [Dev.other, hb] using hcol
      simp [hb, hboth]
  | b =>
    cases ha : s.pend.a with
    | true => simpa [Dev.other, h, ha] using hcol
    | false =>
      have hboth : ColumnEvents s.params [.a, .b] evs := by simpa [Dev.other, ha] using hcol
      simp [ha, hboth]

theorem finishedColumn_of_handoff (h : s.phase = .handoff) (hcol : CurrentColumn s evs) :
    FinishedColumn s.params (evs ++ [.shift false]) := ⟨evs, (currentColumn_handoff h).mp hcol, rfl⟩

/-! ### Steps that make no event of a scan -/

theorem State.JoinOrder.of_not_scanning (h : t.state ≠ .scanning) : t.JoinOrder := fun hscan => absurd hscan h

/-- The order of events is told by the scan cursor, the pending flags and the history alone. -/
theorem State.JoinOrder.of_eq (hs : s.JoinOrder) (hparams : t.params = s.params := by rfl)
    (hstate : t.state = s.state := by rfl) (hphase : t.phase = s.phase := by rfl) (hcol : t.col = s.col := by rfl)
    (hpend : t.pend = s.pend := by rfl) (hhist : t.hist = s.hist := by rfl) : t.JoinOrder := by
  unfold State.JoinOrder CurrentColumn at *
  rw [hparams, hstate, hphase, hcol, hpend, hhist]
  exact hs

theorem State.JoinOrder.setErr (hs : s.JoinOrder) (e : ErrBit) : (s.setErr e).JoinOrder :=
  hs.of_eq

theorem State.JoinOrder.of_bus (hs : s.JoinOrder) (h : OnlyBusReached s t) : t.JoinOrder := by
  rw [OnlyBusReached] at h
  rw [h]
  exact hs.of_eq

/-! ### Commands -/

/-- A command that needs IDLE or DONE and does not start a scan is rejected during one. -/
theorem State.JoinOrder.ite_idleOrDone (hs : s.JoinOrder) (hstate : t.state = s.state) {e : ErrBit} :
    (if s.idleOrDone then t else s.setErr e).JoinOrder := by
  split
  · exact .of_not_scanning (hstate ▸ not_scanning_of_idleOrDone (by assumption))
  · exact hs.setErr e

/-- START_SCAN: the history ends in the seed (R191). -/
theorem startScan_joinOrder (hs : s.JoinOrder) (h : exec .startScan s = .next t) : t.JoinOrder := by
  cases h
  split
  · exact fun _ => ⟨s.hist, [], [], by simp, rfl, by simp, (currentColumn_issue rfl).mpr rfl⟩
  · exact hs.setErr _

theorem exec_joinOrder {i : Instr} (hs : s.JoinOrder) (hi : i.cmdWord?.isSome) (h : exec i s = .next t) :
    t.JoinOrder := by
  cases i with
  | nop => cases h; exact hs
  | initAdc => cases h; exact hs.ite_idleOrDone (by rw [setupDev_frame (s.setupDev .a), setupDev_frame s])
  | chainClear =>
    cases h
    split
    · exact hs.setErr _
    · exact .of_not_scanning (by assumption)
  | chainAdvance b =>
    cases h
    split
    · exact hs.setErr _
    · rename_i hok
      split
      · exact hs.setErr _
      · exact .of_not_scanning (not_scanning_of_idleOrDone (s := s) (by simpa using hok))
  | startScan => exact startScan_joinOrder hs h
  | faultClear =>
    cases h
    split
    · exact .of_not_scanning ScanState.noConfusion
    · exact hs.setErr _
  | adcRequest d | adcRead d => cases h; exact hs.ite_idleOrDone (by simp)
  | handshakeStart =>
    cases h
    split
    · exact hs.of_eq
    · exact hs.setErr _
  | illegal w => cases h; exact hs.setErr _
  | adcConv | adcSetup | adcNull => exact nomatch hi

/-! ### The steps of SEQ -/

/-- A step that stays in the column and records the events `evs` of it. -/
theorem State.JoinOrder.record (hs : s.JoinOrder) (hscan : s.state = .scanning) (hparams : t.params = s.params)
    (hcol : t.col = s.col) (hhist : t.hist = s.hist ++ evs)
    (hnow : ∀ now, CurrentColumn s now → CurrentColumn t (now ++ evs)) : t.JoinOrder := by
  intro _
  obtain ⟨before, cols, now, hsplit, hlen, hfinished, hcurrent⟩ := hs hscan
  refine ⟨before, cols, now ++ evs, ?_, by rw [hcol, hlen], by rwa [hparams], hnow now hcurrent⟩
  rw [hhist, hsplit, List.append_assoc]

theorem issue_joinOrder (hs : s.JoinOrder) (h : s.issue = some t) : t.JoinOrder := by
  obtain ⟨⟨hscan, hphase⟩, rfl⟩ := issue_eq_some h
  refine hs.record hscan rfl rfl (List.append_assoc s.hist _ _) fun now hnow => ?_
  obtain rfl := (currentColumn_issue hphase).mp hnow
  exact (currentColumn_wait (d := .a) rfl rfl).mpr (columnEvents_requests ..)

theorem service_joinOrder {d : Dev} (hs : s.JoinOrder) (h : s.service d = some t) : t.JoinOrder := by
  obtain ⟨hready, rfl⟩ := service_eq_some h
  obtain ⟨hscan, hwait, hcond, -⟩ := (serviceReady_iff s d).mp hready
  have hpend : s.pend.get d = true := by
    unfold State.cond at hcond
    exact (Bool.and_eq_true_iff.mp hcond).1
  refine hs.record hscan rfl rfl (State.readIntoHalf_hist s d) fun now hnow => ?_
  exact currentColumn_served (s := s.readIntoHalf d) hwait (((currentColumn_wait hwait hpend).mp hnow).read ..)

/-- Before the last column the cursor moves on by one. -/
theorem State.Inv.col_succ (hs : s.Inv) (hlast : s.col ≠ s.params.lastCol) : (s.col + 1).toNat = s.col.toNat + 1 := by
  obtain ⟨-, hcol, -⟩ := hs.cursor
  have := s.params.lastCol.isLt
  have : s.col.toNat ≠ s.params.lastCol.toNat := fun h => hlast (BitVec.eq_of_toNat_eq h)
  exact BitVec.toNat_add_of_lt (by simp; omega)

/-- `Advance()`: the shift finishes the column, and the next one has no event yet (R206). -/
theorem State.JoinOrder.advance (hs : s.JoinOrder) (hscan : s.state = .scanning) (hphase : s.phase = .handoff)
    (hcol : (s.col + 1).toNat = s.col.toNat + 1) : s.advance.JoinOrder := by
  intro _
  obtain ⟨before, cols, now, hsplit, hlen, hfinished, hcurrent⟩ := hs hscan
  refine ⟨before, cols ++ [now ++ [.shift false]], [], ?_, ?_, ?_, (currentColumn_issue rfl).mpr rfl⟩
  · simp [State.advance, hsplit]
  · rw [List.length_append, hlen]
    exact hcol.symm
  · intro c hc
    rcases List.mem_append.mp hc with hc | hc
    · exact hfinished c hc
    · rw [List.mem_singleton.mp hc]
      exact finishedColumn_of_handoff (s := s) hphase hcurrent

theorem handoff_joinOrder (hinv : s.Inv) (hs : s.JoinOrder) (h : s.handoff = some t) : t.JoinOrder := by
  obtain ⟨⟨hscan, hphase, -⟩, ⟨-, rfl⟩ | ⟨hlast, rfl⟩⟩ := handoff_eq_some h
  · exact .of_not_scanning ScanState.noConfusion
  · rw [deliver_frame]
    have hdelivered : State.JoinOrder { s with q := s.deliver.q, frame := s.deliver.frame } :=
      hs.of_eq
    exact hdelivered.advance hscan hphase (hinv.col_succ hlast)

theorem seqStep_joinOrder {k : SeqStep} (hinv : s.Inv) (hs : s.JoinOrder) (h : s.seqStep k = some t) :
    t.JoinOrder := by
  cases k with
  | issue => exact issue_joinOrder hs h
  | service d => exact service_joinOrder hs h
  | handoff => exact handoff_joinOrder hinv hs h
  | hsSend =>
    obtain ⟨-, w, -, rfl⟩ := hsSend_eq_some h
    exact hs.of_eq
  | hsCheck =>
    obtain ⟨-, w, -, rfl⟩ := hsCheck_eq_some h
    rw [hsEcho_frame]
    exact hs.of_eq

/-! ### EOC levels and ticks -/

theorem State.JoinOrder.eocDrive (hs : s.JoinOrder) (d : Dev) (v : Bool) : (s.eocDrive d v).JoinOrder := by
  rw [eocDrive_frame]
  exact hs.of_eq

/-- A tick counts at most, or it ends the scan (R209). -/
theorem State.JoinOrder.tick (hs : s.JoinOrder) : s.tick.JoinOrder := by
  by_cases hguard : s.state = .scanning ∧ s.phase = .wait
  · obtain ⟨hscan, hwait⟩ := hguard
    by_cases hrun : s.tick.state = .scanning
    · rw [(tick_waiting hscan hwait hrun).1]
      exact hs.of_eq
    · exact .of_not_scanning hrun
  · rw [show s.tick = s from if_neg hguard]
    exact hs

end

/-- Settles O56: the reset state is not SCANNING; then by the cases of what a step did. -/
theorem historyKeepsJoinOrder : Obligations.HistoryKeepsJoinOrder := by
  refine ⟨.of_not_scanning ScanState.noConfusion, fun s t hport hinv hs h => ?_⟩
  obtain ⟨ts, n, hdid⟩ := step_did_from hport h
  have hv : State.JoinOrder { s with turns := ts, draws := n } := hs.of_eq
  have hvInv : State.Inv { s with turns := ts, draws := n } := hinv.of_frame rfl
  cases hdid with
  | waited m w => exact hv.of_bus (onlyBusReached_setWaiting ..)
  | read m w acc x u hacc hop hr => exact hv.of_bus (masterRead_onlyBusReached hr)
  | badWrite m w => exact hv.of_bus (masterBadWrite_onlyBusReached ..)
  | command m w i t hc hi he => exact exec_joinOrder (hv.of_bus (onlyBusReached_setWaiting ..)) hi he
  | write m w acc x r t hacc hop ht hr he => exact hv.of_bus (masterWrite_onlyBusReached hr he)
  | seq k t hk he => exact seqStep_joinOrder hvInv hv he
  | eoc d x => exact hv.eocDrive d x
  | tick => exact hv.tick
  | disabled => exact hv
  | answer | linkReady | srOut => exact hv.of_eq
  | reset => exact .of_not_scanning ScanState.noConfusion

end Sys2Proof.Machine

/-! The statements of 30_encoding.md: decoding and encoding invert each other, the rows of the table never overlap,
placed bits run as their instruction, and what travels on the link. -/

namespace Sys2Proof.Machine

/-! ## Decoding inverts encoding (R110 to R117) -/

/-- Settles O1, constructor by constructor. -/
theorem decodeInvertsEncode : Obligations.DecodeInvertsEncode := by
  intro i
  cases i with
  | nop => exact Laws.RoundTrip.nop
  | initAdc => exact Laws.RoundTrip.initAdc
  | chainClear => exact Laws.RoundTrip.chainClear
  | chainAdvance b => exact Laws.RoundTrip.chainAdvance b
  | startScan => exact Laws.RoundTrip.startScan
  | faultClear => exact Laws.RoundTrip.faultClear
  | adcRequest d => exact Laws.RoundTrip.adcRequest d
  | adcRead d => exact Laws.RoundTrip.adcRead d
  | handshakeStart => exact Laws.RoundTrip.handshakeStart
  | illegal w => exact Laws.RoundTrip.illegal w
  | adcConv d cccc => exact Laws.RoundTrip.adcConv d cccc
  | adcSetup d x => exact Laws.RoundTrip.adcSetup d x
  | adcNull d => exact Laws.RoundTrip.adcNull d

/-- The only well-formed instruction of a command word is the one the decoder answers. -/
theorem eq_decodeCmd_of_encode {i : Instr} {w : Word} (hi : i.WellFormed = true) (h : encode i = .cmd w) :
    i = decodeCmd w := by
  have hround := decodeInvertsEncode i hi
  rw [h] at hround
  exact (Except.ok.inj hround).symm

/-- The only well-formed instruction of a byte on a link is the one the decoder answers. -/
theorem decodeWire_of_encode {i : Instr} {d : Dev} {byte : Byte} (hi : i.WellFormed = true)
    (h : encode i = .wire d byte) : decodeWire d byte = .ok i := by
  have hround := decodeInvertsEncode i hi
  rwa [h] at hround

/-! ## Encoding inverts decoding of command words (R113, R114) -/

theorem decodeCmd_reserved {w : Word} (h : w.extractLsb' 8 24 ≠ 0) : decodeCmd w = .illegal w := by
  unfold decodeCmd
  exact if_pos h

/-- A word the decoder calls Illegal is its own encoding, and no row of R111 has it. -/
theorem encode_decodeCmd_of_illegal {w : Word} (h : decodeCmd w = .illegal w) :
    (decodeCmd w).WellFormed = true ∧ encode (decodeCmd w) = .cmd w := by
  rw [h]
  exact ⟨by rw [Instr.WellFormed, (Laws.RoundTrip.decodeCmd_illegal_iff w).mp h]; rfl, rfl⟩

/-- Where the reserved bits are zero, the operation and the argument tell the whole word. -/
theorem encode_decodeCmd_fields : ∀ op arg : BitVec 4,
    (decodeCmd (0#24 ++ op ++ arg)).WellFormed = true ∧
      encode (decodeCmd (0#24 ++ op ++ arg)) = .cmd (0#24 ++ op ++ arg) := by decide

theorem encode_decodeCmd (w : Word) : (decodeCmd w).WellFormed = true ∧ encode (decodeCmd w) = .cmd w := by
  by_cases h : w.extractLsb' 8 24 = 0
  · rw [Laws.RoundTrip.word_of_fields h]
    exact encode_decodeCmd_fields ..
  · exact encode_decodeCmd_of_illegal (decodeCmd_reserved h)

/-- Settles O2: the decoded instruction has the word, and by the round trip no other has it. -/
theorem encodeInvertsDecode : Obligations.EncodeInvertsDecode := fun w =>
  ⟨encode_decodeCmd w, fun _ => eq_decodeCmd_of_encode⟩

/-! ## The bytes on a link (R115 to R117, R119) -/

/-- A byte with bit 7 set and bits 2..0 zero is the conversion request of its field CCCC. -/
theorem convByte_of_format : ∀ byte : Byte, byte.getLsbD 7 = true ∧ byte.extractLsb' 0 3 = 0 →
    convByte (byte.extractLsb' 3 4) = byte := by decide

/-- A byte with bits 7..6 = 01 is the setup byte of its low six bits. -/
theorem setupByte_of_format : ∀ byte : Byte, byte.extractLsb' 6 2 = 0b01 →
    setupByte (byte.extractLsb' 0 6) = byte := by decide

/-- A byte the decoder accepts is the encoding of its instruction. -/
theorem encode_of_decodeWire {d : Dev} {byte : Byte} {i : Instr} (h : decodeWire d byte = .ok i) :
    i.WellFormed = true ∧ encode i = .wire d byte := by
  unfold decodeWire at h
  split at h
  · next hconv => cases h; exact ⟨rfl, congrArg _ (convByte_of_format byte hconv)⟩
  · split at h
    · next hsetup => cases h; exact ⟨rfl, congrArg _ (setupByte_of_format byte hsetup)⟩
    · split at h
      · next hnull => cases h; exact ⟨rfl, congrArg _ hnull.symm⟩
      · cases h

/-- The decoder refuses a byte by naming it. -/
theorem decodeWire_error {d : Dev} {byte : Byte} {e : DecodeError} (h : decodeWire d byte = .error e) :
    e = .notAWireByte byte := by
  unfold decodeWire at h
  split at h
  · cases h
  · split at h
    · cases h
    · split at h
      · cases h
      · exact (Except.error.inj h).symm

/-- Every wire row is an instruction. -/
theorem wellFormed_of_encode_wire {i : Instr} {d : Dev} {byte : Byte} (h : encode i = .wire d byte) :
    i.WellFormed = true := by
  cases i with
  | illegal w => cases h
  | _ => rfl

/-- Settles O3: an accepted byte is its instruction's encoding; a refused one is none's, by the round trip. -/
theorem wireBytesDecodeExactly : Obligations.WireBytesDecodeExactly := by
  intro d byte
  cases h : decodeWire d byte with
  | ok i =>
    obtain ⟨hwf, hencode⟩ := encode_of_decodeWire h
    exact .inl ⟨i, hwf, rfl, hencode⟩
  | error e =>
    refine .inr ⟨congrArg _ (decodeWire_error h), fun i hi => ?_⟩
    have hok := decodeWire_of_encode (wellFormed_of_encode_wire hi) hi
    cases h.symm.trans hok

/-! ## The rows of the table (R111) -/

/-- The two rows fix some bit of the word to different values. -/
def CmdRowsDiffer (r r' : CmdRow) : Prop := r.bits &&& r'.mask ≠ r'.bits &&& r.mask

theorem cmdRows_differ : cmdRows.Pairwise CmdRowsDiffer := by
  unfold CmdRowsDiffer
  decide

theorem CmdRowsDiffer.not_both {r r' : CmdRow} (h : CmdRowsDiffer r r') {w : Word} (hr : r.matches w = true)
    (hr' : r'.matches w = true) : False := by
  apply h
  calc r.bits &&& r'.mask = w &&& r.mask &&& r'.mask := by rw [← eq_of_beq hr]
    _ = w &&& r'.mask &&& r.mask := by ac_rfl
    _ = r'.bits &&& r.mask := by rw [← eq_of_beq hr']

/-- Settles O4: of two matching rows, one pair would not differ. -/
theorem commandRowsNeverOverlap : Obligations.CommandRowsNeverOverlap := by
  intro w
  have hdiffer : (cmdRows.filter (·.matches w)).Pairwise CmdRowsDiffer := cmdRows_differ.filter _
  have hmatches : ∀ r ∈ cmdRows.filter (·.matches w), r.matches w = true := fun r hr => (List.mem_filter.mp hr).2
  generalize cmdRows.filter (·.matches w) = rows at hdiffer hmatches
  match rows with
  | [] | [_] => simp
  | r :: r' :: _ =>
    have hrr' := List.rel_of_pairwise_cons hdiffer (List.mem_cons_self ..)
    exact (hrr'.not_both (hmatches r (by simp)) (hmatches r' (by simp))).elim

/-- Settles O5: the words by evaluating the decoder, the wire bytes as encodings of their instructions. -/
theorem tableWordsDecode : Obligations.TableWordsDecode :=
  ⟨by decide, by decide, decodeWire_convByte .b 13, Laws.RoundTrip.adcSetup .a 0x3F rfl,
    Laws.RoundTrip.adcNull .a rfl⟩

/-! ## A step runs the bits placed for it (log 9, log 18, log 21) -/

section

variable {s : State}

theorem State.with_linkPort_none (h : s.linkPort = none) : { s with linkPort := none } = s := by rw [← h]

/-- A placed wire byte comes before any turn. -/
theorem step_eq_runWire {d : Dev} {byte : Byte} (h : s.linkPort = some (d, byte)) :
    step s = State.runWire { s with linkPort := none } d byte := by
  unfold step State.machineStep
  rw [h]

theorem runWire_ok {d : Dev} {byte : Byte} {i : Instr} (h : decodeWire d byte = .ok i) :
    s.runWire d byte = exec i s := by
  unfold State.runWire
  rw [h]

theorem runWire_error {d : Dev} {byte : Byte} {e : DecodeError} (h : decodeWire d byte = .error e) :
    s.runWire d byte = .refused (.notAWireByte byte) := by
  unfold State.runWire
  rw [h, decodeWire_error h]

/-- A master whose oldest access writes a word to CMD runs the word's command (R272). -/
theorem runMaster_cmdAccess {m : MasterId} {w : Word} {rest : List BusAccess}
    (h : (s.master m).waiting = cmdAccess w :: rest) :
    s.runMaster m = exec (decodeCmd w) (s.setWaiting m rest) := by
  have hwrite : (s.setWaiting m rest).busWrite (cmdAccess w) w = exec (decodeCmd w) (s.setWaiting m rest) :=
    busWrite_mapped (target_cmd ..) w
  unfold State.runMaster
  rw [h]
  exact hwrite

theorem step_withCmdWord (hport : s.linkPort = none) (w : Word) : step (s.withCmdWord w) = exec (decodeCmd w) s := by
  have hrestored : State.setWaiting { (s.withCmdWord w) with turns := s.turns } .ctrl s.ctrl.waiting = s :=
    State.with_linkPort_none hport
  have hrun : step (s.withCmdWord w) = State.runMaster { (s.withCmdWord w) with turns := s.turns } .ctrl :=
    step_eq_turn rfl
  rw [hrun, runMaster_cmdAccess rfl, hrestored]

theorem step_withWireByte (hport : s.linkPort = none) {byte : Byte} {i : Instr} (h : decodeWire .a byte = .ok i) :
    step (s.withWireByte byte) = exec i s := by
  have hrestored : { (s.withWireByte byte) with linkPort := none } = s := State.with_linkPort_none hport
  rw [step_eq_runWire rfl, runWire_ok h, hrestored]

end

/-- Settles O10: the byte's instruction runs, or the byte is refused by name. -/
theorem stepRunsPlacedWireBytes : Obligations.StepRunsPlacedWireBytes := fun _ _ _ hport =>
  ⟨fun _ h => (step_eq_runWire hport).trans (runWire_ok h),
    fun _ h => (step_eq_runWire hport).trans (runWire_error h)⟩

/-- The wire row of eight bits of the table is the byte's instruction on the link of device A. -/
theorem decodeWire_of_decodeTableWord {w : Nat} {i : Instr} (h : decodeTableWord 8 w = some i) :
    decodeWire .a (BitVec.ofNat 8 w) = .ok i := by
  have hwire : (decodeWire .a (BitVec.ofNat 8 w)).toOption = some i := h
  cases hd : decodeWire .a (BitVec.ofNat 8 w) with
  | ok j => rw [hd] at hwire; exact congrArg _ (Option.some.inj hwire)
  | error e => rw [hd] at hwire; cases hwire

/-- Settles O11: a word runs as CTRL's write to CMD, a byte as the wire byte of device A. -/
theorem placedBitsRunNext : Obligations.PlacedBitsRunNext := by
  refine fun s w hport => ⟨fun i h => ?_, fun i h => ?_⟩
  · obtain rfl : decodeCmd (BitVec.ofNat 32 w) = i := Option.some.inj h
    exact step_withCmdWord hport _
  · exact step_withWireByte hport (decodeWire_of_decodeTableWord h)

/-! ## The transactions on the link (R20, R119, R140) -/

theorem lane_eq (s : State) (d : Dev) :
    (s.config.wiring = false → s.lane d = .own d) ∧ (s.config.wiring = true → s.lane d = .shared) :=
  ⟨fun h => if_neg (Bool.eq_false_iff.mp h), fun h => if_pos h⟩

/-- What a transaction of one byte touches, whatever the byte is. -/
theorem linkXfer_byte (s : State) (d : Dev) (byte : Byte) :
    (s.linkXfer d [byte] []).1 = { s with
      hist := s.hist ++ [.xfer d [byte] (s.answerBytes d [] 1)]
      cs := s.cs.set d false
      pins := s.pins ++ [.cs d true, .data (s.lane d) byte, .cs d false]
      draws := s.draws + 1 } := linkXfer_frame ..

/-- What a read transaction touches. -/
theorem readTransaction_frame (s : State) (d : Dev) :
    (s.readTransaction d).1 = { s with
      hist := s.hist ++ [readEvent s.params d (s.readTransaction d).2]
      cs := s.cs.set d false
      pins := s.pins ++ s.framePins d (List.replicate s.params.responseLength nullByte)
      answers := s.answers.set d (s.answers.get d).tail
      draws := (s.readTransaction d).1.draws } := by
  cases d <;> rfl

/-- Settles O24: each row is a `linkXfer`, the read taking the answer the environment has placed for it. -/
theorem wireRowsMakeOneTransaction : Obligations.WireRowsMakeOneTransaction := by
  refine fun s d => ⟨lane_eq s d, fun cccc => ⟨_, _, rfl, answerBytes_length .., linkXfer_byte s d _⟩,
    fun x => ⟨_, _, rfl, answerBytes_length .., linkXfer_byte s d _⟩,
    _, (s.readTransaction d).2, rfl, readTransaction_length s d, ?_⟩
  have hframe := readTransaction_frame s d
  rw [State.framePins, List.map_replicate, ← List.append_assoc, ← List.append_assoc] at hframe
  exact hframe

/-! ## What travels on the link (R119) -/

/-- Every transaction of the history is one of the three the block makes. -/
def State.LinkOk (s : State) : Prop := ∀ e ∈ s.hist, e.Legal s.params

section

variable {s t : State}

theorem State.LinkOk.of_eq (hs : s.LinkOk) (hparams : t.params = s.params := by rfl)
    (hhist : t.hist = s.hist := by rfl) : t.LinkOk := by
  unfold State.LinkOk
  rw [hparams, hhist]
  exact hs

theorem State.LinkOk.record (hs : s.LinkOk) {e : Event} (hhist : t.hist = s.hist ++ [e]) (he : e.Legal s.params)
    (hparams : t.params = s.params := by rfl) : t.LinkOk := by
  intro e' he'
  rw [hhist] at he'
  rw [hparams]
  rcases List.mem_append.mp he' with hold | hnew
  · exact hs e' hold
  · rw [List.mem_singleton.mp hnew]
    exact he

theorem State.LinkOk.setErr (hs : s.LinkOk) (e : ErrBit) : (s.setErr e).LinkOk := hs.of_eq

theorem State.LinkOk.of_bus (hs : s.LinkOk) (h : OnlyBusReached s t) : t.LinkOk := by
  rw [OnlyBusReached] at h
  rw [h]
  exact hs.of_eq

/-- An effect that is carried out or refused with an error bit. -/
theorem State.LinkOk.ite_setErr {c : Prop} [Decidable c] {e : ErrBit} (hs : s.LinkOk) (ht : t.LinkOk) :
    (if c then t else s.setErr e).LinkOk := by
  split
  · exact ht
  · exact hs.setErr e

/-! ### The operations that record an event -/

theorem State.LinkOk.setupDev (hs : s.LinkOk) (d : Dev) : (s.setupDev d).LinkOk := by
  unfold State.setupDev
  split
  · exact hs.record (State.linkXfer_hist ..) ⟨.inl rfl, answerBytes_length ..⟩
  · exact hs

theorem State.LinkOk.requestConversion (hs : s.LinkOk) (d : Dev) : (s.requestConversion d).LinkOk :=
  hs.record (State.requestConversion_hist ..) ⟨.inr (.inl rfl), answerBytes_length ..⟩

theorem State.LinkOk.readIntoHalf (hs : s.LinkOk) (d : Dev) : (s.readIntoHalf d).LinkOk :=
  hs.record (State.readIntoHalf_hist ..) ⟨.inr (.inr rfl), answerBytes_length ..⟩

theorem State.LinkOk.chainClear (hs : s.LinkOk) : s.chainClear.LinkOk := hs.record (State.chainClear_hist s) trivial

theorem State.LinkOk.chainShift (hs : s.LinkOk) (b : Bool) : (s.chainShift b).LinkOk :=
  hs.record (State.chainShift_hist s b) trivial

/-! ### Commands and the steps of SEQ -/

/-- A command makes no transaction but the setups, a request or a read. -/
theorem exec_linkOk {i : Instr} (hs : s.LinkOk) (hi : i.cmdWord?.isSome) (h : exec i s = .next t) : t.LinkOk := by
  cases i with
  | nop => cases h; exact hs
  | initAdc => cases h; exact hs.ite_setErr ((hs.setupDev .a).setupDev .b)
  | chainClear =>
    cases h
    split
    · exact hs.setErr _
    · exact hs.chainClear
  | chainAdvance b =>
    cases h
    split
    · exact hs.setErr _
    · split
      · exact hs.setErr _
      · exact hs.chainShift b
  | startScan => cases h; exact hs.ite_setErr (hs.chainClear.chainShift true).of_eq
  | faultClear => cases h; exact hs.ite_setErr hs.of_eq
  | adcRequest d => cases h; exact hs.ite_setErr (hs.requestConversion d)
  | adcRead d => cases h; exact hs.ite_setErr (hs.readIntoHalf d)
  | handshakeStart => cases h; exact hs.ite_setErr hs.of_eq
  | illegal w => cases h; exact hs.setErr _
  | adcConv | adcSetup | adcNull => exact nomatch hi

theorem State.LinkOk.deliver (hs : s.LinkOk) : s.deliver.LinkOk := by
  rw [deliver_frame]
  exact hs.of_eq

theorem seqStep_linkOk {k : SeqStep} (hs : s.LinkOk) (h : s.seqStep k = some t) : t.LinkOk := by
  cases k with
  | issue =>
    obtain ⟨-, rfl⟩ := issue_eq_some h
    have hcleared : State.LinkOk { s with edge := .both false } := hs.of_eq
    exact ((hcleared.requestConversion .a).requestConversion .b).of_eq
  | service d =>
    obtain ⟨-, rfl⟩ := service_eq_some h
    exact (hs.readIntoHalf d).of_eq
  | handoff =>
    obtain ⟨-, ⟨-, rfl⟩ | ⟨-, rfl⟩⟩ := handoff_eq_some h
    · exact hs.deliver.of_eq
    · exact (hs.deliver.chainShift false).of_eq
  | hsSend =>
    obtain ⟨-, w, -, rfl⟩ := hsSend_eq_some h
    exact hs.of_eq
  | hsCheck =>
    obtain ⟨-, w, -, rfl⟩ := hsCheck_eq_some h
    rw [hsEcho_frame]
    exact hs.of_eq

/-- No agent's operation puts another transaction on the link. -/
theorem keptByAgents_linkOk : KeptByAgents State.LinkOk where
  waiting _ _ _ hs := hs.of_bus (onlyBusReached_setWaiting ..)
  returned _ _ _ hs := hs.of_bus (onlyBusReached_pushReturned ..)
  turns _ _ hs := hs.of_eq
  draws _ _ hs := hs.of_eq
  run _ _ _ hs hi h := exec_linkOk hs hi h
  read _ _ _ _ hs h := hs.of_bus (busRead_onlyBusReached h)
  write _ _ _ _ hs hr h := hs.of_bus (writeReg_onlyBusReached hr h)
  badAccess _ hs := hs.setErr _
  seq _ _ _ hs h := seqStep_linkOk hs h
  eoc _ _ _ hs := by
    rw [eocDrive_frame]
    exact hs.of_eq
  answer _ _ _ hs := hs.of_eq
  tick _ hs := by
    rw [tick_frame]
    exact hs.of_eq
  linkReady _ _ hs := hs.of_eq
  srOut _ _ hs := hs.of_eq
  reset _ _ := fun _ he => nomatch he

end

/-- Settles O58: every agent's operation keeps the history's transactions legal. -/
theorem linkCarriesThreeTransactions : Obligations.LinkCarriesThreeTransactions := fun _ _ hport hs h =>
  keptByAgents_linkOk.step hport hs h

end Sys2Proof.Machine

/-! The statements of 40_adc_driver.md: de-interleaving, the read-back into the row buffer, the driver's commands and
the input turns. -/

namespace Sys2Proof.Machine

/-! ## De-interleaving (R144, R145) -/

/-- `Deint` is the low nibble of hi above the high nibble of lo. -/
theorem deint_eq_append (hi lo : Byte) : deint hi lo = hi.extractLsb' 0 4 ++ lo.extractLsb' 4 4 := by
  apply BitVec.eq_of_getLsbD_eq
  intro i hi8
  rcases Nat.lt_or_ge i 4 with hlow | hhigh
  · rw [getLsbD_append_low _ _ hlow]
    simp [deint, hlow, Nat.add_comm]
  · have hnibble : i - 4 < 4 := by omega
    have hbit : i - 4 < 8 := by omega
    have hpast : lo.getLsbD (4 + i) = false := BitVec.getLsbD_of_ge _ _ (by omega)
    rw [getLsbD_append_high _ _ hhigh]
    simp [deint, hi8, Nat.not_lt.mpr hhigh, hnibble, hpast, BitVec.getLsbD_eq_getElem hbit]

/-- `Deint` as R145 writes it, on natural numbers cut to 8 bits. -/
theorem deint_toNat (hi lo : Byte) : (deint hi lo).toNat = ((hi.toNat <<< 4) ||| (lo.toNat >>> 4)) % 2 ^ 8 := by
  have hlo : (lo.toNat >>> 4) % 2 ^ 8 = lo.toNat >>> 4 := by
    rw [Nat.shiftRight_eq_div_pow]
    omega
  rw [deint, BitVec.toNat_or, BitVec.toNat_shiftLeft, BitVec.toNat_ushiftRight, Nat.or_mod_two_pow, hlo]

theorem deint_padding (hi lo : Byte) (x y : BitVec 4) :
    deint (x ++ hi.extractLsb' 0 4) (lo.extractLsb' 4 4 ++ y) = deint hi lo := by
  rw [deint_eq_append, deint_eq_append hi lo, extract_append_low x _ (by decide), extract_append_high _ y (by decide),
    extract_all, extract_all]

/-- Settles O7: a sample is the two inner nibbles put together, so the padding nibbles cannot matter. -/
theorem deintKeepsInnerNibbles : Obligations.DeintKeepsInnerNibbles :=
  ⟨fun hi lo => ⟨deint_eq_append hi lo, deint_toNat hi lo⟩, deint_padding, by decide, by decide, by decide, by decide⟩

/-- Sample `j` comes from the bytes `2j` and `2j+1` of the response. -/
theorem deintAll_getElem? (rx : List Byte) (j : Nat) (h : 2 * j + 1 < rx.length) :
    (deintAll rx)[j]? = some (deint (rx.getD (2 * j) 0) (rx.getD (2 * j + 1) 0)) := by
  induction rx using deintAll.induct generalizing j with
  | case1 hi lo rest ih =>
    cases j with
    | zero => rfl
    | succ j => simpa [deintAll, Nat.mul_succ] using ih j (by simp at h; omega)
  | case2 rx hshort =>
    match rx, h with
    | hi :: lo :: rest, _ => exact absurd rfl (hshort hi lo rest)

/-- Settles O8: by induction on the pairs of the response. -/
theorem responsePairsMakeSamples : Obligations.ResponsePairsMakeSamples := fun n rx hlen =>
  ⟨deintAll_length n rx hlen, fun j hj => deintAll_getElem? rx j (by omega)⟩

/-! ## A read-back fills its half of the row buffer (R143, R146, R90) -/

/-- What the environment placed for a transaction is what is received (log 7). -/
theorem answerBytes_placed (s : State) (d : Dev) {placed : List Byte} {n i : Nat} (hn : i < n)
    (hi : i < placed.length) : (s.answerBytes d placed n)[i]? = placed[i]? := by
  simp [State.answerBytes, hn, hi]

theorem readTransaction_placed (s : State) (d : Dev) {i : Nat} (hn : i < s.params.responseLength)
    (hi : i < ((s.answers.get d).headD []).length) :
    (s.readTransaction d).2[i]? = ((s.answers.get d).headD [])[i]? :=
  answerBytes_placed s d (by simpa using hn) hi

/-- What a read-back touches: the row buffer, and what its transaction touches. -/
theorem readIntoHalf_frame (s : State) (d : Dev) :
    s.readIntoHalf d = { s with
      rowbuf := (s.readIntoHalf d).rowbuf
      hist := s.hist ++ [readEvent s.params d (s.readTransaction d).2]
      cs := s.cs.set d false
      pins := s.pins ++ s.framePins d (List.replicate s.params.responseLength nullByte)
      answers := s.answers.set d (s.answers.get d).tail
      draws := (s.readIntoHalf d).draws } := by
  cases d <;> rfl

/-- The samples of a read-back stand in their half of the row buffer. -/
theorem readIntoHalf_sample (s : State) (d : Dev) {j : Nat} (hj : j < s.params.channels) :
    (s.readIntoHalf d).rowbufAt (halfBase s.params d + j) =
      deint ((s.readTransaction d).2.getD (2 * j) 0) ((s.readTransaction d).2.getD (2 * j + 1) 0) := by
  have hlen : (s.readTransaction d).2.length = 2 * s.params.channels := readTransaction_length s d
  have hsample := deintAll_getElem? (s.readTransaction d).2 j (by omega)
  obtain ⟨hj', hget⟩ := List.getElem?_eq_some_iff.mp hsample
  simp [State.rowbufAt, Memory.find_putBytes_in _ _ _ hj', hget]

/-- A read-back leaves the bytes outside its half as they are. -/
theorem readIntoHalf_outside (s : State) (d : Dev) {k : Nat}
    (hk : k < halfBase s.params d ∨ halfBase s.params d + s.params.channels ≤ k) :
    (s.readIntoHalf d).rowbufAt k = s.rowbufAt k := by
  have hsamples := deintAll_length s.params.channels _ (readTransaction_length s d)
  simp [State.rowbufAt, Memory.find_putBytes_out s.rowbuf _ _ (hsamples ▸ hk)]

/-! ## Which states accept a command (R273) -/

theorem idleOrDone_of {s : State} (h : s.state = .idle ∨ s.state = .done) : s.idleOrDone = true := by
  rcases h with h | h <;> simp [State.idleOrDone, h]

/-- In IDLE and DONE a command of R273's first column is carried out. -/
theorem next_ite_accepted {s : State} (h : s.state = .idle ∨ s.state = .done) (t u : State) :
    (Host.Outcome.next (if s.idleOrDone then t else u) : Host.Outcome State Fault Refusal) = .next t :=
  congrArg _ (if_pos (idleOrDone_of h))

/-- In SCANNING and FAULT it only sets STATE_REJECT. -/
theorem next_ite_rejected {s : State} (h : s.state = .scanning ∨ s.state = .fault) (t : State) :
    (Host.Outcome.next (if s.idleOrDone then t else s.setErr .stateReject) : Host.Outcome State Fault Refusal) =
      .next { s with err := s.err ||| 0x02 } := by
  rw [if_neg (by rcases h with h | h <;> simp [State.idleOrDone, h])]
  rfl

/-! ## The commands of the driver (R147, R148, R149) -/

/-- Settles O23: an accepted ADC_READ is the read-back `readIntoHalf`. -/
theorem adcReadFillsItsHalf : Obligations.AdcReadFillsItsHalf := by
  refine ⟨fun p => ⟨rfl, rfl⟩, fun s d hstate => ?_⟩
  have hlen : (s.readTransaction d).2.length = 2 * s.params.channels := readTransaction_length s d
  have hframe := readIntoHalf_frame s d
  rw [State.framePins, List.map_replicate, ← List.append_assoc, ← List.append_assoc] at hframe
  exact ⟨s.readIntoHalf d, (s.readTransaction d).2, next_ite_accepted hstate .., hlen,
    fun i hi => readTransaction_placed s d (hi.trans_eq hlen), hframe, fun j => readIntoHalf_sample s d,
    fun k => readIntoHalf_outside s d, fun k => ⟨rfl, rfl⟩⟩

/-- Settles O22: an accepted ADC_REQUEST is one transaction of the request byte. -/
theorem adcRequestSendsOneByte : Obligations.AdcRequestSendsOneByte :=
  ⟨⟨rfl, rfl⟩, fun s d => ⟨fun hstate => ⟨_, s.answerBytes d [] 1, next_ite_accepted hstate .., answerBytes_length ..,
    linkXfer_byte s d _⟩, fun hstate => next_ite_rejected hstate _⟩⟩

/-- The setup byte is SETUP_LOW6 under the bits 01 (R116). -/
theorem setupByte_eq_or : ∀ x : BitVec 6, setupByte x = 0x40 ||| x.setWidth 8 := by decide

/-- While the link is not ready, the setup of an ADC is skipped silently (R147). -/
theorem setupDev_skips {s : State} (h : s.linkReady = false) (d : Dev) : s.setupDev d = s := by
  simp [State.setupDev, h]

/-- With the link ready, the setup of an ADC is one transaction of the setup byte (R147). -/
theorem setupDev_sends {s : State} (h : s.linkReady = true) (d : Dev) :
    s.setupDev d = { s with
      hist := s.hist ++ [.xfer d [0x40 ||| s.params.setupLow6.setWidth 8] (s.answerBytes d [] 1)]
      cs := s.cs.set d false
      pins := s.pins ++ [.cs d true, .data (s.lane d) (0x40 ||| s.params.setupLow6.setWidth 8), .cs d false]
      draws := s.draws + 1 } := by
  rw [State.setupDev, if_pos h, setupByte_eq_or]
  exact linkXfer_byte s d _

/-- Settles O14: an accepted INIT_ADC is the setup of A and then of B, each sent or each skipped. -/
theorem initAdcSetsUpBothAdcs : Obligations.InitAdcSetsUpBothAdcs := by
  refine ⟨rfl, fun s => ⟨fun hstate => ⟨fun hlink => ?_, fun hlink => ?_⟩, fun hstate => next_ite_rejected hstate _⟩⟩
  · have hskip : (s.setupDev .a).setupDev .b = s := by rw [setupDev_skips hlink, setupDev_skips hlink]
    exact (next_ite_accepted hstate ..).trans (congrArg _ hskip)
  · refine ⟨(s.setupDev .a).setupDev .b, s.answerBytes .a [] 1, (s.setupDev .a).answerBytes .b [] 1,
      next_ite_accepted hstate .., answerBytes_length .., answerBytes_length .., ?_⟩
    have hlinkB : (s.setupDev .a).linkReady = true := by rw [setupDev_frame, hlink]
    rw [setupDev_sends hlinkB, setupDev_sends hlink]
    simp [State.lane, PerAdc.both]

/-! ## The inputs (R13, R151, R152) -/

/-- A falling edge latches for a pending ADC in EDGE mode, is reported for one not pending, and only during a scan. -/
theorem fallingEdge_eq (s : State) (d : Dev) :
    s.fallingEdge d = { s with
      edge := if s.state = .scanning ∧ s.pend.get d = true ∧ s.config.eocMode = true then s.edge.set d true else s.edge
      err := if s.state = .scanning ∧ s.pend.get d = false then s.err ||| 0x08 else s.err } := by
  unfold State.fallingEdge
  by_cases hscan : s.state = .scanning
  · cases hpend : s.pend.get d
    · simp [eq_true hscan, State.setErr, ErrBit.mask]
    · cases hmode : s.config.eocMode <;> simp [eq_true hscan]
  · simp [hscan]

/-- EOC_DRIVE sets the level, and a change from high to low is a falling edge. -/
theorem eocDrive_eq (s : State) (d : Dev) (v : Bool) :
    s.eocDrive d v = { s with
      eoc := s.eoc.set d v
      edge := if s.eoc.get d = true ∧ v = false ∧ s.state = .scanning ∧ s.pend.get d = true ∧ s.config.eocMode = true
        then s.edge.set d true else s.edge
      err := if s.eoc.get d = true ∧ v = false ∧ s.state = .scanning ∧ s.pend.get d = false
        then s.err ||| 0x08 else s.err } := by
  unfold State.eocDrive
  by_cases hfall : s.eoc.get d = true ∧ v = false
  · obtain ⟨hhigh, rfl⟩ := hfall
    simp [hhigh, fallingEdge_eq]
  · have hno : ¬ (s.eoc.get d = true ∧ (!v) = true) := by simpa using hfall
    rw [if_neg hno, if_neg fun ⟨hhigh, hlow, _⟩ => hfall ⟨hhigh, hlow⟩,
      if_neg fun ⟨hhigh, hlow, _⟩ => hfall ⟨hhigh, hlow⟩]

/-- Settles O32: EOC_DRIVE by its falling edge, the two PINS inputs as `takeTurn` writes them. -/
theorem inputTurnsSetLevels : Obligations.InputTurnsSetLevels := fun s =>
  ⟨fun d v => ⟨_, rfl, eocDrive_eq s d v⟩, fun _ => rfl, fun _ => rfl⟩

end Sys2Proof.Machine

/-! The statements of 41_column_shift.md: the two commands of the chain, and the sweep of the columns. -/

namespace Sys2Proof.Machine

/-! ## CHAIN_ADVANCE (R172) -/

/-- A shift puts `b` into stage 0 and each stage's bit into the next, within the stages of the build (R21, R170). -/
theorem chainShift_getLsbD (s : State) (b : Bool) {i : Nat} (hi : i < 64) :
    (s.chainShift b).chain.getLsbD i =
      (decide (i < s.params.colHeight) && (if i = 0 then b else s.chain.getLsbD (i - 1))) := by
  rw [State.chainShift_chain, truncCols_getLsbD]
  cases i with
  | zero => simp
  | succ j =>
    have hj : j < 64 := by omega
    simp [hi, BitVec.getLsbD_eq_getElem hj]

/-- CHAIN_ADVANCE with the acceptance of R273 first, as the other commands are written. -/
theorem exec_chainAdvance (b : Bool) (s : State) :
    exec (.chainAdvance b) s = .next
      (if s.idleOrDone then if b ∧ s.chain ≠ 0 then s.setErr .multiHot else s.chainShift b
       else s.setErr .stateReject) := by
  change Host.Outcome.next _ = _
  cases s.idleOrDone <;> rfl

/-- Settles O16: an accepted CHAIN_ADVANCE is refused as MULTI_HOT or is the shift `chainShift`. -/
theorem chainAdvanceShiftsOneStage : Obligations.ChainAdvanceShiftsOneStage := by
  refine ⟨⟨rfl, rfl⟩, fun s b => ?_⟩
  rw [exec_chainAdvance]
  refine ⟨fun hstate => ?_, fun hstate => next_ite_rejected hstate _⟩
  rw [next_ite_accepted hstate]
  refine ⟨fun hb hchain => ?_, fun hfree => ?_⟩
  · rw [if_pos ⟨hb, hchain⟩]
    rfl
  · have hcold : ¬ (b ∧ s.chain ≠ 0) := fun ⟨hb, hchain⟩ => hfree.elim (by simp [hb]) hchain
    rw [if_neg hcold]
    exact ⟨s.chainShift b, rfl, rfl, fun i => chainShift_getLsbD s b⟩

/-! ## The sweep of the columns (R175) -/

/-- The chain after the clear, the seed and `k` zeros. -/
def State.swept (s : State) (k : Nat) : State :=
  (fun u : State => u.chainShift false)^[k] (s.chainClear.chainShift true)

theorem swept_succ (s : State) (k : Nat) : s.swept (k + 1) = (s.swept k).chainShift false :=
  Function.iterate_succ_apply' ..

theorem swept_params (s : State) (k : Nat) : (s.swept k).params = s.params := by
  induction k with
  | zero => rfl
  | succ k ih => rw [swept_succ, State.chainShift_params, ih]

/-- Settles O17: by induction on the zeros. Each moves the selected column up, and an empty chain stays empty. -/
theorem sweepSelectsEachColumn : Obligations.SweepSelectsEachColumn := by
  intro s k
  change (s.swept k).chain = _
  induction k with
  | zero => exact (chainShift_empty true rfl).trans (if_pos (colHeight_range s.params).1).symm
  | succ k ih =>
    rw [swept_succ]
    by_cases hk : k < s.params.colHeight
    · rw [if_pos hk] at ih
      rw [chainShift_column ih, swept_params]
    · have hpast : ¬ k + 1 < s.params.colHeight := fun h => hk (Nat.lt_of_succ_lt h)
      rw [if_neg hk] at ih
      rw [if_neg hpast]
      exact chainShift_empty false ih

/-! ## CHAIN_CLEAR (R171) -/

/-- The pulse of the clear line goes to the level CLR_POL asks for and ends at CLR_POL's own (R176). -/
theorem chainClear_eq (s : State) :
    s.chainClear = { s with
      chain := 0
      hist := s.hist ++ [.clr]
      pins := s.pins ++ [.clear (!s.config.clrPol), .clear s.config.clrPol] } := by
  rw [State.chainClear, Cfg.clearAsserted, Bool.not_not]
  rfl

/-- Settles O15: outside a scan CHAIN_CLEAR is `chainClear`. -/
theorem chainClearEmptiesTheChain : Obligations.ChainClearEmptiesTheChain := by
  refine ⟨rfl, fun s => ⟨fun hstate => ?_, fun hstate => congrArg _ (if_pos hstate)⟩⟩
  rw [← chainClear_eq]
  exact congrArg _ (if_neg hstate)

end Sys2Proof.Machine

/-! The statements of 42_scan_engine.md: the steps of the scan engine, its transition table, no row of two columns, and
a scan whose ADCs answer it reaches DONE. -/

namespace Sys2Proof.Machine

/-! ## START_SCAN (R191) -/

/-- The chain cleared and seeded: the first column is selected (R170, R176). -/
theorem seedChain_eq (s : State) :
    s.chainClear.chainShift true = { s with
      chain := 1
      hist := s.hist ++ [.clr, .shift true]
      pins := s.pins ++ [.clear (!s.config.clrPol), .clear s.config.clrPol, .serialIn true, .clockPulse] } := by
  have hchain : (s.chainClear.chainShift true).chain = 1 := chainShift_empty true rfl
  have hframe : s.chainClear.chainShift true = { s.chainClear with
      chain := (s.chainClear.chainShift true).chain
      hist := s.chainClear.hist ++ [.shift true]
      pins := s.chainClear.pins ++ [.serialIn true, .clockPulse] } := rfl
  rw [hframe, hchain, chainClear_eq]
  simp

/-- Settles O18: an accepted START_SCAN seeds the chain and resets the cursor. -/
theorem startScanSeedsAndResetsCursor : Obligations.StartScanSeedsAndResetsCursor := by
  refine ⟨rfl, fun s => ⟨fun hstate => ?_, fun hstate => next_ite_rejected hstate _⟩⟩
  refine (next_ite_accepted hstate ..).trans ?_
  rw [seedChain_eq]
  rfl

/-! ## ISSUE and SERVICE (R190, R200, R201, R202) -/

section

variable {s : State} {d : Dev}

/-- A turn of a step that is not enabled changes nothing (R24; log 12). -/
theorem disabled_turn {k : SeqStep} (h : s.seqStep k = none) : ¬ s.Enabled k ∧ s.takeTurn (.seq k) = .next s := by
  rw [State.Enabled, State.takeTurn, h]
  exact ⟨Bool.false_ne_true, rfl⟩

/-- A turn of a step that is enabled takes it. -/
theorem enabled_turn {k : SeqStep} {t : State} (h : s.seqStep k = some t) : s.takeTurn (.seq k) = .next t := by
  rw [State.takeTurn, h]
  rfl

/-- The two requests of a column (R141, R200). -/
theorem bothRequests_eq (s : State) :
    (s.requestConversion .a).requestConversion .b = { s with
      hist := s.hist ++ [requestEvent s.params .a (s.answerBytes .a [] 1),
        requestEvent s.params .b ((s.requestConversion .a).answerBytes .b [] 1)]
      cs := .both false
      pins := s.pins ++
        [.cs .a true, .data (s.lane .a) (reqByte s.params.channels), .cs .a false, .cs .b true,
          .data (s.lane .b) (reqByte s.params.channels), .cs .b false]
      draws := s.draws + 2 } := by
  unfold State.requestConversion
  rw [linkXfer_byte (State.linkXfer ..).1, linkXfer_byte s]
  simp [State.lane, PerAdc.both, requestEvent]

end

/-- Settles O26: an enabled ISSUE is the two requests with flags, edges and counters set. -/
theorem issueRequestsBothAdcs : Obligations.IssueRequestsBothAdcs := by
  refine fun s => ⟨fun hscan hphase => ?_, fun hguard => disabled_turn (if_neg hguard)⟩
  refine ⟨_, s.answerBytes .a [] 1, (s.requestConversion .a).answerBytes .b [] 1, enabled_turn (if_pos ⟨hscan, hphase⟩),
    answerBytes_length .., answerBytes_length .., ?_⟩
  rw [bothRequests_eq]
  rfl

section

variable {s : State} {d : Dev}

theorem cond_iff_edge (h : s.config.eocMode = true) :
    s.cond d = true ↔ s.pend.get d = true ∧ s.edge.get d = true := by
  simp [State.cond, h]

theorem cond_iff_level (h : s.config.eocMode = false) :
    s.cond d = true ↔ s.pend.get d = true ∧ s.eoc.get d = false := by
  simp [State.cond, h]

/-- The phase after a SERVICE in WAIT: HANDOFF exactly when the other ADC is not pending (R201). -/
theorem served_phase_of_wait (h : s.phase = .wait) (d : Dev) :
    (s.served d).phase = if s.pend.get d.other then .wait else .handoff := by
  rw [State.served_phase, h]
  cases d with
  | a => cases hb : s.pend.b <;> simp [Dev.other, hb]
  | b => cases ha : s.pend.a <;> simp [Dev.other, ha]

/-- The end of a SERVICE in WAIT. -/
theorem served_eq (h : s.phase = .wait) (d : Dev) :
    s.served d = { s with
      pend := s.pend.set d false
      edge := s.edge.set d false
      cnt := s.cnt.set d 0
      phase := if s.pend.get d.other then .wait else .handoff } := by
  rw [← served_phase_of_wait h d]
  rfl

end

/-- Settles O27: an enabled SERVICE is the read-back of its ADC and then the join. -/
theorem serviceReadsAndJoins : Obligations.ServiceReadsAndJoins := by
  refine fun s d => ⟨cond_iff_edge, cond_iff_level, fun hscan hwait hcond hfirst => ?_, fun hguard => ?_⟩
  · have hready := (serviceReady_iff s d).mpr ⟨hscan, hwait, hcond, hfirst⟩
    have hlen : (s.readTransaction d).2.length = 2 * s.params.channels := readTransaction_length s d
    have hframe := readIntoHalf_frame s d
    rw [State.framePins, List.map_replicate, ← List.append_assoc, ← List.append_assoc] at hframe
    refine ⟨(s.readIntoHalf d).served d, (s.readTransaction d).2, enabled_turn (if_pos hready), hlen,
      fun i hi => readTransaction_placed s d (hi.trans_eq hlen), ?_, fun j => readIntoHalf_sample s d,
      fun k => readIntoHalf_outside s d⟩
    rw [served_eq (s := s.readIntoHalf d) hwait d, hframe]
    rfl
  · exact disabled_turn (if_neg (mt (serviceReady_iff s d).mp hguard))

/-! ## HANDOFF (R203 to R206) -/

section

variable {s : State}

theorem handoffReady_iff (s : State) :
    s.handoffReady = true ↔
      s.state = .scanning ∧ s.phase = .handoff ∧ (s.config.mode = true → s.q.length < s.params.qCap) := by
  cases h : s.config.mode <;> simp [State.handoffReady, h, and_assoc]

/-- An enabled HANDOFF. -/
theorem handoff_turn (hscan : s.state = .scanning) (hphase : s.phase = .handoff)
    (hroom : s.config.mode = true → s.q.length < s.params.qCap) :
    s.takeTurn (.seq .handoff) = .next (if s.col = s.params.lastCol then s.deliver.finish else s.deliver.advance) :=
  enabled_turn (if_pos ((handoffReady_iff s).mpr ⟨hscan, hphase, hroom⟩))

theorem rowBytes_getElem? (s : State) {j : Nat} (hj : j < s.params.rowWidth) :
    s.rowBytes[j]? = some (s.rowbufAt j) := by
  simp [State.rowBytes, hj]

/-- In FRAME mode row `col` of the frame takes the bytes of the row buffer (R89, R203). -/
theorem deliver_frameAt_row (h : s.config.mode = false) {j : Nat} (hj : j < s.params.rowWidth) :
    s.deliver.frameAt (s.col.toNat * s.params.rowWidth + j) = s.rowbufAt j := by
  obtain ⟨hj', hget⟩ := List.getElem?_eq_some_iff.mp (rowBytes_getElem? s hj)
  simp [State.deliver, State.frameAt, h, Memory.find_putBytes_in _ _ _ hj', hget]

/-- The bytes of the frame outside row `col` stay. -/
theorem deliver_frameAt_outside (h : s.config.mode = false) {k : Nat}
    (hk : k < s.col.toNat * s.params.rowWidth ∨ s.col.toNat * s.params.rowWidth + s.params.rowWidth ≤ k) :
    s.deliver.frameAt k = s.frameAt k := by
  have hout := Memory.find_putBytes_out s.frame (s.col.toNat * s.params.rowWidth) s.rowBytes
    (hk.imp_right (rowBytes_length s ▸ ·))
  simp [State.deliver, State.frameAt, h, hout]

end

/-- The bits of a tag: the column, bit 8 for the last column, the others 0 (R120). -/
theorem rowTag_fields (p : Params) (col : BitVec 6) :
    (rowTag p col).extractLsb' 0 6 = col ∧ (rowTag p col).getLsbD 8 = decide (col = p.lastCol) ∧
      rowTag p col &&& 0xFFFFFEC0 = 0 := by
  have key : ∀ (c : BitVec 6) (last : Bool),
      (c.setWidth 32 ||| if last then 0x00000100 else 0 : Word).extractLsb' 0 6 = c ∧
        (c.setWidth 32 ||| if last then 0x00000100 else 0 : Word).getLsbD 8 = last ∧
        (c.setWidth 32 ||| if last then 0x00000100 else 0 : Word) &&& 0xFFFFFEC0 = 0 := by decide
  simpa [rowTag] using key col (decide (col = p.lastCol))

/-- The end of a HANDOFF leaves the frame as the delivery made it. -/
theorem handedOff_frameAt (s : State) (k : Nat) :
    (if s.col = s.params.lastCol then s.deliver.finish else s.deliver.advance).frameAt k = s.deliver.frameAt k := by
  split
  · rfl
  · rfl

/-- Settles O28: in FRAME mode the delivery is a write of the frame, then `finish` or `advance`. -/
theorem handoffWritesFrameRow : Obligations.HandoffWritesFrameRow := by
  intro s hscan hphase hmode
  have hdeliver : s.deliver = { s with frame := s.deliver.frame } := by simp [State.deliver, hmode]
  refine ⟨_, handoff_turn hscan hphase fun h => absurd (hmode.symm.trans h) Bool.false_ne_true,
    fun j hj => (handedOff_frameAt ..).trans (deliver_frameAt_row hmode hj),
    fun k hk => (handedOff_frameAt ..).trans (deliver_frameAt_outside hmode hk), fun hlast => ?_, fun hlast => ?_⟩
  · rw [if_pos hlast, hdeliver]
    rfl
  · rw [if_neg hlast, hdeliver]
    rfl

/-- Settles O29: in QUEUE mode the delivery is a push of a copy of the row, then `finish` or `advance`. -/
theorem handoffPushesRowCopy : Obligations.HandoffPushesRowCopy := by
  intro s hscan hphase hmode hroom
  have hdeliver : s.deliver = { s with q := s.q ++ [⟨s.rowBytes, rowTag s.params s.col⟩] } := if_pos hmode
  obtain ⟨htagCol, htagLast, htagRest⟩ := rowTag_fields s.params s.col
  refine ⟨_, s.rowBytes, rowTag s.params s.col, handoff_turn hscan hphase fun _ => hroom, rowBytes_length s,
    fun j => rowBytes_getElem? s, htagCol, htagLast, htagRest, fun hlast => ?_, fun hlast => ?_⟩
  · rw [if_pos hlast, hdeliver]
    rfl
  · rw [if_neg hlast, hdeliver]
    rfl

/-! ### A full queue (R204) -/

section

variable {s : State}

theorem qCap_pos (p : Params) : 0 < p.qCap := by
  have := (colHeight_range p).1
  unfold Params.qCap
  omega

/-- A pop takes the head of a queue that is not empty (R233). -/
theorem popRow_of_pos (h : 0 < s.q.length) :
    ∃ e rest, s.q = e :: rest ∧
      s.popRow = some (e.tag, { s with q := rest, qout := Memory.putBytes [] 0 e.payload }) := by
  obtain ⟨e, rest, hq⟩ := List.exists_cons_of_length_pos h
  refine ⟨e, rest, hq, ?_⟩
  unfold State.popRow
  rw [hq]

end

/-- Settles O30: the full queue disables HANDOFF, its phase the tick and ISSUE; a pop makes room. -/
theorem fullQueueStallsHandoff : Obligations.FullQueueStallsHandoff := by
  intro s hscan hphase hmode hfull
  have hwait : ¬ (s.state = .scanning ∧ s.phase = .wait) := fun h => nomatch hphase.symm.trans h.2
  have hissue : ¬ (s.state = .scanning ∧ s.phase = .issue) := fun h => nomatch hphase.symm.trans h.2
  have hnoroom : ¬ s.handoffReady = true := fun h => by
    obtain ⟨-, -, hroom⟩ := (handoffReady_iff s).mp h
    exact Nat.lt_irrefl _ (hfull ▸ hroom hmode)
  obtain ⟨-, -, -, -, -, -, -, -, -, -, hstall, -⟩ := statusShowsItsFields.2 s
  obtain ⟨e, rest, hq, hpop⟩ := popRow_of_pos (s := s) (hfull ▸ qCap_pos s.params)
  obtain ⟨hdisabled, hidle⟩ := disabled_turn (s := s) (k := .handoff) (if_neg hnoroom)
  refine ⟨hdisabled, hidle, congrArg _ (if_neg hwait), (disabled_turn (k := .issue) (if_neg hissue)).1,
    hstall.trans (decide_eq_true ⟨hscan, hphase, hmode, hfull⟩), e.tag, _, hpop, rfl, ?_⟩
  have hroom : rest.length < s.params.qCap := by
    rw [← hfull, hq]
    exact Nat.lt_succ_self _
  have hready : State.handoffReady { s with q := rest, qout := Memory.putBytes [] 0 e.payload } = true :=
    (handoffReady_iff _).mpr ⟨hscan, hphase, fun _ => hroom⟩
  exact Option.isSome_iff_exists.mpr ⟨_, if_pos hready⟩

/-! ## TICK (R209) -/

section

variable {s : State} {d : Dev}

/-- The state after a tick counted for the ADCs that are pending and not complete. -/
def State.counted (s : State) : State :=
  { s with cnt := ⟨BitVec.ofNat 32 (s.tickCount .a), BitVec.ofNat 32 (s.tickCount .b)⟩ }

theorem unanswered_iff (s : State) (d : Dev) : s.unanswered d = true ↔ s.pend.get d = true ∧ s.cond d = false := by
  simp [State.unanswered]

theorem counted_get (s : State) (d : Dev) : s.counted.cnt.get d = BitVec.ofNat 32 (s.tickCount d) := by cases d <;> rfl

/-- The count of `tickCount` is the one TICK stores. -/
theorem countTick_both_get (s : State) (d : Dev) :
    ((s.countTick .a).countTick .b).cnt.get d = BitVec.ofNat 32 (s.tickCount d) := by
  rw [countTick_both, State.tickCount]
  by_cases h : s.unanswered d = true
  · rw [if_pos h, if_pos ((unanswered_iff s d).mp h), satSucc]
  · rw [if_neg h, if_neg (mt (unanswered_iff s d).mpr h), BitVec.ofNat_toNat, BitVec.setWidth_eq]

theorem countTick_both_eq (s : State) : (s.countTick .a).countTick .b = s.counted := by
  have hcnt : ((s.countTick .a).countTick .b).cnt = s.counted.cnt :=
    PerAdc.ext_get fun d => (countTick_both_get s d).trans (counted_get s d).symm
  rw [countTick_both_frame, hcnt]
  rfl

theorem tickCount_lt (s : State) (d : Dev) : s.tickCount d < 2 ^ 32 := by
  have := (s.cnt.get d).isLt
  unfold State.tickCount
  split <;> omega

/-- With a timeout set, the ADCs timed out after the count are those of `tickTimesOut`. -/
theorem counted_timedOut (h : s.timeout ≠ 0) (d : Dev) : s.counted.timedOut d = s.tickTimesOut d := by
  have hle : s.timeout ≤ s.counted.cnt.get d ↔ s.timeout.toNat ≤ s.tickCount d := by
    rw [counted_get, BitVec.le_def, BitVec.toNat_ofNat, Nat.mod_eq_of_lt (tickCount_lt s d)]
  have hun : s.counted.unanswered d = s.unanswered d := rfl
  rw [State.timedOut, hun, Bool.eq_iff_iff, Bool.and_eq_true, unanswered_iff, decide_eq_true_eq]
  exact ⟨fun ⟨⟨hp, hc⟩, hl⟩ => decide_eq_true ⟨h, hp, hc, hle.mp hl⟩, fun ht => by
    obtain ⟨-, hp, hc, hl⟩ := of_decide_eq_true ht
    exact ⟨⟨hp, hc⟩, hle.mpr hl⟩⟩

/-- A tick of WAIT counts and, with a timeout set, checks it. -/
theorem tick_eq (hscan : s.state = .scanning) (hwait : s.phase = .wait) :
    s.tick = if s.timeout ≠ 0 then s.counted.checkTimeout else s.counted := by
  unfold State.tick
  rw [if_pos ⟨hscan, hwait⟩, countTick_both_eq]
  rfl

/-- An ADC that timed out sets its error bit (R43). -/
theorem flagTimeout_eq (s : State) (d : Dev) (hit : Bool) :
    s.flagTimeout d hit = { s with err := s.err ||| if hit then (timeoutBit d).mask else 0 } := by
  cases hit with
  | true => rfl
  | false => simp [State.flagTimeout]

theorem timeout_ne_zero_of_timesOut (h : s.tickTimesOut d = true) : s.timeout ≠ 0 := (of_decide_eq_true h).1

end

/-- Settles O31: a tick of WAIT is the count and then the timeout check, in every other state it is nothing. -/
theorem tickCountsAndFaults : Obligations.TickCountsAndFaults := by
  refine fun s => ⟨fun hguard => congrArg _ (if_neg hguard),
    fun hscan hwait => ⟨fun ha hb => ?_, fun d hd hfirst => ?_⟩⟩
  · refine congrArg _ ((tick_eq hscan hwait).trans ?_)
    split
    · rename_i hset
      rw [State.checkTimeout, counted_timedOut hset, counted_timedOut hset, ha, hb]
      rfl
    · rfl
  · have hset := timeout_ne_zero_of_timesOut hd
    refine congrArg _ ((tick_eq hscan hwait).trans ?_)
    rw [if_pos hset, State.checkTimeout, counted_timedOut hset, counted_timedOut hset, flagTimeout_eq, flagTimeout_eq]
    cases d with
    | a => rw [hd]; rfl
    | b => rw [hd, hfirst rfl]; rfl

/-! ## The transition table (R207, R208) -/

section

variable {s t u : State}

/-- `t` has the STATE and PHASE of `s`. -/
def SamePlace (s t : State) : Prop := t.state = s.state ∧ t.phase = s.phase

theorem SamePlace.ite {c : Prop} [Decidable c] (ht : SamePlace s t) (hu : SamePlace s u) :
    SamePlace s (if c then t else u) := by
  split
  · exact ht
  · exact hu

theorem SamePlace.of_bus (h : OnlyBusReached s t) : SamePlace s t := by
  rw [OnlyBusReached] at h
  rw [h]
  exact ⟨rfl, rfl⟩

theorem setupDev_place (s : State) (d : Dev) : SamePlace s (s.setupDev d) := .ite ⟨rfl, rfl⟩ ⟨rfl, rfl⟩

/-- Of the instructions only START_SCAN and FAULT_CLEAR move the scan (R191, R271). -/
theorem exec_place {i : Instr} (h : exec i s = .next t) :
    SamePlace s t ∨
    (i = .startScan ∧ (s.state = .idle ∨ s.state = .done) ∧ t.state = .scanning ∧ t.phase = .issue ∧ t.col = 0) ∨
    (i = .faultClear ∧ s.state = .fault ∧ t.state = .idle ∧ t.phase = .issue) := by
  cases i with
  | nop | illegal | adcConv | adcSetup | adcNull => cases h; exact .inl ⟨rfl, rfl⟩
  | initAdc =>
    cases h
    obtain ⟨hstateA, hphaseA⟩ := setupDev_place s .a
    obtain ⟨hstateB, hphaseB⟩ := setupDev_place (s.setupDev .a) .b
    exact .inl (.ite ⟨hstateB.trans hstateA, hphaseB.trans hphaseA⟩ ⟨rfl, rfl⟩)
  | chainClear | adcRequest | adcRead | handshakeStart => cases h; exact .inl (.ite ⟨rfl, rfl⟩ ⟨rfl, rfl⟩)
  | chainAdvance b => cases h; exact .inl (.ite ⟨rfl, rfl⟩ (.ite ⟨rfl, rfl⟩ ⟨rfl, rfl⟩))
  | startScan =>
    cases h
    split
    · rename_i hok
      exact .inr (.inl ⟨rfl, by simpa [State.idleOrDone] using hok, rfl, rfl, rfl⟩)
    · exact .inl ⟨rfl, rfl⟩
  | faultClear =>
    cases h
    split
    · exact .inr (.inr ⟨rfl, by assumption, rfl, rfl⟩)
    · exact .inl ⟨rfl, rfl⟩

/-- A tick changes the counters at most, or it faults a scan in WAIT (R209). -/
theorem tick_cases (s : State) :
    s.tick = { s with cnt := s.tick.cnt } ∨
      (s.state = .scanning ∧ s.phase = .wait ∧ s.tick.state = .fault ∧ s.tick.phase = .issue) := by
  by_cases hguard : s.state = .scanning ∧ s.phase = .wait
  · obtain ⟨hscan, hwait⟩ := hguard
    rcases tick_scans_or_faults hscan hwait with hrun | ⟨d, -, hfault⟩
    · exact .inl (tick_waiting hscan hwait hrun).1
    · rw [hfault]
      exact .inr ⟨hscan, hwait, rfl, rfl⟩
  · rw [show s.tick = s from if_neg hguard]
    exact .inl rfl

end

/-- Settles O34, by the cases of what a step did: each row of the table is one command or turn. -/
theorem scanTransitionsFollowTable : Obligations.ScanTransitionsFollowTable := by
  intro s t hport h
  obtain ⟨ts, n, hdid⟩ := step_did_from hport h
  have hbus : ∀ {u}, OnlyBusReached { s with turns := ts, draws := n } u → SamePlace s u := SamePlace.of_bus
  cases hdid with
  | waited m w => exact .inl (hbus (onlyBusReached_setWaiting ..))
  | read m w acc x u hacc hop hr => exact .inl (hbus (masterRead_onlyBusReached hr))
  | badWrite m w => exact .inl (hbus (masterBadWrite_onlyBusReached ..))
  | write m w acc x r t hacc hop ht hr he => exact .inl (hbus (masterWrite_onlyBusReached hr he))
  | command m w i t hc hi he =>
    have hplace := exec_place he
    rw [SamePlace, State.setWaiting_state, State.setWaiting_phase] at hplace
    rcases hplace with hsame | ⟨rfl, hstart⟩ | ⟨rfl, hclear⟩
    · exact .inl hsame
    · exact .inr (.inl ⟨hc, hstart⟩)
    · exact .inr (.inr (.inr (.inr (.inr (.inr (.inr (.inl ⟨hc, hclear⟩)))))))
  | seq k t hk he =>
    cases k with
    | issue =>
      obtain ⟨⟨hscan, hphase⟩, rfl⟩ := issue_eq_some he
      exact .inr (.inr (.inl ⟨hk, hscan, hphase, hscan, rfl⟩))
    | service d =>
      obtain ⟨hready, rfl⟩ := service_eq_some he
      obtain ⟨hscan, hwait, -⟩ := (serviceReady_iff _ d).mp hready
      have hphase := served_phase_of_wait (s := State.readIntoHalf { s with turns := ts, draws := n } d) hwait d
      cases hother : s.pend.get d.other with
      | true => exact .inl ⟨rfl, hphase.trans ((if_pos hother).trans hwait.symm)⟩
      | false =>
        have hjoined := hphase.trans (if_neg (Bool.eq_false_iff.mp hother))
        exact .inr (.inr (.inr (.inl ⟨d, hk, hscan, hwait, hother, hscan, hjoined⟩)))
    | handoff =>
      obtain ⟨⟨hscan, hphase, -⟩, ⟨hlast, rfl⟩ | ⟨hlast, rfl⟩⟩ := handoff_eq_some he
      · exact .inr (.inr (.inr (.inr (.inr (.inr (.inl ⟨hk, hscan, hphase, hlast, rfl, rfl⟩))))))
      · rw [deliver_frame]
        exact .inr (.inr (.inr (.inr (.inr (.inl ⟨hk, hscan, hphase, hlast, hscan, rfl, rfl⟩)))))
    | hsSend => obtain ⟨-, w, -, rfl⟩ := hsSend_eq_some he; exact .inl ⟨rfl, rfl⟩
    | hsCheck =>
      obtain ⟨-, w, -, rfl⟩ := hsCheck_eq_some he
      rw [hsEcho_frame]
      exact .inl ⟨rfl, rfl⟩
  | eoc d x => rw [eocDrive_frame]; exact .inl ⟨rfl, rfl⟩
  | tick hk =>
    rcases tick_cases { s with turns := ts, draws := n } with hcount | hfault
    · rw [hcount]
      exact .inl ⟨rfl, rfl⟩
    · exact .inr (.inr (.inr (.inr (.inl ⟨hk, hfault⟩))))
  | disabled | answer | linkReady | srOut => exact .inl ⟨rfl, rfl⟩
  | reset hk => exact .inr (.inr (.inr (.inr (.inr (.inr (.inr (.inr ⟨hk, rfl, rfl⟩)))))))

/-! ## No row holds samples of two columns (R211) -/

section

variable {s t : State} {d e : Dev}

/-- A half is told by the parameters, the row buffer and the history. -/
theorem State.HalfFilled.of_eq (hs : s.HalfFilled d) (hparams : t.params = s.params := by rfl)
    (hrowbuf : t.rowbufAt = s.rowbufAt := by rfl) (hhist : t.hist = s.hist := by rfl) : t.HalfFilled d := by
  unfold State.HalfFilled at *
  rw [hparams, hrowbuf, hhist]
  exact hs

/-- The halves of the row buffer do not meet (R146). -/
theorem halfBase_disjoint (p : Params) (hne : e ≠ d) {j : Nat} (hj : j < p.channels) :
    halfBase p e + j < halfBase p d ∨ halfBase p d + p.channels ≤ halfBase p e + j := by
  cases d <;> cases e
  · exact absurd rfl hne
  · exact .inr (by simp [halfBase])
  · exact .inl (by simpa [halfBase] using hj)
  · exact absurd rfl hne

/-- A read-back fills its own half with the samples of its transaction (R146, R201). -/
theorem readIntoHalf_fills (s : State) (d : Dev) : (s.readIntoHalf d).HalfFilled d :=
  ⟨s.hist, (s.readTransaction d).2, [], (State.readIntoHalf_hist s d).trans (List.append_nil _).symm,
    fun _ _ => List.not_mem_nil, fun _ hj => readIntoHalf_sample s d hj⟩

/-- A read-back of ADC `d` leaves the other half as it was filled. -/
theorem State.HalfFilled.readIntoHalf (hs : s.HalfFilled e) (hne : e ≠ d) : (s.readIntoHalf d).HalfFilled e := by
  obtain ⟨before, rx, since, hhist, hlast, hsamples⟩ := hs
  refine ⟨before, rx, since ++ [readEvent s.params d (s.readTransaction d).2], ?_, fun tx r hmem => ?_, fun j hj => ?_⟩
  · rw [← List.append_assoc, State.readIntoHalf_params, ← hhist]
    exact State.readIntoHalf_hist s d
  · rcases List.mem_append.mp hmem with hold | hnew
    · exact hlast tx r hold
    · exact hne (Event.xfer.inj (List.mem_singleton.mp hnew)).1
  · exact (readIntoHalf_outside s d (halfBase_disjoint s.params hne hj)).trans (hsamples j hj)

theorem State.RowOk.of_not_scanning (h : t.state ≠ .scanning) : t.RowOk := fun hscan => absurd hscan h

theorem State.RowOk.of_issue (h : t.phase = .issue) : t.RowOk := fun _ hphase => absurd h hphase

/-- The row is told by the scan's place, the pending flags and the halves. -/
theorem State.RowOk.of_eq (hs : s.RowOk) (hstate : t.state = s.state := by rfl) (hphase : t.phase = s.phase := by rfl)
    (hpend : t.pend = s.pend := by rfl) (hparams : t.params = s.params := by rfl)
    (hrowbuf : t.rowbufAt = s.rowbufAt := by rfl) (hhist : t.hist = s.hist := by rfl) : t.RowOk := by
  intro hscan hne d hd
  rw [hstate] at hscan
  rw [hphase] at hne
  rw [hpend] at hd
  exact (hs hscan hne d hd).of_eq hparams hrowbuf hhist

theorem State.RowOk.of_bus (hs : s.RowOk) (h : OnlyBusReached s t) : t.RowOk := by
  rw [OnlyBusReached] at h
  rw [h]
  exact hs.of_eq

theorem State.RowOk.ite {c : Prop} [Decidable c] {u : State} (ht : c → t.RowOk) (hu : u.RowOk) :
    (if c then t else u).RowOk := by
  split
  · exact ht (by assumption)
  · exact hu

/-- No command touches the row of a running scan (R273). -/
theorem exec_rowOk {i : Instr} (hs : s.RowOk) (hi : i.cmdWord?.isSome) (h : exec i s = .next t) : t.RowOk := by
  have herr : ∀ e, (s.setErr e).RowOk := fun e => hs.of_eq
  have hidle : ∀ {u : State}, u.state = s.state → s.idleOrDone = true → u.RowOk := fun hu hok =>
    .of_not_scanning (hu ▸ not_scanning_of_idleOrDone hok)
  cases i with
  | nop => cases h; exact hs
  | initAdc => cases h; exact .ite (hidle (by rw [setupDev_frame (s.setupDev .a), setupDev_frame s])) (herr _)
  | chainClear =>
    cases h
    split
    · exact herr _
    · exact .of_not_scanning (by assumption)
  | chainAdvance b =>
    cases h
    split
    · exact herr _
    · rename_i hok
      exact .ite (fun _ => herr _) (hidle rfl (by simpa using hok))
  | startScan => cases h; exact .ite (fun _ => .of_issue rfl) (herr _)
  | faultClear => cases h; exact .ite (fun _ => .of_issue rfl) (herr _)
  | adcRequest d | adcRead d => cases h; exact .ite (hidle rfl) (herr _)
  | handshakeStart => cases h; exact .ite (fun _ => hs.of_eq) (herr _)
  | illegal w => cases h; exact herr _
  | adcConv | adcSetup | adcNull => exact nomatch hi

/-- SERVICE fills its half and leaves the other (R201). -/
theorem service_rowOk (hs : s.RowOk) (h : s.service d = some t) : t.RowOk := by
  obtain ⟨hready, rfl⟩ := service_eq_some h
  obtain ⟨hscan, hwait, -⟩ := (serviceReady_iff s d).mp hready
  intro _ _ e he
  by_cases hed : e = d
  · subst hed
    exact (readIntoHalf_fills s e).of_eq
  · have hpend : s.pend.get e = false := by simpa [PerAdc.get_set_ne _ hed] using he
    have hhalf : s.HalfFilled e := hs hscan (by rw [hwait]; decide) e hpend
    exact (hhalf.readIntoHalf hed).of_eq

theorem seqStep_rowOk {k : SeqStep} (hs : s.RowOk) (h : s.seqStep k = some t) : t.RowOk := by
  cases k with
  | issue =>
    obtain ⟨-, rfl⟩ := issue_eq_some h
    exact fun _ _ d hd => by simp at hd
  | service d => exact service_rowOk hs h
  | handoff =>
    obtain ⟨-, ⟨-, rfl⟩ | ⟨-, rfl⟩⟩ := handoff_eq_some h
    · exact .of_issue rfl
    · exact .of_issue rfl
  | hsSend =>
    obtain ⟨-, w, -, rfl⟩ := hsSend_eq_some h
    exact hs.of_eq
  | hsCheck =>
    obtain ⟨-, w, -, rfl⟩ := hsCheck_eq_some h
    rw [hsEcho_frame]
    exact hs.of_eq

/-- A tick counts at most, or it faults the scan (R209). -/
theorem State.RowOk.tick (hs : s.RowOk) : s.tick.RowOk := by
  rcases tick_cases s with hcount | ⟨-, -, -, hphase⟩
  · rw [hcount]
    exact hs.of_eq
  · exact .of_issue hphase

/-- Every agent's operation keeps each half that was read. -/
theorem keptByAgents_rowOk : KeptByAgents State.RowOk where
  waiting _ _ _ hs := hs.of_bus (onlyBusReached_setWaiting ..)
  returned _ _ _ hs := hs.of_bus (onlyBusReached_pushReturned ..)
  turns _ _ hs := hs.of_eq
  draws _ _ hs := hs.of_eq
  run _ _ _ hs hi h := exec_rowOk hs hi h
  read _ _ _ _ hs h := hs.of_bus (busRead_onlyBusReached h)
  write _ _ _ _ hs hr h := hs.of_bus (writeReg_onlyBusReached hr h)
  badAccess _ hs := hs.of_eq
  seq _ _ _ hs h := seqStep_rowOk hs h
  eoc _ _ _ hs := by
    rw [eocDrive_frame]
    exact hs.of_eq
  answer _ _ _ hs := hs.of_eq
  tick _ hs := hs.tick
  linkReady _ _ hs := hs.of_eq
  srOut _ _ hs := hs.of_eq
  reset _ _ := .of_not_scanning ScanState.noConfusion

end

/-- Settles O57: no scan runs at reset, and every agent's operation keeps the halves that were read. -/
theorem rowsHoldOneColumn : Obligations.RowsHoldOneColumn :=
  ⟨.of_not_scanning ScanState.noConfusion, fun _ _ hport hs h => keptByAgents_rowOk.step hport hs h⟩

/-! ## A scan with a fixed schedule (R207, R356) -/

/-- With the turns `us` still to come, `t` stands at the column of `s` in the given phase, with the given flags: only
the latches, levels and counters, the row buffer and the link have moved. -/
def InColumn (s t : State) (phase : Phase) (pend : PerAdc Bool) (us : List Turn) : Prop :=
  t = { s with
    phase := phase, pend := pend, turns := us, edge := t.edge, eoc := t.eoc, cnt := t.cnt, rowbuf := t.rowbuf
    cs := t.cs, hist := t.hist, pins := t.pins, answers := t.answers, draws := t.draws }

section

variable {s t t' : State} {d e : Dev} {phase : Phase} {pend : PerAdc Bool} {us : List Turn} {v : Bool}

/-- The first step of a run takes the first turn of the schedule. -/
theorem run_scheduled {k : Turn} (n : Nat) (hport : s.linkPort = none) (hturns : s.turns = k :: us)
    (h : State.takeTurn { s with turns := us } k = .next t) :
    Host.Core.run Sys2Proof.core (n + 1) s = Host.Core.run Sys2Proof.core n t := by
  have hnext : s.nextTurn = (k, { s with turns := us }) := by
    unfold State.nextTurn
    rw [hturns]
  have hstep : Sys2Proof.core.step s = .next t := by
    refine (step_eq_turn hport).trans ?_
    rw [hnext]
    exact h
  simp only [Host.Core.run, hstep]

theorem cond_of_not_pend (h : s.pend.get d = false) : s.cond d = false := by simp [State.cond, h]

/-- An EOC level of one ADC completes no other. -/
theorem eocDrive_cond_ne (s : State) (v : Bool) (hne : e ≠ d) : (s.eocDrive d v).cond e = s.cond e := by
  have hedge : (s.eocDrive d v).edge.get e = s.edge.get e := by
    rw [eocDrive_eq]
    dsimp only
    split
    · exact PerAdc.get_set_ne _ hne _
    · rfl
  have heoc : (s.eocDrive d v).eoc.get e = s.eoc.get e := by
    rw [eocDrive_frame]
    exact PerAdc.get_set_ne _ hne _
  unfold State.cond
  rw [hedge, heoc, eocDrive_frame]

/-- A line driven low, with a falling edge in EDGE mode, completes an ADC that is pending in a scan (R152, R190). -/
theorem eocDrive_cond (hscan : s.state = .scanning) (hpend : s.pend.get d = true)
    (hhigh : s.config.eocMode = true → s.eoc.get d = true) : (s.eocDrive d false).cond d = true := by
  have hpend' : (s.eocDrive d false).pend.get d = true := by rw [eocDrive_frame]; exact hpend
  have hconfig : (s.eocDrive d false).config = s.config := by rw [eocDrive_frame]
  cases hmode : s.config.eocMode with
  | true =>
    refine (cond_iff_edge (hconfig ▸ hmode)).mpr ⟨hpend', ?_⟩
    rw [eocDrive_eq]
    simp [hhigh hmode, hscan, hpend, hmode]
  | false =>
    refine (cond_iff_level (hconfig ▸ hmode)).mpr ⟨hpend', ?_⟩
    rw [eocDrive_frame]
    exact PerAdc.get_set_self ..

/-- A level reports no error where it is high or its ADC is pending (R152). -/
theorem eocDrive_err (v : Bool) (h : v = true ∨ s.pend.get d = true) : (s.eocDrive d v).err = s.err := by
  rw [eocDrive_eq]
  rcases h with rfl | hpend
  · simp
  · simp [hpend]

namespace InColumn

/-- A turn that drives a level. -/
theorem eocDrive (h : InColumn s t phase pend (.eocDrive d v :: us)) (hv : v = true ∨ pend.get d = true) :
    InColumn s (State.eocDrive { t with turns := us } d v) phase pend us := by
  have hpend : t.pend = pend := by rw [h]
  have herr := eocDrive_err (s := { t with turns := us }) (d := d) v (hv.imp_right (hpend ▸ ·))
  unfold InColumn
  rw [eocDrive_frame, herr, h]

/-- A level driven high reports nothing. -/
theorem rise (h : InColumn s t phase pend (.eocDrive d true :: us)) :
    ∃ t', State.takeTurn { t with turns := us } (.eocDrive d true) = .next t' ∧ InColumn s t' phase pend us ∧
      t'.eoc = t.eoc.set d true :=
  ⟨_, rfl, h.eocDrive (.inl rfl), by rw [eocDrive_frame]⟩

/-- A level driven low answers the scan that waits for it. -/
theorem fall (h : InColumn s t phase pend (.eocDrive d false :: us)) (hscan : s.state = .scanning)
    (hpend : pend.get d = true) (hhigh : t.eoc.get d = true) :
    ∃ t', State.takeTurn { t with turns := us } (.eocDrive d false) = .next t' ∧ InColumn s t' phase pend us ∧
      t'.eoc = t.eoc.set d false ∧ t'.cond d = true ∧ ∀ e, e ≠ d → t'.cond e = t.cond e := by
  have hstate : t.state = .scanning ∧ t.pend = pend := by
    rw [h]
    exact ⟨hscan, rfl⟩
  exact ⟨_, rfl, h.eocDrive (.inr hpend), by rw [eocDrive_frame],
    eocDrive_cond hstate.1 (hstate.2 ▸ hpend) fun _ => hhigh, fun e he => eocDrive_cond_ne _ _ he⟩

/-- ISSUE, enabled in ISSUE. -/
theorem issue (h : InColumn s t .issue pend (.seq .issue :: us)) (hscan : s.state = .scanning) :
    ∃ t', State.takeTurn { t with turns := us } (.seq .issue) = .next t' ∧
      InColumn s t' .wait (.both true) us ∧ t'.eoc = t.eoc := by
  have hstate : t.state = .scanning ∧ t.phase = .issue := by
    rw [h]
    exact ⟨hscan, rfl⟩
  refine ⟨_, enabled_turn (if_pos hstate), ?_, rfl⟩
  unfold InColumn
  rw [h]
  rfl

/-- SERVICE of a complete ADC (R201). -/
theorem service (h : InColumn s t .wait pend (.seq (.service d) :: us)) (hscan : s.state = .scanning)
    (hcond : t.cond d = true) (hfirst : d = .b → t.cond .a = false) :
    ∃ t', State.takeTurn { t with turns := us } (.seq (.service d)) = .next t' ∧
      InColumn s t' (if pend.get d.other then .wait else .handoff) (pend.set d false) us ∧
      ∀ e, e ≠ d → t'.cond e = t.cond e := by
  have hstate : t.state = .scanning ∧ t.phase = .wait ∧ t.pend = pend := by
    rw [h]
    exact ⟨hscan, rfl, rfl⟩
  obtain ⟨hscan', hwait, hpend⟩ := hstate
  have hready := (serviceReady_iff { t with turns := us } d).mpr ⟨hscan', hwait, hcond, hfirst⟩
  refine ⟨_, enabled_turn (if_pos hready), ?_, fun e he => ?_⟩
  · rw [served_eq (s := State.readIntoHalf { t with turns := us } d) hwait, ← hpend]
    unfold InColumn
    rw [h]
    rfl
  · simp [State.cond, PerAdc.get_set_ne _ he]

/-- A run from there takes the first turn to come. -/
theorem run {k : Turn} (h : InColumn s t phase pend (k :: us)) (hport : s.linkPort = none)
    (hturn : State.takeTurn { t with turns := us } k = .next t') (n : Nat) :
    Host.Core.run Sys2Proof.core (n + 1) t = Host.Core.run Sys2Proof.core n t' :=
  run_scheduled n (by rw [h]; exact hport) (by rw [h]) hturn

end InColumn

/-- Seven turns take a column from its ISSUE to its hand-off, in either EOC mode: both levels high, the requests, both
levels low, both reads. -/
theorem columnTurns_join (hport : s.linkPort = none) (hscan : s.state = .scanning) (hissue : s.phase = .issue)
    (hturns : s.turns = columnTurns ++ us) :
    ∃ t, (∀ n, Host.Core.run Sys2Proof.core (n + 7) s = Host.Core.run Sys2Proof.core n t) ∧
      InColumn s t .handoff (.both false) (.seq .handoff :: us) := by
  have h0 : InColumn s s .issue s.pend (columnTurns ++ us) := by rw [InColumn, ← hissue, ← hturns]
  obtain ⟨t1, hturn1, h1, heoc1⟩ := h0.rise
  obtain ⟨t2, hturn2, h2, heoc2⟩ := h1.rise
  obtain ⟨t3, hturn3, h3, heoc3⟩ := h2.issue hscan
  have hhigh : t3.eoc = ⟨true, true⟩ := by rw [heoc3, heoc2, heoc1]; rfl
  obtain ⟨t4, hturn4, h4, heoc4, hcondA4, -⟩ := h3.fall hscan rfl (by rw [hhigh]; rfl)
  obtain ⟨t5, hturn5, h5, -, hcondB5, hsame5⟩ := h4.fall hscan rfl (by rw [heoc4, hhigh]; rfl)
  have hcondA5 : t5.cond .a = true := (hsame5 .a Dev.noConfusion).trans hcondA4
  obtain ⟨t6, hturn6, h6, hsame6⟩ := h5.service hscan hcondA5 Dev.noConfusion
  have hcondB6 : t6.cond .b = true := (hsame6 .b Dev.noConfusion).trans hcondB5
  have hcondA6 : t6.cond .a = false := cond_of_not_pend (by rw [h6]; rfl)
  obtain ⟨t7, hturn7, h7, -⟩ := h6.service hscan hcondB6 fun _ => hcondA6
  refine ⟨t7, fun n => ?_, h7⟩
  calc Host.Core.run Sys2Proof.core (n + 7) s
      _ = Host.Core.run Sys2Proof.core (n + 6) t1 := h0.run hport hturn1 _
      _ = Host.Core.run Sys2Proof.core (n + 5) t2 := h1.run hport hturn2 _
      _ = Host.Core.run Sys2Proof.core (n + 4) t3 := h2.run hport hturn3 _
      _ = Host.Core.run Sys2Proof.core (n + 3) t4 := h3.run hport hturn4 _
      _ = Host.Core.run Sys2Proof.core (n + 2) t5 := h4.run hport hturn5 _
      _ = Host.Core.run Sys2Proof.core (n + 1) t6 := h5.run hport hturn6 _
      _ = Host.Core.run Sys2Proof.core n t7 := h6.run hport hturn7 _

theorem deliver_q_length (s : State) : s.deliver.q.length = s.q.length + if s.config.mode then 1 else 0 := by
  unfold State.deliver
  cases hmode : s.config.mode <;> simp

/-- `t` follows the hand-off of the column of `s`, with the turns `us` still to come: the last column ended the scan,
another is followed by the next one (R203, R205, R206). -/
structure HandedOff (s t : State) (us : List Turn) : Prop where
  params : t.params = s.params
  phase : t.phase = .issue
  q : t.q.length = s.q.length + if s.config.mode then 1 else 0
  err : t.err = s.err
  config : t.config = s.config
  linkPort : t.linkPort = s.linkPort
  turns : t.turns = us
  last : s.col = s.params.lastCol → t.state = .done ∧ t.col = s.col
  next : s.col ≠ s.params.lastCol → t.state = .scanning ∧ t.col = s.col + 1

/-- HANDOFF with room in the queue. -/
theorem InColumn.handoff (h : InColumn s t .handoff pend (.seq .handoff :: us)) (hscan : s.state = .scanning)
    (hroom : s.config.mode = true → s.q.length < s.params.qCap) :
    ∃ t', State.takeTurn { t with turns := us } (.seq .handoff) = .next t' ∧ HandedOff s t' us := by
  have hready : t.state = .scanning ∧ t.phase = .handoff := by
    rw [h]
    exact ⟨hscan, rfl⟩
  have hturn := handoff_turn (s := { t with turns := us }) hready.1 hready.2 (by rw [h]; exact hroom)
  have hq : (State.deliver { t with turns := us }).q.length = s.q.length + if s.config.mode then 1 else 0 := by
    rw [deliver_q_length, h]
  have hlast : t.col = t.params.lastCol ↔ s.col = s.params.lastCol := by rw [h]
  have hdelivered : ∀ u, u = State.deliver { t with turns := us } → u.params = s.params ∧ u.state = .scanning ∧
      u.col = s.col ∧ u.err = s.err ∧ u.config = s.config ∧ u.linkPort = s.linkPort ∧ u.turns = us := by
    rintro u rfl
    rw [deliver_frame, h]
    exact ⟨rfl, hscan, rfl, rfl, rfl, rfl, rfl⟩
  obtain ⟨hparams, hstate, hcol, herr, hconfig, hlink, hturns⟩ := hdelivered _ rfl
  refine ⟨_, hturn, ?_⟩
  split
  · rename_i hl
    exact ⟨hparams, rfl, hq, herr, hconfig, hlink, hturns, fun _ => ⟨rfl, hcol⟩, fun hne => absurd (hlast.mp hl) hne⟩
  · rename_i hl
    exact ⟨hparams, rfl, hq, herr, hconfig, hlink, hturns, fun heq => absurd (hlast.mpr heq) hl,
      fun _ => ⟨hstate, congrArg (· + 1) hcol⟩⟩

/-- The eight turns of a column, with room in the queue. -/
theorem columnTurns_run (hport : s.linkPort = none) (hscan : s.state = .scanning) (hissue : s.phase = .issue)
    (hroom : s.config.mode = true → s.q.length < s.params.qCap) (hturns : s.turns = columnTurns ++ us) :
    ∃ t, (∀ n, Host.Core.run Sys2Proof.core (n + 8) s = Host.Core.run Sys2Proof.core n t) ∧ HandedOff s t us := by
  obtain ⟨t, hrun, hjoined⟩ := columnTurns_join hport hscan hissue hturns
  obtain ⟨t', hturn, hhanded⟩ := hjoined.handoff hscan hroom
  exact ⟨t', fun n => (hrun (n + 1)).trans (hjoined.run hport hturn n), hhanded⟩

/-- Eight turns for each column left take the scan to DONE. -/
theorem scan_run {rest : List Turn} (n : Nat) : ∀ s : State, s.linkPort = none → s.state = .scanning →
    s.phase = .issue → s.col.toNat + n = s.params.lastCol.toNat →
    (s.config.mode = true → s.q.length + (n + 1) ≤ s.params.qCap) →
    s.turns = (List.replicate (n + 1) columnTurns).flatten ++ rest →
    ∃ t, Host.Core.run Sys2Proof.core (8 * (n + 1)) s = .next t ∧ t.state = .done ∧ t.phase = .issue ∧
      t.col = s.params.lastCol ∧ t.turns = rest ∧ t.err = s.err ∧
      t.q.length = s.q.length + if s.config.mode then n + 1 else 0 := by
  induction n with
  | zero =>
    intro s hport hscan hissue hcol hroom hturns
    have hlast : s.col = s.params.lastCol := BitVec.eq_of_toNat_eq hcol
    obtain ⟨t, hrun, h⟩ := columnTurns_run (us := rest) hport hscan hissue hroom (by simpa using hturns)
    obtain ⟨hdone, hcol'⟩ := h.last hlast
    exact ⟨t, hrun 0, hdone, h.phase, hcol'.trans hlast, h.turns, h.err, h.q⟩
  | succ n ih =>
    intro s hport hscan hissue hcol hroom hturns
    have hlast : s.col ≠ s.params.lastCol := fun he => by
      rw [he] at hcol
      omega
    have hlt := s.params.lastCol.isLt
    have hnext : (s.col + 1).toNat = s.col.toNat + 1 := BitVec.toNat_add_of_lt (by simp; omega)
    have hsplit : s.turns = columnTurns ++ ((List.replicate (n + 1) columnTurns).flatten ++ rest) := by
      rw [hturns, List.replicate_succ, List.flatten_cons, List.append_assoc]
    obtain ⟨t, hrun, h⟩ := columnTurns_run hport hscan hissue (fun hmode => by have := hroom hmode; omega) hsplit
    obtain ⟨hscan', hcol'⟩ := h.next hlast
    obtain ⟨t', hrun', hdone, hphase, hlast', hrest, herr, hq⟩ := ih t (h.linkPort.trans hport) hscan' h.phase
      (by rw [hcol', h.params, hnext]; omega)
      (by rw [h.config, h.params, h.q]; intro hmode; have := hroom hmode; rw [if_pos hmode]; omega) h.turns
    refine ⟨t', (hrun _).trans hrun', hdone, hphase, hlast'.trans (by rw [h.params]), hrest, herr.trans h.err, ?_⟩
    rw [hq, h.config, h.q]
    split <;> omega

end

/-! ## A fair scan whose ADCs answer (R357) -/

section

variable {r : Nat → State} {u : Nat → Turn} {n m N : Nat} {d : Dev}

theorem IsRun.eocDrive {v : Bool} (hr : IsRun r u) (hu : u n = .eocDrive d v) : r (n + 1) = (r n).eocDrive d v := by
  have h := hr n
  rw [hu] at h
  exact (Host.Outcome.next.inj h).symm

/-- As long as the scan goes on, its configuration and timeout stay (R276). -/
theorem FairScan.config (h : FairScan r u) (hs : ∀ i, i ≤ N → (r i).state = .scanning) (hn : n ≤ N) :
    (r n).config = (r 0).config ∧ (r n).timeout = (r 0).timeout := by
  induction n with
  | zero => exact ⟨rfl, rfl⟩
  | succ n ih =>
    obtain ⟨hconfig, htimeout⟩ := ih (by omega)
    obtain ⟨hconfig', htimeout', -⟩ := takeTurn_keeps_config (hs n (by omega)) (hs (n + 1) hn) (h.noReset n) (h.run n)
    exact ⟨hconfig'.trans hconfig, htimeout'.trans htimeout⟩

/-- A latched edge of an ADC that stays pending in WAIT stays (R152). -/
theorem FairScan.edge_stays (h : FairScan r u) (hs : ∀ i, i ≤ N → (r i).state = .scanning)
    (hw : ∀ i, m ≤ i → i ≤ N → (r i).phase = .wait ∧ (r i).pend.get d = true) (hm : m ≤ N)
    (he : (r m).edge.get d = true) : (r N).edge.get d = true := by
  have hall : ∀ i, m ≤ i → i ≤ N → (r i).edge.get d = true := fun i hi => by
    induction i, hi using Nat.le_induction with
    | base => exact fun _ => he
    | succ i hi ih =>
      intro hN
      have hkeep := takeTurn_pending (hs i (by omega)) (hs (i + 1) hN) (h.noReset i) (h.run i) (hw i hi (by omega)).1
        (hw (i + 1) (by omega) hN).2
      exact hkeep.2.1 (ih (by omega))
  exact hall N hm (Nat.le_refl N)

/-- After its answer an ADC that stays pending in WAIT is complete (R152, R153, R190). -/
theorem AnswersAt.complete (ha : AnswersAt r u n d m) (h : FairScan r u) (hs : ∀ i, i ≤ N → (r i).state = .scanning)
    (hw : ∀ i, n < i → i ≤ N → (r i).phase = .wait ∧ (r i).pend.get d = true) (hm : m < N) :
    (r N).cond d = true := by
  obtain ⟨hnm, hu, hhigh, hlow⟩ := ha
  have hconfig : ∀ i, i ≤ N → (r i).config = (r n).config := fun i hi =>
    (h.config hs hi).1.trans (h.config hs (by omega)).1.symm
  have hpend : (r N).pend.get d = true := (hw N (by omega) (Nat.le_refl N)).2
  cases hmode : (r n).config.eocMode with
  | true =>
    have hcond : (r (m + 1)).cond d = true := by
      rw [h.run.eocDrive hu]
      exact eocDrive_cond (hs m (by omega)) (hw m hnm (by omega)).2 fun _ => hhigh hmode
    have hedge := ((cond_iff_edge (by rw [hconfig (m + 1) hm, hmode])).mp hcond).2
    exact (cond_iff_edge (by rw [hconfig N (Nat.le_refl N), hmode])).mpr
      ⟨hpend, h.edge_stays hs (fun i hi => hw i (by omega)) hm hedge⟩
  | false =>
    exact (cond_iff_level (by rw [hconfig N (Nat.le_refl N), hmode])).mpr
      ⟨hpend, hlow hmode N hm fun j hj hjN => (hw j hj hjN).2⟩

/-- A fair scan that is answered and whose full queue is popped ends: it is DONE, or a turn faults it. -/
theorem FairScan.done_or_fault (h : FairScan r u) (hp : (r 0).phase = .issue) (hq : QueuePopped r)
    (hans : ∀ n d, (∀ i, i ≤ n → (r i).state = .scanning) → u n = .seq .issue → (r n).Enabled .issue →
      ∃ m, AnswersAt r u n d m) :
    (∃ n, (r n).state = .done) ∨ ∃ N, (∀ i, i ≤ N → (r i).state = .scanning) ∧ (r (N + 1)).state = .fault := by
  by_cases hend : ∃ n, (r n).state ≠ .scanning
  · classical
    obtain ⟨N, hN⟩ : ∃ N, Nat.find hend = N + 1 := Nat.exists_eq_succ_of_ne_zero fun h0 => by
      have hfirst := Nat.find_spec hend
      rw [h0] at hfirst
      exact hfirst h.scanning
    have hscan : ∀ i, i ≤ N → (r i).state = .scanning := fun i hi => not_not.mp (Nat.find_min hend (by omega))
    have hleft : (r (N + 1)).state ≠ .scanning := hN ▸ Nat.find_spec hend
    rcases (takeTurn_leaves_scan (hscan N (Nat.le_refl N)) (h.noReset N) (h.run N)).resolve_left hleft with hd | hf
    · exact .inl ⟨N + 1, hd⟩
    · exact .inr ⟨N, hscan, hf⟩
  · have hscan : ∀ n, (r n).state = .scanning := fun n => not_not.mp fun hn => hend ⟨n, hn⟩
    have hendless : EndlessScan r u := ⟨h.run, h.fair, hscan, h.noReset⟩
    refine (hendless.ends h.inv.queue.1 h.inv.cursor.2.1 (fun hw => nomatch hp.symm.trans hw) ?_ fun n => ?_).elim
    · rintro n d (rfl | ⟨k, rfl, hu, hen⟩) hw
      · exact nomatch hp.symm.trans (hw 0 (Nat.le_refl 0)).1
      · obtain ⟨m, hm⟩ := hans k d (fun i _ => hscan i) hu hen
        exact ⟨m + 1, fun i hi => hm.complete h (fun j _ => hscan j) (fun j hj _ => hw j hj) hi⟩
    · cases hstall : (r n).handoffStall with
      | true => exact hq n hstall
      | false => exact ⟨n, Nat.le_refl n, hstall⟩

/-- A turn that faults a scan is a tick that finds an ADC at its timeout, pending since an ISSUE and not answered before
(R209). -/
theorem FairScan.fault_unanswered (h : FairScan r u) (hp : (r 0).phase = .issue)
    (hs : ∀ i, i ≤ N → (r i).state = .scanning) (hf : (r (N + 1)).state = .fault) :
    ∃ n d, n < N ∧ u n = .seq .issue ∧ (r n).Enabled .issue ∧ u N = .tick ∧ (r N).tickTimesOut d = true ∧
      ((r N).cnt.get d).toNat ≤ ticksBetween u n N ∧ (r (N + 1)).pend.get d = false ∧
      ∀ m, AnswersAt r u n d m → N < m := by
  have hN := hs N (Nat.le_refl N)
  obtain ⟨htick, hwait, ⟨d, hd⟩, hclear⟩ := takeTurn_faults hN (h.noReset N) (h.run N) hf
  obtain ⟨-, hpend, hcond, -⟩ := of_decide_eq_true hd
  obtain ⟨n, hn, hu, hen, hw, hcnt⟩ := pending_since_issue h.run h.noReset hp hs N (Nat.le_refl N) hwait d hpend
  refine ⟨n, d, hn, hu, hen, htick, hd, hcnt, hclear d, fun m hm => ?_⟩
  rcases Nat.lt_trichotomy m N with hlt | rfl | hgt
  · exact nomatch hcond.symm.trans (hm.complete h hs hw hlt)
  · exact nomatch htick.symm.trans hm.2.1
  · exact hgt

/-- A line that is driven low while the scan awaits it is an answer; in LEVEL mode since the line holds (R153). -/
theorem answersAt_of_awaited (hmode : (r n).config.eocMode = true ∨ ReadyLinesHold r) (hr : IsRun r u)
    (hnm : n < m) (hu : u m = .eocDrive d false)
    (hhigh : (r n).config.eocMode = true → (r m).eoc.get d = true) : AnswersAt r u n d m := by
  refine ⟨hnm, hu, hhigh, fun hlevel k hk hpend => ?_⟩
  have hhold := hmode.resolve_left fun hedge => nomatch hlevel.symm.trans hedge
  induction k, (show m + 1 ≤ k from hk) using Nat.le_induction with
  | base =>
    rw [hr.eocDrive hu, eocDrive_frame]
    exact PerAdc.get_set_self ..
  | succ k hk' ih =>
    have hlow := ih hk' fun j hj hjk => hpend j hj (by omega)
    exact hhold k d (hpend k (by omega) (by omega)) hlow (hpend (k + 1) (by omega) (Nat.le_refl _))

/-- An answer that is awaited comes before the fault, which drops the pending flags (R306). -/
theorem FairScan.done_of_awaited (h : FairScan r u) (hp : (r 0).phase = .issue) (hq : QueuePopped r)
    (hans : AdcsAnswerAwaited r u) (hmode : (r 0).config.eocMode = true ∨ ReadyLinesHold r) :
    ∃ n, (r n).state = .done := by
  have hanswers : ∀ n d, (∀ i, i ≤ n → (r i).state = .scanning) → u n = .seq .issue → (r n).Enabled .issue →
      ∃ m, AnswersAt r u n d m ∧ ∀ j, n < j → j ≤ m → (r j).pend.get d = true := fun n d hs hu hen => by
    obtain ⟨m, hnm, hum, hhigh, hpend⟩ := hans n d hu hen
    have hmode' : (r n).config.eocMode = true ∨ ReadyLinesHold r := (h.config hs (Nat.le_refl n)).1.symm ▸ hmode
    exact ⟨m, answersAt_of_awaited hmode' h.run hnm hum hhigh, hpend⟩
  refine (h.done_or_fault hp hq fun n d hs hu hen => (hanswers n d hs hu hen).imp fun _ hm => hm.1).resolve_right ?_
  rintro ⟨N, hs, hf⟩
  obtain ⟨n, d, hn, hu, hen, -, -, -, hclear, hlate⟩ := h.fault_unanswered hp hs hf
  obtain ⟨m, hm, hpend⟩ := hanswers n d (fun i hi => hs i (by omega)) hu hen
  exact nomatch hclear.symm.trans (hpend (N + 1) (by omega) (hlate m hm))

/-- A counter counts ticks since its ISSUE at most, so it does not reach the timeout before an answer in time (R209). -/
theorem FairScan.done_of_inTime (h : FairScan r u) (hp : (r 0).phase = .issue) (hq : QueuePopped r)
    (hans : AdcsAnswerInTime r u) : ∃ n, (r n).state = .done := by
  refine (h.done_or_fault hp hq fun n d _ hu hen => (hans n d hu hen).imp fun _ hm => hm.1).resolve_right ?_
  rintro ⟨N, hs, hf⟩
  obtain ⟨n, d, hn, hu, hen, htick, hd, hcnt, -, hlate⟩ := h.fault_unanswered hp hs hf
  obtain ⟨m, hm, htime⟩ := hans n d hu hen
  obtain ⟨hset, hpend, hcond, hreached⟩ := of_decide_eq_true hd
  have htimeout : (r n).timeout = (r N).timeout :=
    (h.config hs (by omega)).2.trans (h.config hs (Nat.le_refl N)).2.symm
  have hcount : (r N).timeout.toNat ≤ ((r N).cnt.get d).toNat + 1 := by
    rw [State.tickCount, if_pos ⟨hpend, hcond⟩] at hreached
    omega
  have hticks : ticksBetween u n N + 1 ≤ ticksBetween u n m := by
    have hsucc := ticksBetween_succ u hn
    rw [if_pos htick] at hsucc
    exact hsucc ▸ ticksBetween_mono u (hlate m hm)
  have hbefore := htime (htimeout ▸ hset)
  rw [htimeout] at hbefore
  omega

/-- Answered in time or not, the scan is DONE or a tick faults it. -/
theorem FairScan.done_or_timesOut (h : FairScan r u) (hp : (r 0).phase = .issue) (hq : QueuePopped r)
    (hans : AdcsAnswer r u) : (∃ n, (r n).state = .done) ∨
      ∃ N d, (∀ i, i ≤ N → (r i).state = .scanning) ∧ u N = .tick ∧ (r N).tickTimesOut d = true ∧
        (r (N + 1)).state = .fault := by
  refine (h.done_or_fault hp hq fun n d _ => hans n d).imp_right ?_
  rintro ⟨N, hs, hf⟩
  obtain ⟨n, d, -, -, -, htick, hd, -⟩ := h.fault_unanswered hp hs hf
  exact ⟨N, d, hs, htick, hd, hf⟩

theorem FairScan.done_of_no_timeout (h : FairScan r u) (hp : (r 0).phase = .issue) (hq : QueuePopped r)
    (hans : AdcsAnswer r u) (h0 : (r 0).timeout = 0) : ∃ n, (r n).state = .done := by
  refine (h.done_or_timesOut hp hq hans).resolve_right ?_
  rintro ⟨N, d, hs, -, hd, -⟩
  exact timeout_ne_zero_of_timesOut hd ((h.config hs (Nat.le_refl N)).2.trans h0)

end

/-! ## An answer that comes too late (R209; log 20)

A fair run in LEVEL mode with TIMEOUT = 1: the first tick after the requests faults the scan, then both lines go low. -/

/-- The state before that scan: after reset, with both lines high. -/
def lateReset : State := { (State.reset.writeConfig 0x1).writeTimeout 1 with eoc := .both true }

/-- START_SCAN was run there. -/
def lateScan : State :=
  { lateReset.chainClear.chainShift true with
    col := 0, pend := .both false, edge := .both false, cnt := .both 0, phase := .issue, state := .scanning }

/-- The turns of the run. -/
def lateTurn : Nat → Turn
  | 0 => .seq .issue
  | 2 => .eocDrive .a false
  | 3 => .eocDrive .b false
  | _ => .tick

theorem lateScan_inv : lateScan.Inv := by
  have hreset : lateReset.Inv := ((invariantHoldsAtReset.writeConfig 0x1).writeTimeout 1).of_frame rfl
  exact startScan_inv hreset rfl

/-- Any turns make a run from any state, since every turn completes. -/
theorem exists_run (s : State) (u : Nat → Turn) : ∃ r, r 0 = s ∧ IsRun r u :=
  ⟨fun n => Nat.rec s (fun n t => (takeTurn_completes t (u n)).choose) n, rfl,
    fun n => (takeTurn_completes _ (u n)).choose_spec⟩

section

variable {r : Nat → State} {n : Nat}

/-- The first tick finds both ADCs at the timeout. -/
theorem late_faults (h0 : r 0 = lateScan) (hr : IsRun r lateTurn) :
    (r 1).state = .scanning ∧ (r 1).phase = .wait ∧ (r 2).state = .fault ∧ (r 2).hsState = .idle ∧
      ∀ d, (r 2).pend.get d = false := by
  have h1 : lateScan.takeTurn (.seq .issue) = .next (r 1) := h0 ▸ hr 0
  have h2 : (r 1).takeTurn .tick = .next (r 2) := hr 1
  obtain ⟨t, ra, rb, hissue, -, -, ht⟩ := (issueRequestsBothAdcs lateScan).1 rfl rfl
  obtain rfl : t = r 1 := Host.Outcome.next.inj (hissue.symm.trans h1)
  have htimes : (r 1).tickTimesOut .a = true := by
    rw [ht]
    rfl
  have hplace : (r 1).state = .scanning ∧ (r 1).phase = .wait ∧ (r 1).hsState = .idle := by
    rw [ht]
    exact ⟨rfl, rfl, rfl⟩
  obtain ⟨hscan, hwait, hidle⟩ := hplace
  have hfault := ((tickCountsAndFaults (r 1)).2 hscan hwait).2 .a htimes Dev.noConfusion
  have hr2 := Host.Outcome.next.inj (h2.symm.trans hfault)
  rw [hr2]
  exact ⟨hscan, hwait, rfl, hidle, fun d => by cases d <;> rfl⟩

/-- From its third turn on the run drives levels and ticks. -/
theorem lateTurn_cases : ∀ n, 2 ≤ n → lateTurn n = .tick ∨ ∃ d, lateTurn n = .eocDrive d false
  | 2, _ => .inr ⟨.a, rfl⟩
  | 3, _ => .inr ⟨.b, rfl⟩
  | _ + 4, _ => .inl rfl

/-- Levels and ticks leave FAULT and the handshake as they are. -/
theorem late_stays (h0 : r 0 = lateScan) (hr : IsRun r lateTurn) (hn : 2 ≤ n) :
    (r n).state = .fault ∧ (r n).hsState = .idle := by
  induction n, hn using Nat.le_induction with
  | base =>
    obtain ⟨-, -, hfault, hidle, -⟩ := late_faults h0 hr
    exact ⟨hfault, hidle⟩
  | succ n hn ih =>
    rcases lateTurn_cases n hn with htick | ⟨d, hdrive⟩
    · have hnot : ¬ ((r n).state = .scanning ∧ (r n).phase = .wait) := by simp [ih.1]
      have hquiet : (r n).tick = r n := if_neg hnot
      have hnext := hr n
      rw [htick] at hnext
      rwa [← Host.Outcome.next.inj hnext, hquiet]
    · rw [hr.eocDrive hdrive, eocDrive_frame]
      exact ih

/-- Outside a scan and a handshake no step of SEQ is enabled. -/
theorem not_enabled_of_idle {s : State} (hscan : s.state ≠ .scanning) (hidle : s.hsState = .idle) (k : SeqStep) :
    ¬ s.Enabled k := by
  intro hen
  obtain ⟨t, ht⟩ := Option.isSome_iff_exists.mp hen
  cases k with
  | issue => exact hscan (issue_eq_some ht).1.1
  | service d => exact hscan ((serviceReady_iff s d).mp (service_eq_some ht).1).1
  | handoff => exact hscan (handoff_eq_some ht).1.1
  | hsSend => exact nomatch hidle.symm.trans (hsSend_eq_some ht).1.1
  | hsCheck => exact nomatch hidle.symm.trans (hsCheck_eq_some ht).1.1

/-- What holds of the first two states of the run and of every state in FAULT holds of every state. -/
theorem late_forall (h0 : r 0 = lateScan) (hr : IsRun r lateTurn) {P : State → Prop} (hissue : P lateScan)
    (hwait : ∀ s : State, s.state = .scanning → s.phase = .wait → P s) (hfault : ∀ s : State, s.state = .fault → P s) :
    ∀ n, P (r n)
  | 0 => h0 ▸ hissue
  | 1 => hwait _ (late_faults h0 hr).1 (late_faults h0 hr).2.1
  | _ + 2 => hfault _ (late_stays h0 hr (Nat.le_add_left ..)).1

theorem late_fair (h0 : r 0 = lateScan) (hr : IsRun r lateTurn) : FairScan r lateTurn where
  run := hr
  fair := by
    refine ⟨fun k n hen => ?_, fun n => ⟨n + 4, Nat.le_add_right .., rfl⟩⟩
    obtain ⟨hfault, hidle⟩ := late_stays (n := n + 2) h0 hr (Nat.le_add_left ..)
    exact absurd (hen (n + 2) (Nat.le_add_right ..))
      (not_enabled_of_idle (fun hscan => nomatch hfault.symm.trans hscan) hidle k)
  inv := h0 ▸ lateScan_inv
  scanning := by rw [h0]; rfl
  noReset
    | 0 | 1 | 2 | 3 | _ + 4 => Turn.noConfusion

/-- Each ADC drives its line low after the one ISSUE, when it is no longer pending. -/
theorem late_answers (h0 : r 0 = lateScan) (hr : IsRun r lateTurn) : AdcsAnswer r lateTurn := by
  have hone : ∀ n, lateTurn n = .seq .issue → n = 0
    | 0, _ => rfl
    | 1, h | 2, h | 3, h | _ + 4, h => nomatch h
  have hlevel : (r 0).config.eocMode = false := by rw [h0]; rfl
  obtain ⟨-, -, -, -, hclear⟩ := late_faults h0 hr
  intro n d hu _
  obtain rfl := hone n hu
  have hanswer : ∀ m, 2 ≤ m → lateTurn m = .eocDrive d false → AnswersAt r lateTurn 0 d m := fun m hm hdrive =>
    ⟨by omega, hdrive, fun hedge => absurd (hlevel.symm.trans hedge) Bool.false_ne_true, fun _ k hk hpend =>
      absurd ((hclear d).symm.trans (hpend 2 (by omega) (by omega))) Bool.false_ne_true⟩
  cases d with
  | a => exact ⟨2, hanswer 2 (Nat.le_refl 2) rfl⟩
  | b => exact ⟨3, hanswer 3 (Nat.le_succ 2) rfl⟩

end

/-- Answers that come at any time are not enough: this run is never DONE. -/
theorem late_answer_not_done : ¬ ∀ (r : Nat → State) (u : Nat → Turn), FairScan r u → (r 0).phase = .issue →
    QueuePopped r → AdcsAnswer r u → ∃ n, (r n).state = .done := by
  intro hclaim
  obtain ⟨r, h0, hr⟩ := exists_run lateScan lateTurn
  have hqueue : ∀ n, (r n).handoffStall = false := late_forall (P := fun s => s.handoffStall = false) h0 hr rfl
    (fun s _ hwait => by simp [State.handoffStall, hwait]) (fun s hfault => by simp [State.handoffStall, hfault])
  have hnever : ∀ n, (r n).state ≠ .done := late_forall (P := fun s => s.state ≠ .done) h0 hr ScanState.noConfusion
    (fun s hscan _ hdone => nomatch hscan.symm.trans hdone) (fun s hfault hdone => nomatch hfault.symm.trans hdone)
  obtain ⟨n, hdone⟩ := hclaim r lateTurn (late_fair h0 hr) (by rw [h0]; rfl)
    (fun n hstall => nomatch (hqueue n).symm.trans hstall) (late_answers h0 hr)
  exact hnever n hdone

/-- Settles O59: the fixed schedule column by column; a fair run ends, and a fault needs an ADC that was not answered
before; a late answer does not help. -/
theorem scanReachesDone : Obligations.ScanReachesDone := by
  refine ⟨fun s n rest hport hscan hissue hcol hpos hroom hturns => ?_, fun r u h hp hq =>
    ⟨h.done_of_awaited hp hq, h.done_of_inTime hp hq, h.done_of_no_timeout hp hq, fun hans => ?_⟩, late_answer_not_done⟩
  · obtain ⟨k, rfl⟩ := Nat.exists_eq_succ_of_ne_zero hpos.ne'
    exact scan_run k s hport hscan hissue (Nat.succ.inj hcol) hroom hturns
  · refine (h.done_or_timesOut hp hq hans).imp_right ?_
    rintro ⟨N, d, -, htick, hd, hf⟩
    exact ⟨N, d, htick, hd, hf⟩

end Sys2Proof.Machine

/-! The statements of 43_transport.md: the pop of a row, reads of empty channels, the mailbox, and the core-launch
handshake. -/

namespace Sys2Proof.Machine

section

variable {s : State} {acc : BusAccess}

/-! ## The channels the bus reads with an effect (R233, R234, R239) -/

theorem busRead_qtag (h : acc.target s.params = some .qtag) : s.busRead acc = s.popRow := by
  unfold State.busRead
  rw [h]

theorem busRead_mbTx (h : acc.target s.params = some .mbTx) : s.busRead acc = s.takeMbTx := by
  unfold State.busRead
  rw [h]

theorem popRow_empty (h : s.q = []) : s.popRow = none := by
  unfold State.popRow
  rw [h]

theorem popRow_cons {e : Entry} {rest : List Entry} (h : s.q = e :: rest) :
    s.popRow = some (e.tag, { s with q := rest, qout := Memory.putBytes [] 0 e.payload }) := by
  unfold State.popRow
  rw [h]

theorem takeMbTx_empty (h : s.mbTx.valid = false) : s.takeMbTx = none := if_neg (Bool.eq_false_iff.mp h)

theorem takeMbTx_full (h : s.mbTx.valid = true) :
    s.takeMbTx = some (s.mbTx.data, { s with mbTx := ⟨false, s.mbTx.data⟩ }) := if_pos h

/-- The first turn of the schedule is the one a step takes. -/
theorem step_scheduled {k : Turn} {ts : List Turn} (hport : s.linkPort = none) (hturns : s.turns = k :: ts) :
    step s = State.takeTurn { s with turns := ts } k := by
  have hnext : s.nextTurn = (k, { s with turns := ts }) := by
    unfold State.nextTurn
    rw [hturns]
  rw [step_eq_turn hport, hnext]

/-- A master whose oldest access is a read that stalls keeps it, and the block stays as it is (R24). -/
theorem runMaster_stalls {m : MasterId} {rest : List BusAccess} (hwaiting : (s.master m).waiting = acc :: rest)
    (hop : acc.op = .read) (hread : (s.setWaiting m rest).busRead acc = none) : s.runMaster m = .next s := by
  have hstall : (s.setWaiting m rest).access m acc = none := by
    unfold State.access
    rw [hop, hread]
    rfl
  unfold State.runMaster
  rw [hwaiting]
  exact congrArg (Option.getD · _) hstall

end

/-- Settles O38: the pop puts the payload into the latch, where it is read back. -/
theorem qtagReadPopsHead : Obligations.QtagReadPopsHead := fun s _ _ hq =>
  ⟨_, (busRead_qtag (target_qtag ..)).trans (popRow_cons hq), rfl, fun _ => qoutAt_putBytes s⟩

/-- Settles O39: the read answers nothing, so the master's turn is a stall. -/
theorem emptyChannelsStallReads : Obligations.EmptyChannelsStallReads := by
  intro s m acc rest ts hport hwaiting hturns hempty
  rw [step_scheduled hport hturns]
  have holdest : (State.master { s with turns := ts } m).waiting = acc :: rest := by
    cases m <;> exact hwaiting
  rcases hempty with ⟨rfl, hq⟩ | ⟨rfl, hmbTx⟩
  · exact runMaster_stalls holdest rfl ((busRead_qtag (target_qtag ..)).trans (popRow_empty (by simpa using hq)))
  · exact runMaster_stalls holdest rfl ((busRead_mbTx (target_mbTx ..)).trans (takeMbTx_empty (by simpa using hmbTx)))

/-- Settles O41: a take of the full MB_TX, and a write of MB_RX that is accepted or dropped. -/
theorem mailboxTakesAndDrops : Obligations.MailboxTakesAndDrops := by
  refine fun s => ⟨fun hfull => (busRead_mbTx (target_mbTx ..)).trans (takeMbTx_full hfull),
    fun v hwait hempty => ?_, fun v hrefused => ?_⟩
  · have haccepted : s.hsState = .wait ∧ (!s.mbRx.valid) = true := ⟨hwait, by rw [hempty]; rfl⟩
    exact (busWrite_mapped (target_mbRx ..) v).trans (congrArg _ (if_pos haccepted))
  · have hdropped : ¬ (s.hsState = .wait ∧ (!s.mbRx.valid) = true) := fun ⟨hwait, hempty⟩ =>
      hrefused.elim (· hwait) fun hfull => by simp [hfull] at hempty
    exact (busWrite_mapped (target_mbRx ..) v).trans (congrArg _ (if_neg hdropped))

/-! ## The core-launch handshake (R241, R242, R243) -/

/-- Settles O25: HANDSHAKE_START is guarded by HS_IDLE alone. -/
theorem handshakeStartBegins : Obligations.HandshakeStartBegins :=
  ⟨rfl, fun _ => ⟨fun hidle => congrArg _ (if_pos hidle), fun hbusy => congrArg _ (if_neg hbusy)⟩⟩

section

variable {s : State}

/-- Below HS_LEN the index names a word of the sequence (R51). -/
theorem hsWord_of_lt (h : s.hsIdx.toNat < 3) :
    s.hsWord = some ([s.hsVec, s.hsSp, s.hsEntry].getD s.hsIdx.toNat 0) := by
  unfold State.hsWord
  generalize s.hsIdx = i at h ⊢
  match i, h with
  | 0, _ | 1, _ | 2, _ => rfl

/-- A correct echo advances the index; that of the last word ends the handshake (R243). -/
theorem hsEcho_match {w : Word} (h : s.mbRx.data = w) :
    s.hsEcho w = { s with
      mbRx := ⟨false, s.mbRx.data⟩
      hsIdx := s.hsIdx + 1
      hsState := if s.hsIdx = 2 then .done else .send } := by
  have hlast : ∀ i : BitVec 2, i + 1 = 3 ↔ i = 2 := by decide
  unfold State.hsEcho
  simp only [if_pos h, hlast]

/-- A wrong echo sends the same word again (R243). -/
theorem hsEcho_mismatch {w : Word} (h : s.mbRx.data ≠ w) :
    s.hsEcho w = { s with mbRx := ⟨false, s.mbRx.data⟩, hsState := .send } := if_neg h

theorem hsSend_sends {w : Word} (hsend : s.hsState = .send) (hempty : s.mbTx.valid = false) (hw : s.hsWord = some w) :
    s.hsSend = some { s with mbTx := ⟨true, w⟩, hsState := .wait } := by
  unfold State.hsSend
  rw [if_pos ⟨hsend, by rw [hempty]; rfl⟩, hw]
  rfl

theorem hsCheck_checks {w : Word} (hwait : s.hsState = .wait) (hfull : s.mbRx.valid = true) (hw : s.hsWord = some w) :
    s.hsCheck = some (s.hsEcho w) := by
  unfold State.hsCheck
  rw [if_pos ⟨hwait, hfull⟩, hw]
  rfl

end

/-- Settles O42: the two steps with the word the index names, and both disabled outside their guards. -/
theorem handshakeSendsAndChecks : Obligations.HandshakeSendsAndChecks := by
  refine fun s => ⟨fun hindex => ?_, fun hguard => disabled_turn (k := .hsSend) (if_neg ?_), fun hguard =>
    disabled_turn (k := .hsCheck) (if_neg hguard)⟩
  · have hword := hsWord_of_lt hindex
    refine ⟨fun hsend hempty => enabled_turn (hsSend_sends hsend hempty hword), fun hwait hfull => ?_⟩
    rw [enabled_turn (k := .hsCheck) (hsCheck_checks hwait hfull hword)]
    exact ⟨fun hecho => congrArg _ (hsEcho_match hecho), fun hecho => congrArg _ (hsEcho_mismatch hecho)⟩
  · simpa using hguard

/-! ## What moves the index (R244, R246) -/

section

variable {s t : State}

/-- `t` has the HS_IDX of `s`, and HS_DONE where `s` has it. -/
def SameProgress (s t : State) : Prop := t.hsIdx = s.hsIdx ∧ (t.hsState = .done ↔ s.hsState = .done)

theorem SameProgress.of_eq (hidx : t.hsIdx = s.hsIdx := by rfl) (hstate : t.hsState = s.hsState := by rfl) :
    SameProgress s t := ⟨hidx, by rw [hstate]⟩

theorem SameProgress.of_bus (h : OnlyBusReached s t) : SameProgress s t := by
  rw [OnlyBusReached] at h
  rw [h]
  exact .of_eq

theorem SameProgress.ite {c : Prop} [Decidable c] {u : State} (ht : SameProgress s t) (hu : SameProgress s u) :
    SameProgress s (if c then t else u) := by
  split
  · exact ht
  · exact hu

/-- Of the instructions only HANDSHAKE_START touches the handshake (R241). -/
theorem exec_progress {i : Instr} (h : exec i s = .next t) :
    SameProgress s t ∨
      (i = .handshakeStart ∧ s.hsState = .idle ∧ t.hsIdx = 0 ∧ t.hsState = .send) := by
  cases i with
  | nop | illegal | adcConv | adcSetup | adcNull => cases h; exact .inl .of_eq
  | initAdc =>
    cases h
    rw [setupDev_frame (s.setupDev .a), setupDev_frame s]
    exact .inl (.ite .of_eq .of_eq)
  | chainClear | startScan | faultClear | adcRequest | adcRead => cases h; exact .inl (.ite .of_eq .of_eq)
  | chainAdvance b => cases h; exact .inl (.ite .of_eq (.ite .of_eq .of_eq))
  | handshakeStart =>
    cases h
    split
    · exact .inr ⟨rfl, by assumption, rfl, rfl⟩
    · exact .inl .of_eq

/-- Of the steps of SEQ only HS_CHECK makes progress, and only on a correct echo (R243). -/
theorem seqStep_progress {k : SeqStep} (h : s.seqStep k = some t) :
    SameProgress s t ∨
      (k = .hsCheck ∧ s.hsState = .wait ∧ s.mbRx.valid = true ∧ s.hsWord = some s.mbRx.data ∧
        t.hsIdx = s.hsIdx + 1 ∧ (t.hsState = .done → s.hsIdx = 2)) := by
  cases k with
  | issue => obtain ⟨-, rfl⟩ := issue_eq_some h; exact .inl .of_eq
  | service d => obtain ⟨-, rfl⟩ := service_eq_some h; exact .inl .of_eq
  | handoff =>
    obtain ⟨-, ⟨-, rfl⟩ | ⟨-, rfl⟩⟩ := handoff_eq_some h <;> rw [deliver_frame] <;> exact .inl .of_eq
  | hsSend =>
    obtain ⟨⟨hsend, -⟩, w, -, rfl⟩ := hsSend_eq_some h
    exact .inl ⟨rfl, by simp [hsend]⟩
  | hsCheck =>
    obtain ⟨⟨hwait, hfull⟩, w, hw, rfl⟩ := hsCheck_eq_some h
    by_cases hecho : s.mbRx.data = w
    · rw [hsEcho_match hecho]
      exact .inr ⟨rfl, hwait, hfull, hecho ▸ hw, rfl, fun hdone => by simpa using hdone⟩
    · rw [hsEcho_mismatch hecho]
      exact .inl ⟨rfl, by simp [hwait]⟩

/-- What a step can do to the index and to HS_DONE: nothing, a correct echo, HANDSHAKE_START or RESET. -/
theorem step_progress (hport : s.linkPort = none) (h : step s = .next t) :
    SameProgress s t ∨
    (s.nextTurn.1 = .seq .hsCheck ∧ s.hsState = .wait ∧ s.mbRx.valid = true ∧ s.hsWord = some s.mbRx.data ∧
      t.hsIdx = s.hsIdx + 1 ∧ (t.hsState = .done → s.hsIdx = 2)) ∨
    (s.nextCommand = some .handshakeStart ∧ s.hsState = .idle ∧ t.hsIdx = 0 ∧ t.hsState = .send) ∨
    (s.nextTurn.1 = .reset ∧ t.hsIdx = 0 ∧ t.hsState = .idle) := by
  obtain ⟨ts, n, hdid⟩ := step_did_from hport h
  have hbus : ∀ {u}, OnlyBusReached { s with turns := ts, draws := n } u → SameProgress s u := SameProgress.of_bus
  cases hdid with
  | waited m w => exact .inl (hbus (onlyBusReached_setWaiting ..))
  | read m w acc x u hacc hop hr => exact .inl (hbus (masterRead_onlyBusReached hr))
  | badWrite m w => exact .inl (hbus (masterBadWrite_onlyBusReached ..))
  | write m w acc x r t hacc hop ht hr he => exact .inl (hbus (masterWrite_onlyBusReached hr he))
  | command m w i t hc hi he =>
    have hprogress := exec_progress he
    rw [SameProgress, State.setWaiting_hsIdx, State.setWaiting_hsState] at hprogress
    rcases hprogress with hsame | ⟨rfl, hstart⟩
    · exact .inl hsame
    · exact .inr (.inr (.inl ⟨hc, hstart⟩))
  | seq k t hk he =>
    rcases seqStep_progress he with hsame | ⟨rfl, hecho⟩
    · exact .inl hsame
    · exact .inr (.inl ⟨hk, hecho⟩)
  | eoc d x => rw [eocDrive_frame]; exact .inl .of_eq
  | tick => rw [tick_frame]; exact .inl .of_eq
  | disabled | answer | linkReady | srOut => exact .inl .of_eq
  | reset hk => exact .inr (.inr (.inr ⟨hk, rfl, rfl⟩))

end

/-- Settles O43, by the cases of `step_progress`: each clause rules out those it does not name. -/
theorem handshakeAdvancesOnlyOnEcho : Obligations.HandshakeAdvancesOnlyOnEcho := by
  intro s t hport h
  rcases step_progress hport h with ⟨hidx, hdone⟩ | ⟨hk, hwait, hfull, hword, hnext, hlast⟩ |
    ⟨hc, hidle, hzero, hsend⟩ | ⟨hk, hzero, hidle⟩
  · exact ⟨fun hne => absurd hidx hne, fun ht hs => absurd (hdone.mp ht) hs, fun hs => .inl (hdone.mpr hs)⟩
  · exact ⟨fun _ => .inl ⟨hk, hwait, hfull, hword, hnext⟩, fun ht _ => ⟨hk, hlast ht, hword⟩,
      fun hs => nomatch hwait.symm.trans hs⟩
  · exact ⟨fun _ => .inr (.inl ⟨hc, hidle, hzero⟩), fun ht => (nomatch hsend.symm.trans ht),
      fun hs => nomatch hidle.symm.trans hs⟩
  · exact ⟨fun _ => .inr (.inr ⟨hk, hzero⟩), fun ht => (nomatch hidle.symm.trans ht), fun _ => .inr hk⟩

end Sys2Proof.Machine

/-! The statements of 44_control.md: one configuration per scan, the accesses of the bus masters, NOP and the Illegal
words, the acceptance table, FAULT_CLEAR, and the guards of the register writes. -/

namespace Sys2Proof.Machine

/-! ## One configuration per scan (R45, R276) -/

/-- While a scan runs, no turn but RESET changes CONFIG or TIMEOUT, whether the scan goes on or ends. -/
theorem takeTurn_keeps_configuration {s t : State} {k : Turn} (hscan : s.state = .scanning) (hk : k ≠ .reset)
    (h : s.takeTurn k = .next t) : t.config = s.config ∧ t.timeout = s.timeout := by
  rcases takeTurn_scanning hscan h with hsame | ⟨d, v, -, rfl⟩ | ⟨-, rfl⟩ | ⟨j, hj, -, hstep⟩ | hreset
  · exact ⟨hsame.config, hsame.timeout⟩
  · rw [eocDrive_frame]
    exact ⟨rfl, rfl⟩
  · rw [tick_frame]
    exact ⟨rfl, rfl⟩
  · obtain ⟨hconfig, htimeout, -⟩ := scanStep_config hj hstep
    exact ⟨hconfig, htimeout⟩
  · exact absurd hreset hk

/-- Settles O36: the step is its turn, taken in a state with the same STATE, CONFIG and TIMEOUT. -/
theorem oneConfigurationPerScan : Obligations.OneConfigurationPerScan := by
  intro s t hport h hscan hreset
  obtain ⟨ts, n, hnext⟩ : ∃ ts n, s.nextTurn.2 = { s with turns := ts, draws := n } := ⟨_, _, nextTurn_frame s⟩
  rw [step_eq_turn hport, hnext] at h
  exact takeTurn_keeps_configuration (s := { s with turns := ts, draws := n }) hscan hreset h

/-! ## The accesses of the bus masters (R12, R24, R88, R272) -/

section

variable {s : State} {m : MasterId} {acc : BusAccess} {rest : List BusAccess}

/-- A turn of a master with something to wait on is its turn with the oldest access, whether it is issued now or tried
again. -/
theorem step_of_masterTurn {ts : List Turn} (hport : s.linkPort = none)
    (hturn : (s.turns = .retry m :: ts ∧ (s.master m).waiting = acc :: rest) ∨
      ∃ new, s.turns = .access m new :: ts ∧ (s.master m).waiting ++ [new] = acc :: rest) :
    step s = (State.setWaiting { s with turns := ts } m (acc :: rest)).runMaster m := by
  have hmaster : State.master { s with turns := ts } m = s.master m := by cases m <;> rfl
  rcases hturn with ⟨hturns, hwaiting⟩ | ⟨new, hturns, hwaiting⟩
  · rw [step_scheduled hport hturns, ← hwaiting, ← hmaster, setWaiting_self]
    rfl
  · rw [step_scheduled hport hturns, ← hwaiting, ← hmaster]
    rfl

/-- A master whose oldest access completes has made its turn. -/
theorem runMaster_of_access {o : Host.Outcome State Fault Refusal} (hwaiting : (s.master m).waiting = acc :: rest)
    (haccess : (s.setWaiting m rest).access m acc = some o) : s.runMaster m = o := by
  unfold State.runMaster
  rw [hwaiting]
  exact congrArg (Option.getD · _) haccess

/-- A write never stalls: it is the bus write. -/
theorem runMaster_write {v : Word} (hwaiting : (s.master m).waiting = acc :: rest) (hop : acc.op = .write v) :
    s.runMaster m = (s.setWaiting m rest).busWrite acc v := by
  refine runMaster_of_access hwaiting ?_
  unfold State.access
  rw [hop]

/-- A read that completes gives its value to the master. -/
theorem runMaster_read {v : Word} {t : State} (hwaiting : (s.master m).waiting = acc :: rest) (hop : acc.op = .read)
    (hread : (s.setWaiting m rest).busRead acc = some (v, t)) : s.runMaster m = .next (t.pushReturned m v) := by
  refine runMaster_of_access hwaiting ?_
  unfold State.access
  rw [hop, hread]
  rfl

end

/-- Settles O9: what the master's turn does with its oldest access, a write, a command, a read or a stall. -/
theorem stepRunsBusAccesses : Obligations.StepRunsBusAccesses := by
  intro s m acc rest ts hport hturn
  have holdest := master_setWaiting { s with turns := ts } m (acc :: rest)
  have hrest := setWaiting_setWaiting { s with turns := ts } m (acc :: rest) rest
  rw [step_of_masterTurn hport hturn, ← hrest]
  refine ⟨fun v hop => runMaster_write holdest hop, ?_,
    fun hop => ⟨fun v t hread => runMaster_read holdest hop hread, fun hread => runMaster_stalls holdest hop hread⟩⟩
  rintro w rfl
  exact runMaster_cmdAccess holdest

/-! ## NOP and the Illegal words (R114, R270) -/

/-- Settles O13: a master that waits on nothing writes the word at once, and it decodes as Illegal. -/
theorem nopAndIllegalWords : Obligations.NopAndIllegalWords := by
  refine ⟨⟨rfl, rfl⟩, fun _ => rfl, fun _ _ => rfl, fun s m w ts hport hwaiting hturns hillegal => ?_⟩
  have hturn : (s.master m).waiting ++ [cmdAccess w] = [cmdAccess w] := by rw [hwaiting, List.nil_append]
  obtain ⟨-, hcommand, -⟩ := stepRunsBusAccesses s m _ [] ts hport (.inr ⟨_, hturns, hturn⟩)
  have hidle : State.setWaiting { s with turns := ts } m [] = { s with turns := ts } := by
    cases m <;> exact hwaiting ▸ setWaiting_self { s with turns := ts } _
  rw [hcommand w rfl, (Laws.RoundTrip.decodeCmd_illegal_iff w).mpr hillegal, hidle]
  rfl

/-! ## The acceptance table (R273, R274) -/

section

variable (s : State)

theorem byState_always : s.byState true true true true = true := by
  unfold State.byState
  cases s.state <;> rfl

theorem byState_idleOrDone : s.byState true false true false = s.idleOrDone := by
  unfold State.byState State.idleOrDone
  cases s.state <;> rfl

theorem byState_notScanning_iff : s.byState true false true true = true ↔ s.state ≠ .scanning := by
  unfold State.byState
  cases s.state <;> decide

theorem byState_fault_iff : s.byState false false false true = true ↔ s.state = .fault := by
  unfold State.byState
  cases s.state <;> decide

theorem byState_scanning {s : State} (h : s.state = .scanning) (idle scanning done fault : Bool) :
    s.byState idle scanning done fault = scanning := by
  unfold State.byState
  rw [h]

/-- Every instruction is guarded by the table: it has an effect `t`, which leaves STATE_REJECT as it is, where the table
accepts it, and elsewhere it only sets STATE_REJECT. -/
theorem exec_guarded (i : Instr) : ∃ t, exec i s = .next (if accepted i s then t else s.setErr .stateReject) ∧
    t.err.getLsbD 1 = s.err.getLsbD 1 := by
  cases i with
  | nop =>
    rw [accepted, byState_always]
    exact ⟨s, rfl, rfl⟩
  | initAdc =>
    rw [accepted, byState_idleOrDone]
    exact ⟨(s.setupDev .a).setupDev .b, rfl, by rw [setupDev_err, setupDev_err]⟩
  | chainClear =>
    simp only [accepted, byState_notScanning_iff, ite_not]
    exact ⟨s.chainClear, rfl, by simp⟩
  | chainAdvance b =>
    rw [accepted, byState_idleOrDone, exec_chainAdvance]
    refine ⟨_, rfl, ?_⟩
    split
    · simp [ErrBit.mask]
    · simp
  | startScan | adcRequest | adcRead =>
    rw [accepted, byState_idleOrDone]
    exact ⟨_, rfl, by simp⟩
  | faultClear =>
    simp only [accepted, byState_fault_iff]
    exact ⟨s.leaveFault, rfl, rfl⟩
  | handshakeStart =>
    simp only [accepted, byState_always, Bool.true_and, beq_iff_eq]
    exact ⟨{ s with hsIdx := 0, hsState := .send }, rfl, rfl⟩
  | illegal w => exact ⟨s.setErr .illegalCmd, rfl, by simp [ErrBit.mask]⟩
  | adcConv | adcSetup | adcNull => exact ⟨_, rfl, by simp⟩

/-- During a scan the table accepts NOP and HANDSHAKE_START alone; the Illegal words are not in it. -/
theorem accepted_scanning {s : State} (hscan : s.state = .scanning) {i : Instr} (hcmd : i.cmdWord?.isSome = true)
    (h : accepted i s = true) : i = .nop ∨ i = .handshakeStart ∨ ∃ w, i = .illegal w := by
  cases i with
  | nop => exact .inl rfl
  | handshakeStart => exact .inr (.inl rfl)
  | illegal w => exact .inr (.inr ⟨w, rfl⟩)
  | initAdc | chainClear | chainAdvance | startScan | faultClear | adcRequest | adcRead =>
    rw [accepted, byState_scanning hscan] at h
    cases h
  | adcConv | adcSetup | adcNull => cases hcmd

end

/-- Settles O19: both outcomes of the guard, and the table's SCANNING column. -/
theorem rejectionFollowsTheTable : Obligations.RejectionFollowsTheTable := by
  refine ⟨fun i s hrefused => ?_, fun i s haccepted => ?_, fun s hscan i => accepted_scanning hscan⟩
  · obtain ⟨t, hexec, -⟩ := exec_guarded s i
    rw [hexec, hrefused]
    rfl
  · obtain ⟨t, hexec, hkept⟩ := exec_guarded s i
    rw [haccepted] at hexec
    exact ⟨t, hexec, hkept⟩

/-! ## FAULT_CLEAR (R271) -/

/-- Settles O21: FAULT_CLEAR is guarded by FAULT alone. -/
theorem faultClearReturnsToIdle : Obligations.FaultClearReturnsToIdle :=
  ⟨rfl, fun _ => ⟨fun hfault => congrArg _ (if_pos hfault), fun hother => congrArg _ (if_neg hother)⟩⟩

/-! ## The guards of the register writes (R275, R276, R277) -/

section

variable {s : State}

theorem hsWritable_iff : s.hsWritable = true ↔ s.hsState = .idle ∨ s.hsState = .done := by
  simp [State.hsWritable]

/-- A running handshake keeps the three words from being written (R277). -/
theorem not_hsWritable (h : s.hsState = .send ∨ s.hsState = .wait) : ¬ s.hsWritable = true := by
  rw [hsWritable_iff]
  rcases h with h | h <;> simp [h]

/-- Write 1 to clear (R275). -/
theorem clearErr_getLsbD (s : State) (v : Word) {i : Nat} (hi : i < 8) :
    (s.clearErr v).err.getLsbD i = (s.err.getLsbD i && !v.getLsbD i) := by
  simp [State.clearErr, hi]

end

/-- Settles O51: each writable register with its own guard. -/
theorem registerWritesObeyTheirGuards : Obligations.RegisterWritesObeyTheirGuards := by
  intro s v
  have herr : s.writeAt .err v = .next (s.clearErr v) := writeAt_eq s v (by decide)
  have hconfig : s.writeAt .config v = .next (s.writeConfig v) := writeAt_eq s v (by decide)
  have htimeout : s.writeAt .timeout v = .next (s.writeTimeout v) := writeAt_eq s v (by decide)
  have hvec : s.writeAt .hsVec v = .next (s.writeHsVec v) := writeAt_eq s v (by decide)
  have hsp : s.writeAt .hsSp v = .next (s.writeHsSp v) := writeAt_eq s v (by decide)
  have hentry : s.writeAt .hsEntry v = .next (s.writeHsEntry v) := writeAt_eq s v (by decide)
  refine ⟨⟨_, herr, rfl, fun i => clearErr_getLsbD s v⟩, fun hscan => ?_, fun hscan r hr => ?_, fun hfree => ?_,
    fun hbusy r hr => ?_⟩
  · exact ⟨hconfig.trans (congrArg _ (if_neg hscan)), htimeout.trans (congrArg _ (if_neg hscan))⟩
  · rcases hr with rfl | rfl
    · exact hconfig.trans (congrArg _ (if_pos hscan))
    · exact htimeout.trans (congrArg _ (if_pos hscan))
  · have hok := hsWritable_iff.mpr hfree
    exact ⟨hvec.trans (congrArg _ (if_pos hok)), hsp.trans (congrArg _ (if_pos hok)),
      hentry.trans (congrArg _ (if_pos hok))⟩
  · have hno := not_hsWritable hbusy
    rcases hr with rfl | rfl | rfl
    · exact hvec.trans (congrArg _ (if_neg hno))
    · exact hsp.trans (congrArg _ (if_neg hno))
    · exact hentry.trans (congrArg _ (if_neg hno))

/-! ## The handshake words (R241, R277) -/

section

variable {s t u : State}

/-- `t` has the three handshake words of `s`. -/
def SameHsWords (s t : State) : Prop := t.hsVec = s.hsVec ∧ t.hsSp = s.hsSp ∧ t.hsEntry = s.hsEntry

theorem SameHsWords.of_eq (hvec : t.hsVec = s.hsVec := by rfl) (hsp : t.hsSp = s.hsSp := by rfl)
    (hentry : t.hsEntry = s.hsEntry := by rfl) : SameHsWords s t := ⟨hvec, hsp, hentry⟩

theorem SameHsWords.trans (h : SameHsWords s t) (h' : SameHsWords t u) : SameHsWords s u := by
  obtain ⟨hvec, hsp, hentry⟩ := h
  obtain ⟨hvec', hsp', hentry'⟩ := h'
  exact ⟨hvec'.trans hvec, hsp'.trans hsp, hentry'.trans hentry⟩

theorem SameHsWords.ite {c : Prop} [Decidable c] (ht : c → SameHsWords s t) (hu : SameHsWords s u) :
    SameHsWords s (if c then t else u) := by
  split
  · exact ht (by assumption)
  · exact hu

/-- While a handshake runs, a write of its words is refused, and no other register write touches them (R277). -/
theorem writeReg_sameHsWords {r : Reg} {v : Word} (hbusy : s.hsState = .send ∨ s.hsState = .wait) (hr : r ≠ .cmd)
    (h : s.writeReg r v = .next t) : SameHsWords s t := by
  cases r with
  | cmd => exact absurd rfl hr
  | hsVec | hsSp | hsEntry =>
    cases h
    exact .ite (fun hfree => absurd hfree (not_hsWritable hbusy)) .of_eq
  | config | timeout | mbRx => cases h; exact .ite (fun _ => .of_eq) .of_eq
  | err | status | col | chain0 | chain1 | fault | qcount | param | mbTx | qtag | rowbuf | qout | frame =>
    cases h; exact .of_eq

/-- A read touches the queue or the mailbox at most. -/
theorem busRead_sameHsWords {acc : BusAccess} {v : Word} (h : s.busRead acc = some (v, t)) : SameHsWords s t := by
  rcases busRead_eq_some h with ⟨-, -, rfl⟩ | ⟨-, e, rest, -, -, rfl⟩ | ⟨-, -, -, rfl⟩ | ⟨-, -, -, -, -, rfl⟩
  · exact .of_eq
  · exact .of_eq
  · exact .of_eq
  · exact .of_eq

/-- A step of SEQ reads the words at most. -/
theorem seqStep_sameHsWords {k : SeqStep} (h : s.seqStep k = some t) : SameHsWords s t := by
  cases k with
  | issue => obtain ⟨-, rfl⟩ := issue_eq_some h; exact .of_eq
  | service d => obtain ⟨-, rfl⟩ := service_eq_some h; exact .of_eq
  | handoff =>
    obtain ⟨-, ⟨-, rfl⟩ | ⟨-, rfl⟩⟩ := handoff_eq_some h <;> rw [deliver_frame] <;> exact .of_eq
  | hsSend => obtain ⟨-, w, -, rfl⟩ := hsSend_eq_some h; exact .of_eq
  | hsCheck => obtain ⟨-, w, -, rfl⟩ := hsCheck_eq_some h; rw [hsEcho_frame]; exact .of_eq

/-- What a step did to the words while a handshake runs, from the state `v` its turn was taken in: only RESET writes
them. -/
theorem StepDid.sameHsWords {v : State} (h : StepDid s v t) (hbusy : v.hsState = .send ∨ v.hsState = .wait)
    (hreset : s.nextTurn.1 ≠ .reset) : SameHsWords v t := by
  have hw : ∀ m w, SameHsWords v (v.setWaiting m w) := fun m w =>
    .of_eq (State.setWaiting_hsVec ..) (State.setWaiting_hsSp ..) (State.setWaiting_hsEntry ..)
  cases h with
  | waited m w => exact hw m w
  | read m w acc x u hacc hop hr =>
    have hread := (hw m w).trans (busRead_sameHsWords hr)
    exact hread.trans
      (.of_eq (State.pushReturned_hsVec ..) (State.pushReturned_hsSp ..) (State.pushReturned_hsEntry ..))
  | badWrite m w => exact (hw m w).trans .of_eq
  | command m w i t hc hi he =>
    rw [exec_frame he]
    exact (hw m w).trans .of_eq
  | write m w acc x r t hacc hop ht hr he =>
    exact (hw m w).trans (writeReg_sameHsWords (by rwa [State.setWaiting_hsState]) hr he)
  | seq k t hk he => exact seqStep_sameHsWords he
  | eoc d x => rw [eocDrive_frame]; exact .of_eq
  | tick => rw [tick_frame]; exact .of_eq
  | disabled | answer | linkReady | srOut => exact .of_eq
  | reset hk => exact absurd hk hreset

end

/-- Settles O44: moving the schedule on leaves the words and HS_STATE as they are. -/
theorem handshakeWordsStayFixed : Obligations.HandshakeWordsStayFixed := by
  intro s t hport h hbusy hreset
  obtain ⟨ts, n, hdid⟩ := step_did_from hport h
  exact hdid.sameHsWords (v := { s with turns := ts, draws := n }) hbusy hreset

end Sys2Proof.Machine

/-! The statements of 60_exceptions.md: what can and cannot happen in FAULT. -/

namespace Sys2Proof.Machine

section

variable {s : State}

/-! ## Outside a scan (R24, R307) -/

/-- The scan steps of SEQ are enabled only in SCANNING. -/
theorem scanStep_disabled (hscan : s.state ≠ .scanning) {k : SeqStep}
    (hk : k = .issue ∨ k = .service .a ∨ k = .service .b ∨ k = .handoff) : s.seqStep k = none := by
  have hservice (d : Dev) : s.serviceReady d ≠ true := fun hready => hscan ((serviceReady_iff s d).mp hready).1
  rcases hk with rfl | rfl | rfl | rfl
  · exact if_neg fun hguard => hscan hguard.1
  · exact if_neg (hservice .a)
  · exact if_neg (hservice .b)
  · exact if_neg fun hready => hscan ((handoffReady_iff s).mp hready).1

theorem tick_outside_scan (hscan : s.state ≠ .scanning) : s.tick = s := if_neg fun hguard => hscan hguard.1

theorem eocDrive_outside_scan (hscan : s.state ≠ .scanning) (d : Dev) (v : Bool) :
    s.eocDrive d v = { s with eoc := s.eoc.set d v } := by
  rw [eocDrive_eq, if_neg fun ⟨_, _, hin, _⟩ => hscan hin, if_neg fun ⟨_, _, hin, _⟩ => hscan hin]

/-! ## When the steps of the handshake are enabled (R242, R243) -/

/-- A step that needs a guard and a value is enabled where both are there. -/
theorem isSome_guarded_map {α β : Type} (c : Prop) [Decidable c] (o : Option α) (f : α → β) :
    (if c then o.map f else none).isSome = true ↔ c ∧ o.isSome = true := by
  split
  · next hguard => rw [Option.isSome_map, and_iff_right hguard]
  · next hguard => exact iff_of_false Bool.false_ne_true fun h => hguard h.1

theorem hsSend_enabled_iff (s : State) :
    s.Enabled .hsSend ↔ (s.hsState = .send ∧ (!s.mbTx.valid) = true) ∧ s.hsWord.isSome = true :=
  isSome_guarded_map ..

theorem hsCheck_enabled_iff (s : State) :
    s.Enabled .hsCheck ↔ (s.hsState = .wait ∧ s.mbRx.valid = true) ∧ s.hsWord.isSome = true :=
  isSome_guarded_map ..

/-- STATE is no part of what enables a step of the handshake. -/
theorem hsStep_enabled_any_state (st : ScanState) {k : SeqStep} (hk : k = .hsSend ∨ k = .hsCheck) :
    s.Enabled k ↔ State.Enabled { s with state := st } k := by
  rcases hk with rfl | rfl
  · exact (hsSend_enabled_iff s).trans (hsSend_enabled_iff { s with state := st }).symm
  · exact (hsCheck_enabled_iff s).trans (hsCheck_enabled_iff { s with state := st }).symm

/-! ## The FAULT column of the acceptance table (R273) -/

theorem byState_in_fault (hfault : s.state = .fault) (idle scanning done fault : Bool) :
    s.byState idle scanning done fault = fault := by
  unfold State.byState
  rw [hfault]

theorem decodeCmd_ne_illegal {w : Word} (h : isCommandWord w = true) (v : Word) : decodeCmd w ≠ .illegal v := by
  intro hillegal
  have hencode : Encoded.cmd v = .cmd w := by rw [← (encode_decodeCmd w).2, hillegal]; rfl
  obtain rfl : v = w := Encoded.cmd.inj hencode
  exact Bool.false_ne_true (((Laws.RoundTrip.decodeCmd_illegal_iff v).mp hillegal).symm.trans h)

/-- In FAULT the table accepts NOP, CHAIN_CLEAR and FAULT_CLEAR, and HANDSHAKE_START from HS_IDLE. -/
theorem accepted_in_fault_iff (hfault : s.state = .fault) {i : Instr} (hcmd : i.cmdWord?.isSome = true)
    (hlegal : ∀ w, i ≠ .illegal w) :
    accepted i s = true ↔
      i = .nop ∨ i = .chainClear ∨ i = .faultClear ∨ (i = .handshakeStart ∧ s.hsState = .idle) := by
  cases i with
  | illegal w => exact absurd rfl (hlegal w)
  | adcConv | adcSetup | adcNull => cases hcmd
  | nop | initAdc | chainClear | chainAdvance | startScan | faultClear | adcRequest | adcRead | handshakeStart =>
    simp [accepted, byState_in_fault hfault]

end

/-- Settles O33: FAULT is outside a scan, and the handshake and the queue do not depend on STATE. -/
theorem faultHoldsTheScan : Obligations.FaultHoldsTheScan := by
  intro s hfault
  have hscan : s.state ≠ .scanning := by rw [hfault]; decide
  refine ⟨fun k hk => disabled_turn (scanStep_disabled hscan hk), congrArg _ (tick_outside_scan hscan),
    fun d v => congrArg _ (eocDrive_outside_scan hscan d v), fun e rest hq => ?_,
    fun k hk st => hsStep_enabled_any_state st hk,
    fun w hw => accepted_in_fault_iff hfault (decodeCmd_isCommand w) (decodeCmd_ne_illegal hw)⟩
  obtain ⟨t, hread, htail, -⟩ := qtagReadPopsHead s e rest hq
  exact ⟨t, hread, congrArg State.q htail⟩

end Sys2Proof.Machine

/-! The statements on RESET (R60, R340) and on the hazard of a scan that waits for ever (R357). -/

namespace Sys2Proof.Machine

/-! ## A timed scan ends where SERVICE is fair (R201, R202, R209, R357) -/

/-- From time `n` on the scan waits for ever on ADC `d`. -/
def PendsForEver (r : Nat → State) (n : Nat) (d : Dev) : Prop :=
  ∀ j, n ≤ j → (r j).phase = .wait ∧ (r j).pend.get d = true

section

variable {r : Nat → State} {u : Nat → Turn} {n m : Nat} {d : Dev}

theorem service_enabled_iff (s : State) (d : Dev) : s.Enabled (.service d) ↔
    s.state = .scanning ∧ s.phase = .wait ∧ s.cond d = true ∧ (d = .b → s.cond .a = false) := by
  simp [← serviceReady_iff, State.Enabled, State.seqStep, State.service]

/-- An enabled SERVICE that is taken drops its pending flag (R201). -/
theorem IsRun.service_pend (hr : IsRun r u) (hen : (r n).Enabled (.service d)) (hu : u n = .seq (.service d)) :
    (r (n + 1)).pend.get d = false := by
  obtain ⟨t, ht⟩ := Option.isSome_iff_exists.mp hen
  have hrun := hr n
  rw [hu, enabled_turn ht] at hrun
  obtain ⟨-, rfl⟩ := service_eq_some ht
  rw [← Host.Outcome.next.inj hrun]
  simp [State.served]

namespace EndlessScan

/-- A SERVICE that every tick finds enabled is taken, so its ADC does not pend for ever (log 20). -/
theorem not_pends_of_enabled (h : EndlessScan r u) (hf : FairAtTicks r u)
    (hen : ∀ j, m ≤ j → u j = .tick → (r j).Enabled (.service d)) : ¬ PendsForEver r n d := by
  intro hw
  obtain ⟨j, hj, henj, hu⟩ := hf (.service d) (max m n) fun j hj => hen j (by omega)
  exact nomatch (h.run.service_pend henj hu).symm.trans (hw (j + 1) (by omega)).2

/-- In WAIT an ADC that was served is not pending again. -/
theorem stays_served (h : EndlessScan r u) {e : Dev} (hw : PendsForEver r n d) (hm : n ≤ m)
    (hserved : (r m).pend.get e = false) : ∀ j, m ≤ j → (r j).pend.get e = false := by
  intro j hj
  induction j, hj using Nat.le_induction with
  | base => exact hserved
  | succ j hj ih =>
    rw [← Bool.not_eq_true] at ih ⊢
    exact fun hpend => ih (takeTurn_pending (h.scanning j) (h.scanning (j + 1)) (h.noReset j) (h.run j)
      (hw j (by omega)).1 hpend).1

/-- The ticks find an ADC A that pends for ever complete, and A is served first (R202). -/
theorem not_pends_a (h : EndlessScan r u) (h0 : (r 0).timeout ≠ 0) (hf : FairAtTicks r u) :
    ¬ PendsForEver r n .a := by
  intro hw
  obtain ⟨m, hnm, hcond⟩ := h.complete_at_ticks h0 hw
  refine h.not_pends_of_enabled hf (m := m) (fun j hj hu => ?_) hw
  exact (service_enabled_iff ..).mpr ⟨h.scanning j, (hw j (by omega)).1, hcond j hj hu, Dev.noConfusion⟩

/-- A is not pending in the end, and from then on no longer keeps B from being served (R202). -/
theorem not_pends_b (h : EndlessScan r u) (h0 : (r 0).timeout ≠ 0) (hf : FairAtTicks r u) :
    ¬ PendsForEver r n .b := by
  intro hw
  obtain ⟨m, hnm, hcond⟩ := h.complete_at_ticks h0 hw
  obtain ⟨i, hni, hserved⟩ : ∃ i, n ≤ i ∧ (r i).pend.get .a = false := by
    by_contra hno
    exact h.not_pends_a h0 hf fun j hj =>
      ⟨(hw j hj).1, eq_true_of_ne_false fun hserved => hno ⟨j, hj, hserved⟩⟩
  refine h.not_pends_of_enabled hf (m := max m i) (fun j hj hu => ?_) hw
  exact (service_enabled_iff ..).mpr ⟨h.scanning j, (hw j (by omega)).1, hcond j (by omega) hu,
    fun _ => cond_of_not_pend (h.stays_served hw hni hserved j (by omega))⟩

theorem not_pends (h : EndlessScan r u) (h0 : (r 0).timeout ≠ 0) (hf : FairAtTicks r u) : ¬ PendsForEver r n d :=
  match d with
  | .a => h.not_pends_a h0 hf
  | .b => h.not_pends_b h0 hf

/-- An ADC that pends for ever is complete for good in the end, or in LEVEL mode its line toggles for ever. -/
theorem complete_or_toggles (h : EndlessScan r u) (h0 : (r 0).timeout ≠ 0) (hw : PendsForEver r n d) :
    (∃ m, ∀ i, m ≤ i → (r i).cond d = true) ∨ ((r 0).config.eocMode = false ∧ TogglesForEver r d) := by
  obtain ⟨m, hnm, hcond⟩ := h.complete_at_ticks h0 hw
  have hagain : ∀ i, ∃ j, i ≤ j ∧ m ≤ j ∧ (r j).cond d = true := fun i => by
    obtain ⟨j, hj, hu⟩ := h.fair.2 (max i m)
    exact ⟨j, by omega, by omega, hcond j (by omega) hu⟩
  have hconfig : ∀ j, (r j).config.eocMode = (r 0).config.eocMode := fun j => by rw [(h.config j).1]
  cases hmode : (r 0).config.eocMode with
  | true =>
    obtain ⟨j, -, hj, hc⟩ := hagain m
    have hedge := ((cond_iff_edge ((hconfig j).trans hmode)).mp hc).2
    exact .inl ⟨j, h.latched (by omega) hw hmode hedge⟩
  | false =>
    have hlevel : ∀ j, n ≤ j → ((r j).cond d = true ↔ (r j).eoc.get d = false) := fun j hj => by
      rw [cond_iff_level ((hconfig j).trans hmode), and_iff_right (hw j hj).2]
    refine or_iff_not_imp_left.mpr fun hnever => ⟨rfl, n, fun i hi => ⟨(hw i hi).1, (hw i hi).2, ?_, ?_⟩⟩
    · obtain ⟨j, hij, -, hc⟩ := hagain i
      exact ⟨j, hij, (hlevel j (by omega)).mp hc⟩
    · obtain ⟨j, hj⟩ := not_forall.mp fun hall => hnever ⟨i, hall⟩
      obtain ⟨hij, hc⟩ := Classical.not_imp.mp hj
      exact ⟨j, hij, by rwa [hlevel j (by omega), Bool.not_eq_false] at hc⟩

end EndlessScan

/-- A fair scan ends or stalls, if an ADC that pends for ever is complete for good in the end. -/
theorem FairScan.ends_or_stalls (h : FairScan r u)
    (hc : EndlessScan r u → ∀ n d, PendsForEver r n d → ∃ m, ∀ i, m ≤ i → (r i).cond d = true) :
    ScanEnds r ∨ StallsForEver r := by
  obtain ⟨hqueue, -⟩ := h.inv.queue
  obtain ⟨-, hcol, -⟩ := h.inv.cursor
  obtain ⟨hwait, -⟩ := h.inv.pend
  refine (scan_ends_or_endless h.run h.fair h.scanning h.noReset).imp_right fun hendless => ?_
  by_contra hstall
  refine hendless.ends hqueue hcol hwait.mp (fun n d _ => hc hendless n d) fun n => ?_
  by_contra hfull
  exact hstall ⟨n, fun m hm => eq_true_of_ne_false fun hroom => hfull ⟨m, hm, hroom⟩⟩

theorem FairScan.ends_of_fairAtTicks (h : FairScan r u) (h0 : (r 0).timeout ≠ 0) (hf : FairAtTicks r u) :
    ScanEnds r ∨ StallsForEver r :=
  h.ends_or_stalls fun hendless _ _ hw => absurd hw (hendless.not_pends h0 hf)

theorem FairScan.ends_or_toggles (h : FairScan r u) (h0 : (r 0).timeout ≠ 0) :
    ScanEnds r ∨ StallsForEver r ∨ ((r 0).config.eocMode = false ∧ ∃ d, TogglesForEver r d) := by
  rw [← or_assoc, or_iff_not_imp_right]
  exact fun hno => h.ends_or_stalls fun hendless _ d hw =>
    (hendless.complete_or_toggles h0 hw).resolve_right fun ⟨hlevel, htoggles⟩ => hno ⟨hlevel, d, htoggles⟩

/-- Ticks never end, so a step that every tick finds enabled is enabled again and again. -/
theorem StronglyFair.fairAtTicks (hs : StronglyFair r u) (hf : WeaklyFair r u) : FairAtTicks r u :=
  fun k n hen => hs k n fun m hm => by
    obtain ⟨j, hj, hu⟩ := hf.2 m
    exact ⟨j, hj, hen j (by omega) hu⟩

/-- A line that settles while its ADC is pending does not toggle for ever. -/
theorem LinesSettle.not_toggles (hs : LinesSettle r) : ¬ TogglesForEver r d := by
  rintro ⟨n, hn⟩
  obtain ⟨m, hm, hkeeps⟩ := hs n d
  have hlevel : ∀ j, m ≤ j → (r j).eoc.get d = (r m).eoc.get d := fun j hj =>
    hkeeps j hj fun i hi _ => (hn i (by omega)).2.1
  obtain ⟨-, -, ⟨i, hi, hlow⟩, j, hj, hhigh⟩ := hn m hm
  exact nomatch hlow.symm.trans ((hlevel i hi).trans ((hlevel j hj).symm.trans hhigh))

theorem FairScan.ends_of_settled (h : FairScan r u) (h0 : (r 0).timeout ≠ 0)
    (hs : (r 0).config.eocMode = true ∨ LinesSettle r ∨ StronglyFair r u) : ScanEnds r ∨ StallsForEver r := by
  rcases hs with hedge | hsettle | hstrong
  · exact (or_assoc.mpr (h.ends_or_toggles h0)).resolve_right fun ⟨hlevel, _⟩ => nomatch hlevel.symm.trans hedge
  · exact (or_assoc.mpr (h.ends_or_toggles h0)).resolve_right fun ⟨_, _, htoggles⟩ => hsettle.not_toggles htoggles
  · exact h.ends_of_fairAtTicks h0 (hstrong.fairAtTicks h.fair)

end

/-! ## A line that toggles between two ticks (log 20)

In LEVEL mode B's line stays low and A's goes low before each tick and high after it. Each tick finds both ADCs
complete and counts neither; SERVICE(A) is disabled while A's line is high, and SERVICE(B) while it is low (R202). -/

/-- A scan in LEVEL mode with a timeout set, which waits on both ADCs while no handshake runs. -/
structure AwaitsBoth (s : State) : Prop where
  inv : s.Inv
  scanning : s.state = .scanning
  wait : s.phase = .wait
  pend : s.pend = ⟨true, true⟩
  level : s.config.eocMode = false
  timeout : s.timeout ≠ 0
  idle : s.hsState = .idle

/-- The late scan after its ISSUE is such a scan. -/
theorem exists_awaitsBoth : ∃ s, AwaitsBoth s := by
  obtain ⟨t, ra, rb, hissue, -, -, ht⟩ := (issueRequestsBothAdcs lateScan).1 rfl rfl
  refine ⟨t, keptByAgents_inv.takeTurn lateScan_inv hissue, ?_, ?_, ?_, ?_, ?_, ?_⟩ <;> rw [ht]
  · rfl
  · rfl
  · exact (by decide : (1 : Word) ≠ 0)
  · rfl

/-- The turns: A's line goes low, a tick, A's line goes high. -/
def toggleTurn (n : Nat) : Turn :=
  match n % 3 with
  | 0 => .eocDrive .a false
  | 1 => .tick
  | _ => .eocDrive .a true

/-- The state with B's line low and A's at the level. -/
def State.withLineA (s : State) (level : Bool) : State := { s with eoc := ⟨level, false⟩ }

/-- The states: A's line is high just before the turn that drives it low. -/
def togglingRun (s : State) (n : Nat) : State := s.withLineA (decide (n % 3 = 0))

/-- A tick that finds no ADC pending and incomplete changes nothing (R209). -/
theorem tick_of_answered {s : State} (h : ∀ d, s.unanswered d = false) : s.tick = s := by
  simp [State.tick, State.countTick, State.checkTimeout, State.timedOut, State.flagTimeout, h]

/-- Where no handshake runs, SEQ has only SERVICE in WAIT. -/
theorem enabled_in_wait {s : State} {k : SeqStep} (hwait : s.phase = .wait) (hidle : s.hsState = .idle)
    (hen : s.Enabled k) : ∃ d, k = .service d := by
  obtain ⟨t, ht⟩ := Option.isSome_iff_exists.mp hen
  cases k with
  | issue => exact nomatch hwait.symm.trans (issue_eq_some ht).1.2
  | service d => exact ⟨d, rfl⟩
  | handoff => exact nomatch hwait.symm.trans (handoff_eq_some ht).1.2.1
  | hsSend => exact nomatch hidle.symm.trans (hsSend_eq_some ht).1.1
  | hsCheck => exact nomatch hidle.symm.trans (hsCheck_eq_some ht).1.1

namespace AwaitsBoth

variable {s : State}

theorem cond_a (h : AwaitsBoth s) (level : Bool) : (s.withLineA level).cond .a = !level := by
  simp [State.cond, State.withLineA, h.pend, h.level]

theorem cond_b (h : AwaitsBoth s) (level : Bool) : (s.withLineA level).cond .b = true := by
  simp [State.cond, State.withLineA, h.pend, h.level]

/-- In LEVEL mode the level of a pending ADC is all that EOC_DRIVE changes (R152). -/
theorem drive (h : AwaitsBoth s) (level v : Bool) :
    (s.withLineA level).takeTurn (.eocDrive .a v) = .next (s.withLineA v) := by
  simp [State.takeTurn, State.withLineA, eocDrive_eq, h.pend, h.level]

theorem tick (h : AwaitsBoth s) : (s.withLineA false).takeTurn .tick = .next (s.withLineA false) := by
  have hanswered : ∀ d, (s.withLineA false).unanswered d = false
    | .a => by simp [State.unanswered, h.cond_a]
    | .b => by simp [State.unanswered, h.cond_b]
  rw [State.takeTurn, tick_of_answered hanswered]

theorem isRun (h : AwaitsBoth s) : IsRun (togglingRun s) toggleTurn := by
  intro n
  obtain h0 | h1 | h2 : n % 3 = 0 ∨ n % 3 = 1 ∨ n % 3 = 2 := by omega
  · have hnext : (n + 1) % 3 = 1 := by omega
    simp [toggleTurn, togglingRun, h0, hnext, h.drive]
  · have hnext : (n + 1) % 3 = 2 := by omega
    simp [toggleTurn, togglingRun, h1, hnext, h.tick]
  · have hnext : (n + 1) % 3 = 0 := by omega
    simp [toggleTurn, togglingRun, h2, hnext, h.drive]

/-- SERVICE(A) is disabled before A's line goes low, and SERVICE(B) after it, so neither stays enabled. -/
theorem weaklyFair (h : AwaitsBoth s) : WeaklyFair (togglingRun s) toggleTurn := by
  refine ⟨fun k n hen => ?_, fun n => ⟨3 * n + 1, by omega, by simp [toggleTurn]⟩⟩
  obtain ⟨d, rfl⟩ := enabled_in_wait (s := togglingRun s n) h.wait h.idle (hen n (Nat.le_refl n))
  cases d with
  | a =>
    obtain ⟨-, -, hcond, -⟩ := (service_enabled_iff ..).mp (hen (3 * n) (by omega))
    simp [togglingRun, h.cond_a] at hcond
  | b =>
    obtain ⟨-, -, -, hfirst⟩ := (service_enabled_iff ..).mp (hen (3 * n + 1) (by omega))
    simp [togglingRun, h.cond_a] at hfirst

theorem fairScan (h : AwaitsBoth s) : FairScan (togglingRun s) toggleTurn where
  run := h.isRun
  fair := h.weaklyFair
  inv := h.inv.of_frame rfl
  scanning := h.scanning
  noReset n := by
    unfold toggleTurn
    split <;> exact Turn.noConfusion

end AwaitsBoth

/-- Weak fairness at every single step is not enough: this run stays in WAIT. -/
theorem toggling_neither_ends_nor_stalls : ¬ ∀ (r : Nat → State) (u : Nat → Turn), FairScan r u →
    (r 0).timeout ≠ 0 → ScanEnds r ∨ StallsForEver r := by
  intro hclaim
  obtain ⟨s, h⟩ := exists_awaitsBoth
  rcases hclaim _ _ h.fairScan h.timeout with ⟨n, hend⟩ | ⟨n, hstall⟩
  · have hscan : (togglingRun s n).state = .scanning := h.scanning
    simp [hscan] at hend
  · have hwait : (togglingRun s n).phase = .wait := h.wait
    simpa [State.handoffStall, hwait] using hstall n (Nat.le_refl n)

/-- Settles O60: under FairAtTicks an ADC that the ticks find complete is served; else its line toggles for ever, as in
the run above. -/
theorem fairScanEnds : Obligations.FairScanEnds :=
  ⟨fun _ _ h => h.ends_of_fairAtTicks, fun _ _ h h0 => ⟨h.ends_or_toggles h0, h.ends_of_settled h0⟩,
    toggling_neither_ends_nor_stalls⟩

/-! ## RESET (R60, R340) -/

/-- Settles O52: the fields of `resetStep`; an emptied store shows its free value at every index (log 6). -/
theorem resetStepClearsTheBlock : Obligations.ResetStepClearsTheBlock := fun s =>
  ⟨s.resetStep, rfl, ⟨rfl, rfl, rfl, rfl, rfl, rfl, rfl, rfl, rfl, rfl⟩, rfl, rfl, timeoutReset_ne_zero s.params,
    ⟨rfl, rfl, rfl, rfl, rfl, rfl, rfl, rfl, rfl⟩, ⟨rfl, rfl, rfl, rfl, rfl, rfl⟩, by
      simp [State.resetStep, Cfg.clearAsserted], fun _ => ⟨rfl, rfl, rfl⟩⟩

end Sys2Proof.Machine
